-- ==== Sys2Proof/Word.lean ====
section
/-! DEFINITION. The word types of the block (00_scope.md R9): a byte `u8`, a command word of 16
bits, a 64-bit device address `u64`, and a temperature `s16` in tenths of a degree Celsius. -/

namespace Sys2Proof

/-- `u8` (R9). -/
abbrev Byte := BitVec 8

/-- A host command word or an event word, 16 bits (R75). -/
abbrev Word := BitVec 16

/-- `u64`: a 1-Wire device address, byte 0 (the family code) in bits 7:0 (R52). -/
abbrev Addr := BitVec 64

/-- `s16`: a temperature in tenths of a degree Celsius, read with `BitVec.toInt` (R42). -/
abbrev Tenths := BitVec 16

end Sys2Proof
end

