-- ==== Sys2Proof/Syntax.lean ====
section
/-! DEFINITION. The instructions: one constructor per row of spec/opcode_table.json (30_encoding.md
R76), the eighteen host operations and the two events. -/

namespace Sys2Proof

/-- A host operation or an event (R76). An address operand is the ADDR carried beside the word
(R75); an immediate operand is `IMM8`, read unsigned (R77). -/
inductive Instr where
  /-- `init`, OPC 01 (R141). -/
  | init
  /-- `sendSlot b`, OPC 02 (R86): the operand is IMM8, whose bits 7:1 must be 0 (R78). -/
  | sendSlot (imm : Byte)
  /-- `startReset`, OPC 10 (R88). -/
  | startReset
  /-- `startWriteByte v`, OPC 11 (R89). -/
  | startWriteByte (v : Byte)
  /-- `startReadByte`, OPC 12 (R90). -/
  | startReadByte
  /-- `getTransferResult`, OPC 13 (R96). -/
  | getTransferResult
  /-- `resetBlocking`, OPC 14 (R98). -/
  | resetBlocking
  /-- `writeByteBlocking v`, OPC 15 (R99). -/
  | writeByteBlocking (v : Byte)
  /-- `readByteBlocking`, OPC 16 (R100). -/
  | readByteBlocking
  /-- `searchFirst f`, OPC 20 (R112): `f` is the family filter, 0 for none. -/
  | searchFirst (f : Byte)
  /-- `searchNext`, OPC 21 (R111). -/
  | searchNext
  /-- `familySkip`, OPC 22 (R114). -/
  | familySkip
  /-- `searchDevices n`, OPC 23 (R115): `n` is maxCount. -/
  | searchDevices (n : Byte)
  /-- `matchAddress a`, OPC 30 (R116). -/
  | matchAddress (a : Addr)
  /-- `getMatchResult`, OPC 31 (R122). -/
  | getMatchResult
  /-- `startConversion a`, OPC 40 (R124). -/
  | startConversion (a : Addr)
  /-- `startTemperatureRead a`, OPC 41 (R125). -/
  | startTemperatureRead (a : Addr)
  /-- `getTemperatureResult a`, OPC 42 (R133). -/
  | getTemperatureResult (a : Addr)
  /-- `EV_ECHO e`, event code 80 (R91). -/
  | evEcho (e : Byte)
  /-- `EV_SPIN_TIMEOUT`, event code 81 (R97). -/
  | evSpinTimeout
  deriving DecidableEq, Repr

/-- Whether the row is an event, which HOST may not issue (R76, R78). -/
def Instr.isEvent : Instr → Bool
  | .evEcho _ => true
  | .evSpinTimeout => true
  | .init => false
  | .sendSlot _ => false
  | .startReset => false
  | .startWriteByte _ => false
  | .startReadByte => false
  | .getTransferResult => false
  | .resetBlocking => false
  | .writeByteBlocking _ => false
  | .readByteBlocking => false
  | .searchFirst _ => false
  | .searchNext => false
  | .familySkip => false
  | .searchDevices _ => false
  | .matchAddress _ => false
  | .getMatchResult => false
  | .startConversion _ => false
  | .startTemperatureRead _ => false
  | .getTemperatureResult _ => false

end Sys2Proof
end

