-- ==== Sys2Proof/WellFormed.lean ====
section
/-! DEFINITION. Which instructions are legal as syntax. The operand types carry every bound of
30_encoding.md R77 but one: the immediate of `sendSlot`, whose bits 7:1 must be 0 (R78). -/

namespace Sys2Proof

/-- The legal immediates of `sendSlot`: IMM8[7:1] = 0 (R78). -/
def slotOperandLegal (imm : Byte) : Bool := imm.extractLsb' 1 7 == 0#7

/-- The well-formedness of an instruction (R77, R78). -/
def Instr.wellFormed : Instr → Bool
  | .init => true
  | .sendSlot imm => slotOperandLegal imm
  | .startReset => true
  | .startWriteByte _ => true
  | .startReadByte => true
  | .getTransferResult => true
  | .resetBlocking => true
  | .writeByteBlocking _ => true
  | .readByteBlocking => true
  | .searchFirst _ => true
  | .searchNext => true
  | .familySkip => true
  | .searchDevices _ => true
  | .matchAddress _ => true
  | .getMatchResult => true
  | .startConversion _ => true
  | .startTemperatureRead _ => true
  | .getTemperatureResult _ => true
  | .evEcho _ => true
  | .evSpinTimeout => true

end Sys2Proof
end

