-- ==== Sys2Proof/Decode.lean ====
section
/-! DEFINITION. The host command word (30_encoding.md R75 to R79): the decoder of a command word with
the ADDR operand beside it, rejecting by name, then the encoder. -/

namespace Sys2Proof

/-- What HOST puts on the CMD port: a 16-bit command word and the 64-bit ADDR operand carried beside
it (R75). The OPC alone says whether ADDR is used (R79); DESIGN CHOICE, safe: log 13. -/
structure Command where
  word : Word
  addr : Addr
  deriving DecidableEq, Repr

/-- `OPC = w[7:0]` (R75). -/
def opcOf (w : Word) : Byte := w.extractLsb' 0 8

/-- `IMM8 = w[15:8]` (R75). -/
def imm8Of (w : Word) : Byte := w.extractLsb' 8 8

/-- The word with the given IMM8 and OPC: `{IMM8, OPC}` (R75). -/
def wordOf (imm opc : Byte) : Word := imm ++ opc

/-- Why a command word is illegal (R78). -/
inductive DecodeError where
  /-- The OPC is not in the table of R76. -/
  | reservedOpcode
  /-- A nonzero IMM8 on an operation that takes none. -/
  | nonzeroImmediate
  /-- `sendSlot` with IMM8[7:1] nonzero. -/
  | slotOperand
  /-- An event code issued by HOST. -/
  | eventFromHost
  deriving DecidableEq, Repr

/-- An operation whose operands column says "none" or "ADDR": its IMM8 must be 0 (R78). -/
def decodePlain (imm : Byte) (i : Instr) : Except DecodeError Instr :=
  if imm = 0#8 then .ok i else .error .nonzeroImmediate

/-- `sendSlot` takes IMM8[0], and IMM8[7:1] must be 0 (R77, R78). -/
def decodeSlot (imm : Byte) : Except DecodeError Instr :=
  if slotOperandLegal imm then .ok (.sendSlot imm) else .error .slotOperand

/-- The table of R76, by OPC. -/
def decodeFields (opc imm : Byte) (addr : Addr) : Except DecodeError Instr :=
  match opc.toNat with
  | 0x01 => decodePlain imm .init
  | 0x02 => decodeSlot imm
  | 0x10 => decodePlain imm .startReset
  | 0x11 => .ok (.startWriteByte imm)
  | 0x12 => decodePlain imm .startReadByte
  | 0x13 => decodePlain imm .getTransferResult
  | 0x14 => decodePlain imm .resetBlocking
  | 0x15 => .ok (.writeByteBlocking imm)
  | 0x16 => decodePlain imm .readByteBlocking
  | 0x20 => .ok (.searchFirst imm)
  | 0x21 => decodePlain imm .searchNext
  | 0x22 => decodePlain imm .familySkip
  | 0x23 => .ok (.searchDevices imm)
  | 0x30 => decodePlain imm (.matchAddress addr)
  | 0x31 => decodePlain imm .getMatchResult
  | 0x40 => decodePlain imm (.startConversion addr)
  | 0x41 => decodePlain imm (.startTemperatureRead addr)
  | 0x42 => decodePlain imm (.getTemperatureResult addr)
  | 0x80 => .ok (.evEcho imm)
  | 0x81 => decodePlain imm .evSpinTimeout
  | _ => .error .reservedOpcode

/-- The decoder of a recorded trace: every row of R76, host operation or event. -/
def decode (c : Command) : Except DecodeError Instr :=
  decodeFields (opcOf c.word) (imm8Of c.word) c.addr

/-- The decoder of the CMD port: an event code issued by HOST is illegal (R78). -/
def decodeCommand (c : Command) : Except DecodeError Instr :=
  match decode c with
  | .ok i => if i.isEvent then .error .eventFromHost else .ok i
  | .error r => .error r

/-- The operation code of R76. -/
def opcode : Instr → Byte
  | .init => 0x01#8
  | .sendSlot _ => 0x02#8
  | .startReset => 0x10#8
  | .startWriteByte _ => 0x11#8
  | .startReadByte => 0x12#8
  | .getTransferResult => 0x13#8
  | .resetBlocking => 0x14#8
  | .writeByteBlocking _ => 0x15#8
  | .readByteBlocking => 0x16#8
  | .searchFirst _ => 0x20#8
  | .searchNext => 0x21#8
  | .familySkip => 0x22#8
  | .searchDevices _ => 0x23#8
  | .matchAddress _ => 0x30#8
  | .getMatchResult => 0x31#8
  | .startConversion _ => 0x40#8
  | .startTemperatureRead _ => 0x41#8
  | .getTemperatureResult _ => 0x42#8
  | .evEcho _ => 0x80#8
  | .evSpinTimeout => 0x81#8

/-- The immediate operand, 0 where the row takes none (R77, R78). -/
def immediate : Instr → Byte
  | .sendSlot imm => imm
  | .startWriteByte v => v
  | .writeByteBlocking v => v
  | .searchFirst f => f
  | .searchDevices n => n
  | .evEcho e => e
  | .init => 0#8
  | .startReset => 0#8
  | .startReadByte => 0#8
  | .getTransferResult => 0#8
  | .resetBlocking => 0#8
  | .readByteBlocking => 0#8
  | .searchNext => 0#8
  | .familySkip => 0#8
  | .matchAddress _ => 0#8
  | .getMatchResult => 0#8
  | .startConversion _ => 0#8
  | .startTemperatureRead _ => 0#8
  | .getTemperatureResult _ => 0#8
  | .evSpinTimeout => 0#8

/-- The ADDR operand of the four operations that take one (R77). -/
def address? : Instr → Option Addr
  | .matchAddress a => some a
  | .startConversion a => some a
  | .startTemperatureRead a => some a
  | .getTemperatureResult a => some a
  | .init => none
  | .sendSlot _ => none
  | .startReset => none
  | .startWriteByte _ => none
  | .startReadByte => none
  | .getTransferResult => none
  | .resetBlocking => none
  | .writeByteBlocking _ => none
  | .readByteBlocking => none
  | .searchFirst _ => none
  | .searchNext => none
  | .familySkip => none
  | .searchDevices _ => none
  | .getMatchResult => none
  | .evEcho _ => none
  | .evSpinTimeout => none

/-- The command of a well-formed instruction: `{IMM8, OPC}` and ADDR beside it (R75, R76). -/
def encode (i : Instr) : Command where
  word := wordOf (immediate i) (opcode i)
  addr := (address? i).getD 0#64

/-- Whether an event code stands in a word's OPC (R76): such a word names a step of BUS or a draw. -/
def isEventWord (w : Word) : Bool := opcOf w == 0x80#8 || opcOf w == 0x81#8

/-- The command whose bits are `w`, numbered from the first word's bit 0: the 16 bits of the command
word, then the 64 bits of ADDR (R75). Bits at `nbits` and above are 0. -/
def commandOfBits (nbits w : Nat) : Command where
  word := BitVec.ofNat 16 (w % 2 ^ nbits)
  addr := BitVec.ofNat 64 (w % 2 ^ nbits / 2 ^ 16)

/-- The instruction the decoder reads from an instruction whose bits are `w`. -/
def decodeTableWord (nbits w : Nat) : Option Instr :=
  match decode (commandOfBits nbits w) with
  | .ok i => some i
  | .error _ => none

end Sys2Proof
end

