-- ==== Sys2Proof/Config.lean ====
section
/-! DEFINITION. What one build of the block fixes (the parameters of 00_scope.md R8) and the free
values: constants with no body, for the fields the spec calls unspecified after `init` (10_state.md
R16). -/

namespace Sys2Proof

/-- How an echo byte becomes a bit (41_slot_transport.md R83). -/
inductive EchoDecode where
  | exactOnes
  | bit0
  deriving DecidableEq, Repr, Inhabited

/-- The parameters of R8, one field each. A state carries them in its field `cfg`, which no step
changes, so a statement about every state is about every choice of them. The values the spec adopts
stand in Machine/Params.lean. -/
structure Config where
  /-- `SLOT_ONE`: the slot byte of a read slot or a write-1 slot (R72). -/
  slotOne : Byte
  /-- `SLOT_ZERO`: the slot byte of a write-0 slot (R72). -/
  slotZero : Byte
  /-- `RESET_PATTERN`: the slot byte of a reset; it must differ from `IDLE_MARKER` (R72, D6), which the
  invariant `State.Coherent` says. -/
  resetPattern : Byte
  /-- `IDLE_MARKER`: the echo of a reset that means no presence (R85, D6). -/
  idleMarker : Byte
  /-- `BAUD_SLOT` in bit/s; no rule's result depends on it (D5). -/
  baudSlot : Nat
  /-- `BAUD_RESET` in bit/s; no rule's result depends on it (D5). -/
  baudReset : Nat
  /-- `ECHO_DECODE` (R83, D4). -/
  echoDecode : EchoDecode
  /-- `SPIN_BUDGET`: positive; the model does not count it (R97, D7). -/
  spinBudget : { n : Nat // 0 < n }
  /-- `CMD_SEARCH_ROM` (R73, D12). -/
  cmdSearchRom : Byte
  /-- `CMD_MATCH_ROM` (R73, D12). -/
  cmdMatchRom : Byte
  /-- `CMD_SKIP_ROM` (R73, D12). -/
  cmdSkipRom : Byte
  /-- `CMD_CONVERT_T` (R73). -/
  cmdConvertT : Byte
  /-- `CMD_READ_SCRATCHPAD` (R73). -/
  cmdReadScratchpad : Byte
  /-- `SCRATCHPAD_LEN`: its one value is the length of the buffer that R40 gives the block. -/
  scratchpadLen : { n : Nat // n = 9 }
  /-- `ROM_BITS`: its one value is the width of an address, which R32 and R52 give. -/
  romBits : { n : Nat // n = 64 }
  /-- `BROADCAST_SENTINEL`: the address that selects ROM skip (R117, D14). -/
  broadcastSentinel : Addr
  /-- `JUMP_THRESHOLD` in tenths of a degree (R131). -/
  jumpThreshold : Nat
  /-- `CONVERSION_WAIT_MS`: the least time HOST waits between a conversion and a read. A duty of the
  host that the block neither times nor enforces (R144, D48), so no step reads it. -/
  conversionWaitMs : Nat
  /-- `LKG_INIT`: the last-known-good temperature before any good reading (R42, D24). -/
  lkgInit : Tenths
  /-- `FAMILY_STRICT` (R113, D13). -/
  familyStrict : Bool
  deriving DecidableEq, Repr

/-- The kind of a host transfer's result (10_state.md R25). -/
inductive XferKind where
  | reset
  | write
  | read
  deriving DecidableEq, Repr, Inhabited

/-- Who gets a match's completion (10_state.md R37). -/
inductive MatchClient where
  | host
  | dp
  deriving DecidableEq, Repr, Inhabited

/-- Which operation the Device Protocol runs (10_state.md R39). -/
inductive DpOp where
  | convert
  | read
  deriving DecidableEq, Repr, Inhabited

/-- Free values, applied to the state's counter `draws`: what `init` leaves in a field the spec
calls unspecified, and what the scratchpad holds at the start of a temperature read and after its
decode. DESIGN CHOICE, safe: log 9. -/
opaque Config.freeByte : Nat → Byte
opaque Config.freeAddr : Nat → Addr
opaque Config.freeKind : Nat → XferKind
opaque Config.freeClient : Nat → MatchClient
opaque Config.freeOp : Nat → DpOp
opaque Config.freeScratchpad : Nat → Vector Byte 9

end Sys2Proof
end

