-- ==== Sys2Proof/Machine/Params.lean ====
section
/-! DEFINITION. The values of the parameters of 00_scope.md R8 that the reset state holds. -/

namespace Sys2Proof.Machine

/-- The spec value of each parameter (R8). Where R8 leaves one OPEN: the informative reset pattern and
rates (PRESUMED), and a budget of 1 (DESIGN CHOICE: log 11). The three ROM commands are the spec's from
general knowledge (PRESUMED: log 12). -/
def cfgAtReset : Config where
  slotOne := 0xFF#8
  slotZero := 0x00#8
  resetPattern := 0xF0#8
  idleMarker := 0x00#8
  baudSlot := 115200
  baudReset := 9600
  echoDecode := .exactOnes
  spinBudget := ⟨1, by decide⟩
  cmdSearchRom := 0xF0#8
  cmdMatchRom := 0x55#8
  cmdSkipRom := 0xCC#8
  cmdConvertT := 0x44#8
  cmdReadScratchpad := 0xBE#8
  scratchpadLen := ⟨9, rfl⟩
  romBits := ⟨64, rfl⟩
  broadcastSentinel := 0#64
  jumpThreshold := 50
  conversionWaitMs := 500
  lkgInit := 0#16
  familyStrict := true

end Sys2Proof.Machine
end

