-- ==== Sys2Proof/Machine/State.lean ====
section
/-! DEFINITION. The state of the block (10_state.md R15 to R44), what its output ports carry (R45),
the inputs still to come, the ways a step can stop, and the state at power-up. -/

namespace Sys2Proof.Machine

/-- `S.eng` (R18). -/
inductive Eng where
  | idle
  | resetPending
  | writePending (i : Fin 8)
  | readPending (i : Fin 8)
  deriving DecidableEq, Repr

/-- `S.engCont`, the continuation tag of the transfer in flight (R20). -/
inductive Cont where
  | none
  | hostAsync
  | blocking
  | romMatch
  | dp
  deriving DecidableEq, Repr

/-- Who sent the slot in flight (R21). -/
inductive SlotOwner where
  | engine
  | sync
  deriving DecidableEq, Repr

/-- `S.baud`: `BAUD_SLOT` or `BAUD_RESET` (R22). -/
inductive Baud where
  | normal
  | reset
  deriving DecidableEq, Repr

/-- `S.hostWait`: what a blocked HOST waits for (R28). -/
inductive HostWait where
  | none
  | slot
  | reset
  | write
  | read
  deriving DecidableEq, Repr

/-- `S.m` (R35). -/
inductive MatchState where
  | idle
  | reset
  | skipCmd
  | matchCmd
  | addr (k : Fin 8)
  deriving DecidableEq, Repr

/-- `S.mResult` (R38). -/
inductive MatchResult where
  | none
  | pending
  | ok
  | failed
  deriving DecidableEq, Repr

/-- `S.dp` (R39). -/
inductive Dp where
  | idle
  | awaitingMatch
  | awaitingCommand
  | awaitingReadByte (k : Fin 9)
  | done
  deriving DecidableEq, Repr

/-- `S.pullup` (R44). -/
inductive Pullup where
  | weak
  | strong
  deriving DecidableEq, Repr

/-- The status codes (60_exceptions.md R134). -/
inductive Status where
  | ok
  | busy
  | noDevice
  | crcMismatch
  | busTimeout
  | noMore
  | familyAbsent
  | pending
  | illegal
  deriving DecidableEq, Repr

/-- The document's four error kinds, which `fail` logs and returns (R10, R134). -/
inductive ErrorKind where
  | busy
  | noDevice
  | crcMismatch
  | busTimeout
  deriving DecidableEq, Repr

/-- The codes on the log port: an error, or the one notice (60_exceptions.md R136). -/
inductive LogCode where
  | error (k : ErrorKind)
  | tempJump
  deriving DecidableEq, Repr

/-- The value an operation returns beside its status (R11, R134). -/
inductive RetVal where
  | none
  | bit (b : Bool)
  | presence (p : Bool)
  | byte (v : Byte)
  | transfer (k : XferKind) (v : Byte)
  | addr (a : Addr)
  | addrs (l : List Addr)
  | temperature (t : Tenths) (valid : Bool)
  deriving DecidableEq, Repr

/-- One event on an output port (R45). -/
inductive OutEvent where
  /-- RESULT: the status and the value of a host operation. -/
  | result (st : Status) (v : RetVal)
  /-- TX: a slot byte handed to the UART, with the rate `tx` names (R10). -/
  | tx (b : Byte) (rate : Baud)
  /-- BAUD: the rate after a change. -/
  | baud (b : Baud)
  /-- LINE: the line state after a change. -/
  | line (p : Pullup)
  /-- LOG. -/
  | log (c : LogCode)
  /-- COMPLETE: a `HostAsync` transfer's result. -/
  | complete (k : XferKind) (v : Byte)
  deriving DecidableEq, Repr

/-- One input step of the machine (00_scope.md R6): HOST puts a command on CMD, or an event of BUS or
of the spin-wait draw takes place, given by its event word (R76). -/
inductive Input where
  | command (c : Command)
  | event (w : Word)
  deriving DecidableEq, Repr

/-- Which operation runs a search pass: `searchNext`, `searchFirst f`, or `searchDevices n` with the
addresses found so far (44_rom_search.md R111, R112, R115). -/
inductive SearchCaller where
  | next
  | first (f : Byte)
  | devices (n : Byte) (found : List Addr)
  deriving DecidableEq, Repr

/-- Where a search pass waits (R109). Index `k` is search position `p = k + 1` (R53). -/
inductive PassPoint where
  /-- for the first `resetBlocking` -/
  | reset
  /-- for the write of `CMD_SEARCH_ROM` -/
  | command
  /-- for the read of the address bit -/
  | readAddr (k : Fin 64)
  /-- for the read of its complement, `t` being the address bit read -/
  | readCompl (k : Fin 64) (t : Bool)
  /-- for the write of the direction bit `d` -/
  | writeDir (k : Fin 64) (d : Bool)
  deriving DecidableEq, Repr

/-- The blocked host operation: none, one that waits for one slot or transfer and returns its result
(`sendSlot` and the three wrappers), or a search. The model's own field, DESIGN CHOICE: log 6. -/
inductive HostCall where
  | none
  | direct
  | search (c : SearchCaller) (at_ : PassPoint)
  deriving DecidableEq, Repr

/-- The state of the block (10_state.md R15), with the model's own fields after it. -/
structure State where
  /-- R17 -/
  initDone : Bool
  /-- R18 -/
  eng : Eng
  /-- R19 -/
  engData : Byte
  /-- R20 -/
  engCont : Cont
  /-- R21 -/
  slotOut : Option (SlotOwner × Byte)
  /-- R22 -/
  baud : Baud
  /-- R23 -/
  rx : Byte
  /-- R24 -/
  presence : Bool
  /-- R25 -/
  xferDone : Bool
  /-- R25 -/
  xferKind : XferKind
  /-- R25 -/
  xferValue : Byte
  /-- R26 -/
  blkDone : Bool
  /-- R26 -/
  blkValue : Byte
  /-- R27 -/
  syncEcho : Option Byte
  /-- R28 -/
  hostWait : HostWait
  /-- R29: 0 to 64 -/
  lastDiscrepancy : Nat
  /-- R30: 0 to 8 -/
  lastFamilyDiscrepancy : Nat
  /-- R31 -/
  lastDeviceFlag : Bool
  /-- R32 -/
  rom : Addr
  /-- R33: 0 to 64 -/
  lastZero : Nat
  /-- R34 -/
  searchCrc : Byte
  /-- R35 -/
  m : MatchState
  /-- R36 -/
  mAddr : Addr
  /-- R37 -/
  mClient : MatchClient
  /-- R38 -/
  mResult : MatchResult
  /-- R39 -/
  dp : Dp
  /-- R39 -/
  dpOp : DpOp
  /-- R40 -/
  sp : Vector Byte 9
  /-- R41 -/
  dpCrc : Byte
  /-- R42 -/
  lkg : Tenths
  /-- R42 -/
  lkgValid : Bool
  /-- R43 -/
  lastValid : Bool
  /-- R44 -/
  pullup : Pullup
  /-- The model's own: where a blocked host operation stands (log 6). -/
  call : HostCall
  /-- The model's own: the inputs still to come, oldest first (log 1). -/
  inbox : List Input
  /-- The model's own: what the output ports have carried, oldest first (log 7). -/
  out : List OutEvent
  /-- The model's own: how many free values have been drawn (log 9). -/
  draws : Nat
  /-- The parameters (R8); no step changes them (log 11, log 12). -/
  cfg : Config
  deriving DecidableEq, Repr

/-- Why the machine stops with a fault: a (state, completion) pair the spec calls unreachable. Each
is safe: the spec gives no effect, and the model goes no further (log 15). -/
inductive Fault where
  /-- EV_ECHO with an engine slot in flight and `S.eng = Idle` (R91). Safe. -/
  | engineEchoWhileIdle
  /-- `matchStep` with a completion its state does not wait for (45_rom_match.md, before R117). Safe. -/
  | matchCompletionUnlisted
  /-- `dpStep` with a completion its state does not wait for (R126 to R129). Safe. -/
  | dpCompletionUnlisted
  /-- A start inside a search pass, after its first reset, found the engine busy (R109). Safe. -/
  | searchStartRefused
  /-- HOST's await ended, and the operation it belongs to waits for something else (R28). Safe. -/
  | hostCallMismatch
  deriving DecidableEq, Repr

/-- Why a step is refused: the input names no enabled step of the machine. Each is safe (log 4). -/
inductive Refusal where
  /-- An instruction without a meaning; no arm of `exec` answers it now. Safe. -/
  | notModelled (mnemonic : String)
  /-- A host operation while HOST is blocked, which "issues nothing" (R7, R14). Safe. -/
  | hostBlocked
  /-- EV_ECHO with no slot in flight, or before `init`: "the step does not exist" (R91, R142). Safe. -/
  | echoNotEnabled
  /-- EV_SPIN_TIMEOUT with no unsatisfied await, or before `init` (R97, R142). Safe. -/
  | timeoutNotEnabled
  /-- An event input whose word is no event code: raised by `step`. Safe. -/
  | notAnEvent
  deriving DecidableEq, Repr

/-- The three outcomes of a step of this machine. -/
abbrev Outcome := Host.Outcome State Fault Refusal

/-- The machine at power-up: `S.initDone` false (R17), every other field at the value its rule gives
after `init`, and 0 (or the first legal value) where the rule says unspecified. No rule reads one of
these before `init` writes it (R142). DESIGN CHOICE: log 8. -/
def State.reset : State where
  initDone := false
  eng := .idle
  engData := 0#8
  engCont := .none
  slotOut := none
  baud := .normal
  rx := cfgAtReset.idleMarker
  presence := false
  xferDone := false
  xferKind := .reset
  xferValue := 0#8
  blkDone := false
  blkValue := 0#8
  syncEcho := none
  hostWait := .none
  lastDiscrepancy := 0
  lastFamilyDiscrepancy := 0
  lastDeviceFlag := false
  rom := 0#64
  lastZero := 0
  searchCrc := 0#8
  m := .idle
  mAddr := 0#64
  mClient := .host
  mResult := .none
  dp := .idle
  dpOp := .convert
  sp := Vector.replicate 9 0#8
  dpCrc := 0#8
  lkg := cfgAtReset.lkgInit
  lkgValid := false
  lastValid := false
  pullup := .weak
  call := .none
  inbox := []
  out := []
  draws := 0
  cfg := cfgAtReset

end Sys2Proof.Machine
end

