-- ==== Sys2Proof/Machine/Operands.lean ====
section
/-! DEFINITION. Bits and bytes: slot encoding and echo decoding (41_slot_transport.md R82 to R85),
and the bit and byte order of an address and of a byte (20_memory.md R52 to R55). -/

namespace Sys2Proof.Machine

/-- `slotByte(bit)` (R82). -/
def slotByte (cfg : Config) (b : Bool) : Byte := if b then cfg.slotOne else cfg.slotZero

/-- `decodeBit(e)` (R83). -/
def decodeBit (cfg : Config) (e : Byte) : Bool :=
  match cfg.echoDecode with
  | .exactOnes => e == 0xFF#8
  | .bit0 => e.getLsbD 0

/-- `presence(e)` (R85). -/
def presenceOf (cfg : Config) (e : Byte) : Bool := e != cfg.resetPattern && e != cfg.idleMarker

/-- `v` with bit `i` set to `b`. -/
def setBit {w : Nat} (v : BitVec w) (i : Nat) (b : Bool) : BitVec w :=
  if b then v ||| BitVec.twoPow w i else v &&& ~~~(BitVec.twoPow w i)

/-- Bit `i` of a byte, sent in slot `i` of its transfer (R54). -/
def byteBit (v : Byte) (i : Nat) : Bool := v.getLsbD i

/-- The slot byte of bit `i` of a byte write (R74). -/
def writeSlot (cfg : Config) (v : Byte) (i : Nat) : Byte := slotByte cfg (byteBit v i)

/-- `zext_8(p)` of a presence flag (R9, R95). -/
def flagByte (p : Bool) : Byte := if p then 1#8 else 0#8

/-- Byte `k` of an address: `a[8k+7:8k]` (R52). -/
def addrByte (a : Addr) (k : Nat) : Byte := a.extractLsb' (8 * k) 8

/-- The eight bytes of an address, byte 0 (the family code) first (R52, R55). -/
def addrBytes (a : Addr) : List Byte := (List.range 8).map (addrByte a)

/-- The family code of an address: its low byte (R52). -/
def familyOf (a : Addr) : Byte := addrByte a 0

/-- `rom_bit(a, p)` at index `k = p - 1` (R53). -/
def romBit (a : Addr) (k : Nat) : Bool := a.getLsbD k

end Sys2Proof.Machine
end

