-- ==== Sys2Proof/Machine/Flags.lean ====
section
/-! DEFINITION. The conditions the rules test: the busy conditions, the awaited condition of a
blocked HOST, and quiescence. The flags proper (10_state.md R48) are fields, written by the
operation each rule names. -/

namespace Sys2Proof.Machine

/-- `engBusy = (S.eng ≠ Idle) or (S.slotOut ≠ None)` (42_transfer_engine.md R87). -/
abbrev State.engBusy (s : State) : Prop := s.eng ≠ .idle ∨ s.slotOut ≠ none

/-- `dpBusy = S.dp ∉ {Idle, Done}` (46_temperature.md R123). -/
abbrev State.dpBusy (s : State) : Prop := s.dp ≠ .idle ∧ s.dp ≠ .done

/-- What makes a start of the Device Protocol `Busy` (46_temperature.md R123). -/
abbrev State.dpStartBusy (s : State) : Prop := s.dpBusy ∨ s.m ≠ .idle ∨ s.engBusy

/-- Whether HOST is blocked at an await whose condition does not yet hold: when EV_SPIN_TIMEOUT is
enabled (42_transfer_engine.md R97). -/
def State.awaiting (s : State) : Bool :=
  match s.hostWait with
  | .none => false
  | .slot => s.syncEcho.isNone
  | .reset => !s.blkDone
  | .write => !s.blkDone
  | .read => !s.blkDone

/-- The end of a run (70_reset_and_hazards.md R147). -/
abbrev State.quiescent (s : State) : Prop :=
  s.initDone = true ∧ s.hostWait = .none ∧ s.slotOut = none ∧ s.eng = .idle ∧ s.m = .idle ∧
    (s.dp = .idle ∨ s.dp = .done)

end Sys2Proof.Machine
end

