-- ==== Sys2Proof/Machine/Ops.lean ====
section
/-! DEFINITION. The named operations on the state: the output ports (10_state.md R45), the one
operation for an error (`fail`, 00_scope.md R10), the return of a host operation (R11), and the
guard every host operation passes. The block takes no trap and returns from none (60_exceptions.md
R139): `fail` is what stands in its place. -/

namespace Sys2Proof.Machine

/-- The numeric status codes (R134, D27). -/
def Status.code : Status → Nat
  | .ok => 0
  | .busy => 1
  | .noDevice => 2
  | .crcMismatch => 3
  | .busTimeout => 4
  | .noMore => 5
  | .familyAbsent => 6
  | .pending => 7
  | .illegal => 8

/-- The status of an error kind (R134). -/
def ErrorKind.status : ErrorKind → Status
  | .busy => .busy
  | .noDevice => .noDevice
  | .crcMismatch => .crcMismatch
  | .busTimeout => .busTimeout

/-- The numeric log codes: the status code of an error, 9 for the notice (R136). -/
def LogCode.code : LogCode → Nat
  | .error k => k.status.code
  | .tempJump => 9

/-- One event on an output port. -/
def State.emit (s : State) (e : OutEvent) : State := { s with out := s.out ++ [e] }

/-- `log(code)` (R10, R136). -/
def State.log (s : State) (c : LogCode) : State := s.emit (.log c)

/-- An error is logged where it arises (R136). -/
def State.logError (s : State) (k : ErrorKind) : State := s.log (.error k)

/-- "Return": the status and value are on the host port (R11). HOST is then free, so no call is
left. -/
def State.ret (s : State) (st : Status) (v : RetVal) : State :=
  { s with out := s.out ++ [.result st v], call := .none }

/-- `fail E`: log E, then return status E (R10). -/
def State.failWith (s : State) (k : ErrorKind) (v : RetVal) : State :=
  (s.logError k).ret k.status v

/-- `tx(b, rate)`: hand a slot byte to the UART and mark it in flight (R10, R21). -/
def State.tx (s : State) (o : SlotOwner) (b : Byte) (rate : Baud) : State :=
  { s with slotOut := some (o, b), out := s.out ++ [.tx b rate] }

/-- A write of `S.baud`, emitted on BAUD when it changes (R22, R45). -/
def State.setBaud (s : State) (b : Baud) : State :=
  { s with baud := b, out := if s.baud = b then s.out else s.out ++ [.baud b] }

/-- A write of `S.pullup`, emitted on LINE when it changes (R44, R45). -/
def State.setPullup (s : State) (p : Pullup) : State :=
  { s with pullup := p, out := if s.pullup = p then s.out else s.out ++ [.line p] }

/-- Before the first `init`, and for an illegal command word: status `Illegal`, not logged, nothing
changed (R78, R142). -/
def State.illegal (s : State) : State := s.emit (.result .illegal .none)

/-- What every host operation but `init` passes first: `Illegal` before `init` (R142, first in the
order of R138), then nothing is issued while HOST is blocked (R7, R14). -/
def hostOp (s : State) (run : State → Outcome) : Outcome :=
  if s.initDone then
    if s.hostWait = .none then run s else .refused .hostBlocked
  else .next s.illegal

end Sys2Proof.Machine
end

