-- ==== Sys2Proof/Machine/Engine.lean ====
section
/-! DEFINITION. The Transfer Engine's starts, its result register, and the synchronous wrappers up to
their await (42_transfer_engine.md R87 to R100), with `sendSlot` (41_slot_transport.md R86). What an
echo does with a transfer in flight stands in Events.lean. -/

namespace Sys2Proof.Machine

/-- The result a completed transfer delivers (R95). -/
inductive TransferResult where
  | resetDone (p : Bool)
  | writeDone
  | readDone (v : Byte)
  deriving DecidableEq, Repr

/-- What every accepted start does first: the continuation tag, and for a host transfer the clearing
of `S.xferDone` (R88, R89, R90). -/
def State.claimEngine (s : State) (c : Cont) : State :=
  { s with engCont := c, xferDone := if c = .hostAsync then false else s.xferDone }

/-- The effect of an accepted `startReset`: rate switch, clear, transmit, in that order (R88). -/
def acceptReset (c : Cont) (s : State) : State :=
  let s1 := { s.setBaud .reset with rx := s.cfg.idleMarker }
  { (s1.claimEngine c).tx .engine s.cfg.resetPattern .reset with eng := .resetPending }

/-- The effect of an accepted `startWriteByte v` (R89). -/
def acceptWrite (v : Byte) (c : Cont) (s : State) : State :=
  let s1 := { s with engData := v }
  { (s1.claimEngine c).tx .engine (writeSlot s.cfg v 0) .normal with eng := .writePending 0 }

/-- The effect of an accepted `startReadByte` (R90). -/
def acceptRead (c : Cont) (s : State) : State :=
  let s1 := { s with engData := 0#8 }
  { (s1.claimEngine c).tx .engine s.cfg.slotOne .normal with eng := .readPending 0 }

/-- A start: `Busy`, logged and nothing changed, when the engine is busy (R87). The state and the
status returned to the immediate caller. -/
def startWith (accept : State → State) (s : State) : State × Status :=
  if s.engBusy then (s.logError .busy, .busy) else (accept s, .ok)

/-- `startReset(cont)` (R88). -/
def startReset (c : Cont) (s : State) : State × Status := startWith (acceptReset c) s

/-- `startWriteByte(v, cont)` (R89). -/
def startWriteByte (v : Byte) (c : Cont) (s : State) : State × Status :=
  startWith (acceptWrite v c) s

/-- `startReadByte(cont)` (R90). -/
def startReadByte (c : Cont) (s : State) : State × Status := startWith (acceptRead c) s

/-- `sendSlot b` up to its await (R86). -/
def startSlot (b : Bool) (s : State) : State × Status :=
  startWith
    (fun s =>
      { { s with syncEcho := none }.tx .sync (slotByte s.cfg b) .normal with hostWait := .slot }) s

/-- A wrapper up to its await: the start with continuation `Blocking`, and once it is accepted
`S.blkDone <- false` and HOST blocked (R98, R99, R100). -/
def blockOn (w : HostWait) (started : State × Status) : State × Status :=
  if started.2 = .ok then ({ started.1 with blkDone := false, hostWait := w }, .ok) else started

/-- `resetBlocking` up to its await (R98). -/
def blockReset (s : State) : State × Status := blockOn .reset (startReset .blocking s)

/-- `writeByteBlocking v` up to its await (R99). -/
def blockWrite (v : Byte) (s : State) : State × Status :=
  blockOn .write (startWriteByte v .blocking s)

/-- `readByteBlocking` up to its await (R100). -/
def blockRead (s : State) : State × Status := blockOn .read (startReadByte .blocking s)

/-- An asynchronous start returns its status in the step that issues it (R12). -/
def returnStatus (r : State × Status) : Outcome := .next (r.1.ret r.2 .none)

/-- A blocking operation that is refused returns `Busy` (logged already); else HOST stays blocked. -/
def enterAwait (r : State × Status) : Outcome :=
  if r.2 = .ok then .next { r.1 with call := .direct } else returnStatus r

/-- `startReset` issued by HOST (R88). -/
def execStartReset (s : State) : Outcome :=
  hostOp s fun s => returnStatus (startReset .hostAsync s)

/-- `startWriteByte v` issued by HOST (R89). -/
def execStartWriteByte (v : Byte) (s : State) : Outcome :=
  hostOp s fun s => returnStatus (startWriteByte v .hostAsync s)

/-- `startReadByte` issued by HOST (R90). -/
def execStartReadByte (s : State) : Outcome :=
  hostOp s fun s => returnStatus (startReadByte .hostAsync s)

/-- `getTransferResult` (R96). -/
def execGetTransferResult (s : State) : Outcome :=
  hostOp s fun s =>
    .next (if s.xferDone then s.ret .ok (.transfer s.xferKind s.xferValue) else s.ret .pending .none)

/-- `resetBlocking` (R98). -/
def execResetBlocking (s : State) : Outcome := hostOp s fun s => enterAwait (blockReset s)

/-- `writeByteBlocking v` (R99). -/
def execWriteByteBlocking (v : Byte) (s : State) : Outcome :=
  hostOp s fun s => enterAwait (blockWrite v s)

/-- `readByteBlocking` (R100). -/
def execReadByteBlocking (s : State) : Outcome := hostOp s fun s => enterAwait (blockRead s)

/-- `sendSlot b`, the bit being IMM8[0] (R86). An immediate with IMM8[7:1] nonzero is illegal (R78);
the decoder never passes one. -/
def execSendSlot (imm : Byte) (s : State) : Outcome :=
  hostOp s fun s =>
    if slotOperandLegal imm then enterAwait (startSlot (imm.getLsbD 0) s) else .next s.illegal

end Sys2Proof.Machine
end

