-- ==== Sys2Proof/Machine/Temperature.lean ====
section
/-! DEFINITION. The Device Protocol after its start: its continuation `dpStep`, the decode, the CRC
gate, the scratchpad buffer, the abort, and the result (46_temperature.md R126 to R133). -/

namespace Sys2Proof.Machine

/-- The 7-bit integer part of the raw temperature: `((lsb >> 4) | (msb << 4)) & 0x7F` (R130). -/
def integerPart (lsb msb : Byte) : BitVec 7 :=
  BitVec.ofNat 7 ((lsb.toNat >>> 4) ||| (msb.toNat <<< 4))

/-- `decode(lsb, msb)` as an integer number of tenths, before it is held as an `s16` (R130, D22). -/
def decodeTenths (lsb msb : Byte) : Int :=
  let ip := integerPart lsb msb
  let signed : Int := if msb.getLsbD 3 then -((~~~ip + 1#7).toNat : Int) else (ip.toNat : Int)
  let f := lsb.toNat % 16
  signed * 10 + (if f = 0 then 0 else (f * 10 / 16 : Nat))

/-- `decode(lsb, msb) : s16` (R130). -/
def decodeTemperature (lsb msb : Byte) : Tenths := BitVec.ofInt 16 (decodeTenths lsb msb)

/-- Whether a good reading deviates from the previous good one by more than the threshold (R131). -/
def isJump (s : State) (t : Tenths) : Bool :=
  s.lkgValid && decide (s.cfg.jumpThreshold < (t.toInt - s.lkg.toInt).natAbs)

/-- `gate(t)` (R131). -/
def gate (t : Tenths) (s : State) : State :=
  if s.dpCrc = 0#8 then
    { (if isJump s t then s.log .tempJump else s) with
      lkg := t, lkgValid := true, lastValid := true }
  else { s.logError .crcMismatch with lastValid := false }

/-- What the continuation `DP` receives: the completion of the match, or of a transfer (R121, R95). -/
inductive DpSignal where
  | matchDone
  | transfer (r : TransferResult)
  deriving DecidableEq, Repr

/-- Match completion: write the command byte (R126). -/
def dpMatchDone (s : State) : State :=
  let cmd := match s.dpOp with
    | .convert => s.cfg.cmdConvertT
    | .read => s.cfg.cmdReadScratchpad
  { (startWriteByte cmd .dp s).1 with dp := .awaitingCommand }

/-- Command-write completion: the strong pull-up for a conversion (R127), the first read for a
temperature read (R128). -/
def dpCommandDone (s : State) : State :=
  match s.dpOp with
  | .convert => { s.setPullup .strong with dp := .done }
  | .read => { (startReadByte .dp { s with dpCrc := 0#8 }).1 with dp := .awaitingReadByte 0 }

/-- The fold of scratchpad byte `k` into the buffer and the running CRC (R129). -/
def storeScratchpad (k : Fin 9) (v : Byte) (s : State) : State :=
  { s with sp := s.sp.set k.val v k.isLt, dpCrc := crc8Step s.dpCrc v }

/-- The scratchpad buffer is unspecified: at the start of a read (R125), and after the decode, which
consumes it (R40). Nine free bytes (log 9). -/
def freshScratchpad (s : State) : State :=
  { s with sp := Config.freeScratchpad s.draws, draws := s.draws + 1 }

/-- Scratchpad-byte completion (R129): read the next byte, or decode and gate after the ninth, which
discards the buffer (R40; log 10). -/
def dpByteDone (k : Fin 9) (v : Byte) (s : State) : State :=
  let s1 := storeScratchpad k v s
  if k.val + 1 < s.cfg.scratchpadLen.val then
    { (startReadByte .dp s1).1 with dp := .awaitingReadByte (k + 1) }
  else freshScratchpad { gate (decodeTemperature s1.sp[0] s1.sp[1]) s1 with dp := .done }

/-- `dpStep(r)` (R126 to R129). A pair no rule lists is unreachable, and a fault here (log 15). -/
def dpStep (r : DpSignal) (s : State) : Outcome :=
  match s.dp, r with
  | .awaitingMatch, .matchDone => .next (dpMatchDone s)
  | .awaitingCommand, .transfer .writeDone => .next (dpCommandDone s)
  | .awaitingReadByte k, .transfer (.readDone v) => .next (dpByteDone k v s)
  | _, _ => .fault .dpCompletionUnlisted

/-- `dpAbort()` (R132). -/
def dpAbort (s : State) : State :=
  { s with lastValid := if s.dpOp = .read then false else s.lastValid, dp := .idle }

/-- `getTemperatureResult a` (R133): the address is ignored. `S.dpOp` is looked at only while the
Device Protocol is busy, so never before a start has written it. -/
def execGetTemperatureResult (_a : Addr) (s : State) : Outcome :=
  hostOp s fun s =>
    let st : Status := if s.dpBusy then (if s.dpOp = .read then .pending else .ok) else .ok
    .next (s.ret st (.temperature s.lkg s.lastValid))

end Sys2Proof.Machine
end

