-- ==== Sys2Proof/Machine/RomMatch.lean ====
section
/-! DEFINITION. The ROM Match Sequencer (45_rom_match.md R116 to R122), and the two starts of the
Device Protocol that run it (46_temperature.md R123 to R125). -/

namespace Sys2Proof.Machine

/-- The effect of an accepted match start (R116). -/
def acceptMatch (a : Addr) (client : MatchClient) (s : State) : State :=
  let s1 := { s with mAddr := a, mClient := client, mResult := .pending }
  { (startReset .romMatch s1).1 with m := .reset }

/-- `matchStart(a, client)` (R116). -/
def matchStart (a : Addr) (client : MatchClient) (s : State) : State × Status :=
  if s.m ≠ .idle then (s.logError .busy, .busy)
  else if s.engBusy then (s.logError .busy, .busy)
  else (acceptMatch a client s, .ok)

/-- `mdone()` (R121). -/
def matchDone (s : State) : Outcome :=
  let s1 := { s with m := .idle, mResult := .ok }
  match s1.mClient with
  | .host => .next s1
  | .dp => dpStep .matchDone s1

/-- The failure of a match: the reset found no device (R117). -/
def matchFailed (s : State) : State :=
  let s1 := { s with m := .idle, mResult := .failed }.logError .noDevice
  match s1.mClient with
  | .host => s1
  | .dp => dpAbort s1

/-- The first command byte after a presence: skip for the sentinel, else match (R117). -/
def matchCommand (s : State) : State :=
  if s.mAddr = s.cfg.broadcastSentinel then
    { (startWriteByte s.cfg.cmdSkipRom .romMatch s).1 with m := .skipCmd }
  else { (startWriteByte s.cfg.cmdMatchRom .romMatch s).1 with m := .matchCmd }

/-- The write of address byte `k` (R119, R120). -/
def matchSendByte (k : Fin 8) (s : State) : State :=
  { (startWriteByte (addrByte s.mAddr k.val) .romMatch s).1 with m := .addr k }

/-- `matchStep(r)` (R117 to R121). A pair no rule lists is unreachable, and a fault here (log 15). -/
def matchStep (r : TransferResult) (s : State) : Outcome :=
  match s.m, r with
  | .reset, .resetDone p => .next (if p then matchCommand s else matchFailed s)
  | .skipCmd, .writeDone => matchDone s
  | .matchCmd, .writeDone => .next (matchSendByte 0 s)
  | .addr k, .writeDone => if k.val < 7 then .next (matchSendByte (k + 1) s) else matchDone s
  | _, _ => .fault .matchCompletionUnlisted

/-- `matchAddress a` issued by HOST (R116). -/
def execMatchAddress (a : Addr) (s : State) : Outcome :=
  hostOp s fun s => returnStatus (matchStart a .host s)

/-- `getMatchResult` (R122). -/
def execGetMatchResult (s : State) : Outcome :=
  hostOp s fun s =>
    let st : Status := match s.mResult with
      | .ok => .ok
      | .failed => .noDevice
      | .pending => .pending
      | .none => .pending
    .next (s.ret st .none)

/-- An accepted start of the Device Protocol: the weak pull-up, the operation, and the match with
client `DP` (R124, R125). -/
def acceptDp (op : DpOp) (a : Addr) (s : State) : State :=
  (matchStart a .dp { s.setPullup .weak with dpOp := op, dp := .awaitingMatch }).1

/-- A start of the Device Protocol, checked before anything is written (R123). -/
def dpStart (accept : State → State) (s : State) : Outcome :=
  .next (if s.dpStartBusy then s.failWith .busy .none else (accept s).ret .ok .none)

/-- `startConversion a` (R124). -/
def execStartConversion (a : Addr) (s : State) : Outcome :=
  hostOp s fun s => dpStart (acceptDp .convert a) s

/-- `startTemperatureRead a` (R125). -/
def execStartTemperatureRead (a : Addr) (s : State) : Outcome :=
  hostOp s fun s => dpStart (fun s => acceptDp .read a (freshScratchpad s)) s

end Sys2Proof.Machine
end

