-- ==== Sys2Proof/Machine/Search.lean ====
section
/-! DEFINITION. The ROM search (44_rom_search.md R106 to R115). A search is a blocking host operation:
each piece here runs from one await to the next, and `S.call` holds where the pass stands. -/

namespace Sys2Proof.Machine

/-- `S.clear` (R106). -/
def State.clearSearch (s : State) : State :=
  { s with lastDiscrepancy := 0, lastFamilyDiscrepancy := 0, lastDeviceFlag := false, rom := 0#64 }

/-- A search that found no address ends: the status goes to HOST. `searchDevices` returns its list
with it, and takes `NoMore` as the normal end (R115). -/
def searchEnds (c : SearchCaller) (st : Status) (s : State) : State :=
  match c with
  | .next => s.ret st .none
  | .first _ => s.ret st .none
  | .devices _ found => s.ret (if st = .noMore then .ok else st) (.addrs found)

/-- An error inside a pass: clear the search state, then end; `fail` has logged it (R109, R110). -/
def searchFails (c : SearchCaller) (k : ErrorKind) (s : State) : State :=
  searchEnds c k.status (s.clearSearch.logError k)

/-- `searchNext` up to its first await: `NoMore` (R111), or the reset of a pass (R109). A `Busy` of
that reset leaves the search state unchanged. -/
def searchNextStart (c : SearchCaller) (s : State) : State :=
  if s.lastDeviceFlag then searchEnds c .noMore s.clearSearch
  else
    let r := blockReset s
    if r.2 = .ok then { r.1 with call := .search c .reset } else searchEnds c r.2 r.1

/-- `searchFirst f` up to its first await (R112). -/
def searchFirstStart (f : Byte) (c : SearchCaller) (s : State) : State :=
  let s1 := s.clearSearch
  searchNextStart c
    (if f = 0#8 then s1 else { s1 with rom := f.setWidth 64, lastDiscrepancy := 64 })

/-- A pass found address `a`: what its caller does (R111, R112, R113, R115). -/
def searchFound (c : SearchCaller) (a : Addr) (s : State) : State :=
  match c with
  | .next => s.ret .ok (.addr a)
  | .first f =>
    if f ≠ 0#8 ∧ s.cfg.familyStrict = true ∧ familyOf a ≠ f then
      s.clearSearch.ret .familyAbsent .none
    else s.ret .ok (.addr a)
  | .devices n found =>
    let l := found ++ [a]
    if l.length = n.toNat then s.ret .ok (.addrs l) else searchNextStart (.devices n l) s

/-- `passEnd()` (R110). -/
def passEnd (c : SearchCaller) (s : State) : State :=
  if s.searchCrc ≠ 0#8 then searchFails c .crcMismatch s
  else
    searchFound c s.rom
      { s with
        lastDiscrepancy := s.lastZero
        lastDeviceFlag := if s.lastZero = 0 then true else s.lastDeviceFlag }

/-- Start a slot of the pass and wait for it. The engine is idle here (R109), so a `Busy` is a fault
(log 15). -/
def passSlot (c : SearchCaller) (pt : PassPoint) (b : Bool) (s : State) : Outcome :=
  let r := startSlot b s
  if r.2 = .ok then .next { r.1 with call := .search c pt } else .fault .searchStartRefused

/-- The direction at a discrepancy at index `k`, position `p = k + 1` (R108). -/
def discrepancyDir (k : Fin 64) (s : State) : Bool :=
  if k.val + 1 < s.lastDiscrepancy then romBit s.rom k.val
  else decide (k.val + 1 = s.lastDiscrepancy)

/-- What a 0 choice at a discrepancy records (R108). -/
def recordZero (k : Fin 64) (s : State) : State :=
  { s with
    lastZero := k.val + 1
    lastFamilyDiscrepancy := if k.val + 1 ≤ 8 then k.val + 1 else s.lastFamilyDiscrepancy }

/-- The bit pair at index `k` is read: abort, or write the direction (R107, R108, R109). -/
def passPair (c : SearchCaller) (k : Fin 64) (t comp : Bool) (s : State) : Outcome :=
  if t = true ∧ comp = true then .next (searchFails c .noDevice s)
  else if t ≠ comp then passSlot c (.writeDir k t) t s
  else
    let d := discrepancyDir k s
    passSlot c (.writeDir k d) d (if d then s else recordZero k s)

/-- `set_rom_bit(p, d)`, and the fold of a completed byte into the running CRC (R109). -/
def recordDir (k : Fin 64) (d : Bool) (s : State) : State :=
  let rom := setBit s.rom k.val d
  { s with
    rom := rom
    searchCrc :=
      if (k.val + 1) % 8 = 0 then crc8Step s.searchCrc (addrByte rom (k.val / 8)) else s.searchCrc }

/-- The direction bit at index `k` is written: the next position, or the end of the pass (R109). -/
def passDirDone (c : SearchCaller) (k : Fin 64) (d : Bool) (s : State) : Outcome :=
  let s1 := recordDir k d s
  if k.val + 1 < s.cfg.romBits.val then passSlot c (.readAddr (k + 1)) true s1
  else .next (passEnd c s1)

/-- The reset of the pass is done (R109). -/
def passResetDone (c : SearchCaller) (present : Bool) (s : State) : Outcome :=
  if present then
    let r := blockWrite s.cfg.cmdSearchRom s
    if r.2 = .ok then .next { r.1 with call := .search c .command } else .fault .searchStartRefused
  else .next (searchFails c .noDevice s)

/-- The search command is written: the first position (R109). -/
def passCommandDone (c : SearchCaller) (s : State) : Outcome :=
  passSlot c (.readAddr 0) true { s with lastZero := 0, searchCrc := 0#8 }

/-- `searchFirst f` (R112, R113). -/
def execSearchFirst (f : Byte) (s : State) : Outcome :=
  hostOp s fun s => .next (searchFirstStart f (.first f) s)

/-- `searchNext` (R111). -/
def execSearchNext (s : State) : Outcome := hostOp s fun s => .next (searchNextStart .next s)

/-- `familySkip` (R114). -/
def execFamilySkip (s : State) : Outcome :=
  hostOp s fun s =>
    .next
      ({ s with
          lastDiscrepancy := s.lastFamilyDiscrepancy
          lastFamilyDiscrepancy := 0
          lastDeviceFlag :=
            if s.lastFamilyDiscrepancy = 0 then true else s.lastDeviceFlag }.ret .ok .none)

/-- `searchDevices n` (R115). -/
def execSearchDevices (n : Byte) (s : State) : Outcome :=
  hostOp s fun s =>
    .next (if n = 0#8 then s.ret .ok (.addrs []) else searchFirstStart 0#8 (.devices n []) s)

end Sys2Proof.Machine
end

