-- ==== Sys2Proof/Machine/Events.lean ====
section
/-! DEFINITION. The two events: EV_ECHO, the receive interrupt with every continuation it reaches
(42_transfer_engine.md R91 to R95), and EV_SPIN_TIMEOUT (R97); and HOST going on at its await once
the awaited condition holds (20_memory.md R67, 60_exceptions.md R137). -/

namespace Sys2Proof.Machine

/-- The kind and value a completed host transfer latches (R95). -/
def transferKind : TransferResult → XferKind
  | .resetDone _ => .reset
  | .writeDone => .write
  | .readDone _ => .read

/-- The byte a completed transfer latches (R95). -/
def transferByte : TransferResult → Byte
  | .resetDone p => flagByte p
  | .writeDone => 0#8
  | .readDone v => v

/-- `deliver(HostAsync, r)`: latch the result and emit it on COMPLETE (R95). -/
def deliverHost (r : TransferResult) (s : State) : State :=
  { s with xferDone := true, xferKind := transferKind r, xferValue := transferByte r }.emit
    (.complete (transferKind r) (transferByte r))

/-- `deliver(Blocking, r)` (R95). -/
def deliverBlocking (r : TransferResult) (s : State) : State :=
  { s with blkDone := true, blkValue := transferByte r }

/-- `deliver(c, r)` (R95). -/
def deliver (c : Cont) (r : TransferResult) (s : State) : Outcome :=
  match c with
  | .hostAsync => .next (deliverHost r s)
  | .blocking => .next (deliverBlocking r s)
  | .romMatch => matchStep r s
  | .dp => dpStep (.transfer r) s
  | .none => .next s

/-- The end of a transfer: the engine is idle and the tag taken before the continuation runs (R92 to
R95). -/
def completeTransfer (r : TransferResult) (s : State) : Outcome :=
  deliver s.engCont r { s with eng := .idle, engCont := .none }

/-- Completion of a reset slot (R92). -/
def echoReset (e : Byte) (s : State) : Outcome :=
  let p := presenceOf s.cfg e
  completeTransfer (.resetDone p) ({ s with presence := p }.setBaud .normal)

/-- Completion of write slot `i` (R93): the echo is not interpreted. -/
def echoWrite (i : Fin 8) (s : State) : Outcome :=
  if i.val < 7 then
    .next { s.tx .engine (writeSlot s.cfg s.engData (i.val + 1)) .normal with
      eng := .writePending (i + 1) }
  else completeTransfer .writeDone s

/-- Completion of read slot `i` (R94). -/
def echoRead (i : Fin 8) (e : Byte) (s : State) : Outcome :=
  let s1 := { s with engData := setBit s.engData i.val (decodeBit s.cfg e) }
  if i.val < 7 then .next { s1.tx .engine s.cfg.slotOne .normal with eng := .readPending (i + 1) }
  else completeTransfer (.readDone s1.engData) s1

/-- The receive handler for a slot of the engine (R91). -/
def echoEngine (e : Byte) (s : State) : Outcome :=
  match s.eng with
  | .resetPending => echoReset e s
  | .writePending i => echoWrite i s
  | .readPending i => echoRead i e s
  | .idle => .fault .engineEchoWhileIdle

/-- `EV_ECHO e` (R91): enabled only with a slot in flight, and not before `init` (R142). -/
def execEvEcho (e : Byte) (s : State) : Outcome :=
  match s.initDone, s.slotOut with
  | true, some (.sync, _) => .next { s with rx := e, slotOut := none, syncEcho := some e }
  | true, some (.engine, _) => echoEngine e { s with rx := e, slotOut := none }
  | _, _ => .refused .echoNotEnabled

/-- The `on timeout` branch of the await of the waiting operation: log `BusTimeout` and return it
(R86, R97 to R100; R109 for a search pass). `resetBlocking` returns presence = false (R98). -/
def awaitTimesOut (s : State) : Outcome :=
  let s1 := { s with hostWait := .none }
  match s.call with
  | .direct =>
    .next (s1.failWith .busTimeout (if s.hostWait = .reset then .presence false else .none))
  | .search c _ => .next (searchFails c .busTimeout s1)
  | .none => .fault .hostCallMismatch

/-- `EV_SPIN_TIMEOUT` (R97): enabled at an await whose condition does not yet hold. -/
def execEvSpinTimeout (s : State) : Outcome :=
  match s.initDone, s.awaiting with
  | true, true => awaitTimesOut s
  | _, _ => .refused .timeoutNotEnabled

/-- `sendSlot`'s await is over with bit `b` (R86, R109). -/
def slotDone (b : Bool) (s : State) : Outcome :=
  match s.call with
  | .direct => .next (s.ret .ok (.bit b))
  | .search c (.readAddr k) => passSlot c (.readCompl k b) true s
  | .search c (.readCompl k t) => passPair c k t b s
  | .search c (.writeDir k d) => passDirDone c k d s
  | _ => .fault .hostCallMismatch

/-- `resetBlocking`'s await is over (R98, R109). -/
def resetDone (p : Bool) (s : State) : Outcome :=
  match s.call with
  | .direct => .next (s.ret .ok (.presence p))
  | .search c .reset => passResetDone c p s
  | _ => .fault .hostCallMismatch

/-- `writeByteBlocking`'s await is over (R99, R109). -/
def writeDone (s : State) : Outcome :=
  match s.call with
  | .direct => .next (s.ret .ok .none)
  | .search c .command => passCommandDone c s
  | _ => .fault .hostCallMismatch

/-- `readByteBlocking`'s await is over (R100). -/
def readDone (v : Byte) (s : State) : Outcome :=
  match s.call with
  | .direct => .next (s.ret .ok (.byte v))
  | _ => .fault .hostCallMismatch

/-- HOST at its await: where the awaited condition holds, it goes on to its next await or its return
(R28, R67, R137; log 5). -/
def hostResume (s : State) : Outcome :=
  match s.hostWait with
  | .none => .next s
  | .slot =>
    match s.syncEcho with
    | none => .next s
    | some e => slotDone (decodeBit s.cfg e) { s with syncEcho := none, hostWait := .none }
  | .reset =>
    if s.blkDone then resetDone (s.blkValue.getLsbD 0) { s with hostWait := .none } else .next s
  | .write => if s.blkDone then writeDone { s with hostWait := .none } else .next s
  | .read => if s.blkDone then readDone s.blkValue { s with hostWait := .none } else .next s

/-- What follows an event in the same step: HOST goes on at its await. -/
def afterEvent (o : Outcome) : Outcome :=
  match o with
  | .next s => hostResume s
  | .fault f => .fault f
  | .refused r => .refused r

end Sys2Proof.Machine
end

