-- ==== Sys2Proof/Machine/Lifecycle.lean ====
section
/-! DEFINITION. `init`, the block's one reset (70_reset_and_hazards.md R141). -/

namespace Sys2Proof.Machine

/-- The state `init` leaves, before its return (R141): every field at the value its rule of
10_state.md gives after `init`, a free value where that is "unspecified" (log 9), with BAUD(Normal)
and LINE(Weak) emitted whatever the fields held. -/
def initState (s : State) : State where
  initDone := true
  eng := .idle
  engData := Config.freeByte s.draws
  engCont := .none
  slotOut := none
  baud := .normal
  rx := s.cfg.idleMarker
  presence := false
  xferDone := false
  xferKind := Config.freeKind s.draws
  xferValue := Config.freeByte (s.draws + 1)
  blkDone := false
  blkValue := Config.freeByte (s.draws + 2)
  syncEcho := none
  hostWait := .none
  lastDiscrepancy := 0
  lastFamilyDiscrepancy := 0
  lastDeviceFlag := false
  rom := 0#64
  lastZero := 0
  searchCrc := 0#8
  m := .idle
  mAddr := Config.freeAddr s.draws
  mClient := Config.freeClient s.draws
  mResult := .none
  dp := .idle
  dpOp := Config.freeOp s.draws
  sp := Config.freeScratchpad s.draws
  dpCrc := 0#8
  lkg := s.cfg.lkgInit
  lkgValid := false
  lastValid := false
  pullup := .weak
  call := .none
  inbox := s.inbox
  out := s.out ++ [.baud .normal, .line .weak]
  draws := s.draws + 3
  cfg := s.cfg

/-- `init` (R141): accepted in every state in which HOST can issue an operation, so not while HOST is
blocked. Before the first `init` HOST is never blocked (R142). -/
def execInit (s : State) : Outcome :=
  if s.initDone = true ∧ s.hostWait ≠ .none then .refused .hostBlocked
  else .next ((initState s).ret .ok .none)

end Sys2Proof.Machine
end

