-- ==== Sys2Proof/Machine/Dispatch.lean ====
section
/-! DEFINITION. The dispatch: one arm per constructor of Instr. -/

namespace Sys2Proof.Machine

def exec (i : Instr) (s : State) : Host.Outcome State Fault Refusal :=
  match i with
  | .init => Sys2Proof.Machine.execInit s
  | .sendSlot imm => Sys2Proof.Machine.execSendSlot imm s
  | .startReset => Sys2Proof.Machine.execStartReset s
  | .startWriteByte v => Sys2Proof.Machine.execStartWriteByte v s
  | .startReadByte => Sys2Proof.Machine.execStartReadByte s
  | .getTransferResult => Sys2Proof.Machine.execGetTransferResult s
  | .resetBlocking => Sys2Proof.Machine.execResetBlocking s
  | .writeByteBlocking v => Sys2Proof.Machine.execWriteByteBlocking v s
  | .readByteBlocking => Sys2Proof.Machine.execReadByteBlocking s
  | .searchFirst f => Sys2Proof.Machine.execSearchFirst f s
  | .searchNext => Sys2Proof.Machine.execSearchNext s
  | .familySkip => Sys2Proof.Machine.execFamilySkip s
  | .searchDevices n => Sys2Proof.Machine.execSearchDevices n s
  | .matchAddress a => Sys2Proof.Machine.execMatchAddress a s
  | .getMatchResult => Sys2Proof.Machine.execGetMatchResult s
  | .startConversion a => Sys2Proof.Machine.execStartConversion a s
  | .startTemperatureRead a => Sys2Proof.Machine.execStartTemperatureRead a s
  | .getTemperatureResult a => Sys2Proof.Machine.execGetTemperatureResult a s
  | .evEcho e => Sys2Proof.Machine.execEvEcho e s
  | .evSpinTimeout => Sys2Proof.Machine.execEvSpinTimeout s

end Sys2Proof.Machine
end

