-- ==== Sys2Proof/Machine/Fetch.lean ====
section
/-! DEFINITION. What an input asks for: the CMD port's command word (30_encoding.md R75, R78) and the
event words (R76). The block fetches no instruction (10_state.md R47): its next input is what the
environment offers. -/

namespace Sys2Proof.Machine

/-- What the next input is. -/
inductive Fetched where
  /-- a legal host operation -/
  | operation (i : Instr)
  /-- an illegal command word (R78) -/
  | illegal
  /-- an event -/
  | event (i : Instr)
  /-- an event input whose word is no event code -/
  | notAnEvent
  deriving DecidableEq, Repr

/-- The event an event word names (R76). -/
def decodeEvent (w : Word) : Fetched :=
  match decode ⟨w, 0#64⟩ with
  | .ok i => if i.isEvent then .event i else .notAnEvent
  | .error _ => .notAnEvent

/-- The decoding of the next input. -/
def fetch (x : Input) : Fetched :=
  match x with
  | .command c =>
    match decodeCommand c with
    | .ok i => .operation i
    | .error _ => .illegal
  | .event w => decodeEvent w

/-- The input a command word stands for in a recorded trace: an event where its OPC is an event
code, else a command of HOST (R76). -/
def inputOf (c : Command) : Input :=
  if isEventWord c.word then .event c.word else .command c

/-- An illegal command word: status `Illegal`, nothing changed, not logged (R78); HOST issues none
while it is blocked (R7). -/
def illegalCommand (s : State) : Outcome := hostOp s fun s => .next s.illegal

end Sys2Proof.Machine
end

