-- ==== Sys2Proof/Machine/Step.lean ====
section
/-! DEFINITION. One step of the machine: one input (00_scope.md R6). With no input to come the block
does nothing (70_reset_and_hazards.md R147; log 2). -/

namespace Sys2Proof.Machine

/-- One step: the next input is taken from the inbox and run; after an event HOST goes on at its
await. -/
def step (s : State) : Host.Outcome State Fault Refusal :=
  match s.inbox with
  | [] => .next s
  | x :: rest =>
    match fetch x with
    | .operation i => exec i { s with inbox := rest }
    | .illegal => illegalCommand { s with inbox := rest }
    | .event i => afterEvent (exec i { s with inbox := rest })
    | .notAnEvent => .refused .notAnEvent

/-- `s` with the instruction whose bits are `w` as its next input (log 3). -/
def State.withFetchWord (s : State) (nbits w : Nat) : State :=
  { s with inbox := inputOf (commandOfBits nbits w) :: s.inbox }

end Sys2Proof.Machine
end

