-- ==== Sys2Proof/Safety.lean ====
section
/-! DEFINITION. What the claims are stated in: the invariant that ties the engine, the slot in flight,
the sequencers and a blocked HOST together, what a sound search is, and the two named laws of the
bus that a claim may assume (20_memory.md R64). -/

namespace Sys2Proof.Machine

/-- `EchoOpenDrain` (R64): a device can only pull bits of the slot byte low. -/
def EchoOpenDrain (b e : Byte) : Prop := e &&& ~~~b = 0#8

/-- `EchoIdle` (R64): if no device drives the slot, the echo equals the slot byte. Whether one drives
it is not state of the block. -/
def EchoIdle (driven : Prop) (b e : Byte) : Prop := ¬driven → e = b

/-- HOST may issue an operation: `init` has run and no blocking operation is under way (R7, R142). -/
abbrev State.ready (s : State) : Prop := s.initDone = true ∧ s.hostWait = .none

/-- HOST may issue an operation, and has none under way (R7, R14). -/
abbrev State.free (s : State) : Prop := s.ready ∧ s.call = .none

/-- HOST is not blocked, or waits for what has not come yet (R97). -/
abbrev State.undisturbed (s : State) : Prop := s.hostWait = .none ∨ s.awaiting = true

/-- The input by which BUS delivers echo `e` (R76, R91). -/
def echoInput (e : Byte) : Input := .event (wordOf e 0x80#8)

/-- What TX carries for a byte write: the slots of bits 0 to 7, in that order (R54, R74). -/
def byteSlots (cfg : Config) (v : Byte) : List OutEvent :=
  (List.range 8).map fun i => .tx (writeSlot cfg v i) .normal

/-- Whether an output event is a slot handed to the UART. -/
def OutEvent.isTx : OutEvent → Bool
  | .tx _ _ => true
  | _ => false

/-- The OPCs HOST may issue (R76). -/
def hostOpcodes : List Byte :=
  [0x01, 0x02, 0x10, 0x11, 0x12, 0x13, 0x14, 0x15, 0x16, 0x20, 0x21, 0x22, 0x23, 0x30, 0x31, 0x40,
   0x41, 0x42]

/-- The OPCs of HOST whose operands column says "none" or "ADDR" (R76, R78). -/
def plainOpcodes : List Byte :=
  [0x01, 0x10, 0x12, 0x13, 0x14, 0x16, 0x21, 0x22, 0x30, 0x31, 0x40, 0x41, 0x42]

/-- The slot in flight is the one the engine's state sent (R21, R88 to R90, R93, R94); an idle engine
has none of its own. -/
def State.slotFits (s : State) : Prop :=
  match s.eng with
  | .idle => ∀ b, s.slotOut ≠ some (.engine, b)
  | .resetPending => s.slotOut = some (.engine, s.cfg.resetPattern)
  | .writePending i => s.slotOut = some (.engine, writeSlot s.cfg s.engData i.val)
  | .readPending _ => s.slotOut = some (.engine, s.cfg.slotOne)

/-- The engine is writing byte `v` for continuation `c`. -/
def State.writing (s : State) (c : Cont) (v : Byte) : Prop :=
  s.engCont = c ∧ s.engData = v ∧ ∃ i, s.eng = .writePending i

/-- The match sequencer waits for the transfer its state names (R35, R117 to R120). -/
def State.matchFits (s : State) : Prop :=
  match s.m with
  | .idle => s.engCont ≠ .romMatch
  | .reset => s.engCont = .romMatch ∧ s.eng = .resetPending
  | .skipCmd => s.writing .romMatch s.cfg.cmdSkipRom
  | .matchCmd => s.writing .romMatch s.cfg.cmdMatchRom
  | .addr k => s.writing .romMatch (addrByte s.mAddr k.val)

/-- The command byte of a Device Protocol operation (R126). -/
def dpCommand (cfg : Config) : DpOp → Byte
  | .convert => cfg.cmdConvertT
  | .read => cfg.cmdReadScratchpad

/-- The Device Protocol waits for the match or the transfer its state names, under the weak pull-up
(R39, R123 to R129). -/
def State.dpFits (s : State) : Prop :=
  match s.dp with
  | .idle => s.engCont ≠ .dp ∧ (s.m ≠ .idle → s.mClient = .host)
  | .done => s.engCont ≠ .dp ∧ (s.m ≠ .idle → s.mClient = .host)
  | .awaitingMatch => s.m ≠ .idle ∧ s.mClient = .dp ∧ s.pullup = .weak
  | .awaitingCommand => s.writing .dp (dpCommand s.cfg s.dpOp) ∧ s.pullup = .weak
  | .awaitingReadByte _ =>
    s.engCont = .dp ∧ s.dpOp = .read ∧ (∃ i, s.eng = .readPending i) ∧ s.pullup = .weak

/-- A blocked HOST waits for the slot or transfer in flight, and the operation it runs is one that
waits for it; a HOST that is not blocked runs none (R28, R97, R109). -/
def State.hostFits (s : State) : Prop :=
  match s.hostWait with
  | .none => s.call = .none
  | .slot =>
    s.syncEcho = none ∧ s.eng = .idle ∧ (∃ b, s.slotOut = some (.sync, slotByte s.cfg b)) ∧
      (s.call = .direct ∨ ∃ c k, s.call = .search c (.readAddr k) ∨
        (∃ t, s.call = .search c (.readCompl k t)) ∨ ∃ d, s.call = .search c (.writeDir k d))
  | .reset =>
    s.blkDone = false ∧ s.engCont = .blocking ∧ s.eng = .resetPending ∧
      (s.call = .direct ∨ ∃ c, s.call = .search c .reset)
  | .write =>
    s.blkDone = false ∧ s.engCont = .blocking ∧ (∃ i, s.eng = .writePending i) ∧
      (s.call = .direct ∨ ∃ c, s.call = .search c .command)
  | .read =>
    s.blkDone = false ∧ s.engCont = .blocking ∧ (∃ i, s.eng = .readPending i) ∧ s.call = .direct

/-- The states a run can be in: what the spec's "unreachable" and "cannot be Busy" remarks rest on. -/
structure State.Coherent (s : State) : Prop where
  /-- Before the first `init` nothing is under way (R142). -/
  beforeInit : s.initDone = false →
    s.slotOut = none ∧ s.hostWait = .none ∧ s.eng = .idle ∧ s.m = .idle ∧ ¬s.dpBusy
  slot : s.slotFits
  /-- The tag is `None` exactly when the engine is idle (R20). -/
  cont : s.engCont = .none ↔ s.eng = .idle
  /-- The line is at the reset rate exactly while a reset slot is in flight (R86, R88, R92). -/
  baud : s.baud = .reset ↔ s.eng = .resetPending
  /-- The bits not yet sampled are zero (R19). -/
  accumulator : ∀ i, s.eng = .readPending i → ∀ j, i.val ≤ j → s.engData.getLsbD j = false
  matching : s.matchFits
  /-- A match's result is pending exactly while it runs (R38). -/
  result : s.mResult = .pending ↔ s.m ≠ .idle
  device : s.dpFits
  host : s.hostFits
  /-- The legal values of the search positions (R29, R30, R33). -/
  positions : s.lastDiscrepancy ≤ 64 ∧ s.lastFamilyDiscrepancy ≤ 8 ∧ s.lastZero ≤ 64
  /-- The one constraint that R72 and D6 put on two parameters. -/
  config : s.cfg.resetPattern ≠ s.cfg.idleMarker

/-- The address invariant of R52: the CRC8 over the eight bytes is zero, which says that byte 7 is
the CRC8 of bytes 0 to 6 (R103). -/
def addrValid (a : Addr) : Prop := crc8 (addrBytes a) = 0#8

/-- The addresses a RESULT event carries. -/
def OutEvent.addresses : OutEvent → List Addr
  | .result _ (.addr a) => [a]
  | .result _ (.addrs l) => l
  | _ => []

/-- The addresses a running `searchDevices` has found. -/
def HostCall.addresses : HostCall → List Addr
  | .search (.devices _ found) _ => found
  | _ => []

/-- How many positions of the pass have their bit in `S.rom`, once the pass reads bits (R109). -/
def HostCall.resolved : HostCall → Option Nat
  | .search _ (.readAddr k) => some k.val
  | .search _ (.readCompl k _) => some k.val
  | .search _ (.writeDir k _) => some k.val
  | _ => Option.none

/-- A sound search: every address returned or held in a running list satisfies the CRC invariant, and
the running CRC of a pass is the CRC8 of the address bytes completed so far (R52, R109, R110). -/
structure State.SearchSound (s : State) : Prop where
  returned : ∀ e ∈ s.out, ∀ a ∈ e.addresses, addrValid a
  listed : ∀ a ∈ s.call.addresses, addrValid a
  running : ∀ n, s.call.resolved = some n → s.searchCrc = crc8 ((addrBytes s.rom).take (n / 8))

/-- The range of a temperature the decode can give, in tenths of a degree (R130). -/
abbrev tenthsInRange (t : Tenths) : Prop := -1270 ≤ t.toInt ∧ t.toInt ≤ 1279

end Sys2Proof.Machine
end

