-- ==== Sys2Proof/Certificates/Slice0/Obligations.lean ====
section
/-! DEFINITION. The statements about the model. Each docstring names the rules of spec/ it is about.
An exact next state says the frame too: every field the record update does not name is unchanged. -/

open Sys2Proof Sys2Proof.Machine

/-! ### Encoding and fetching -/

/-- R75 to R79: decoding the command of a well-formed instruction gives the instruction back. -/
def Obligations.DecodeOfEncodeIsIdentity : Prop :=
  ∀ i : Instr, i.wellFormed = true → decode (encode i) = .ok i

/-- R75 to R79: the decoder accepts only the words of the table: the instruction it answers is
well-formed, encodes to that very word, and takes the ADDR beside it. -/
def Obligations.DecodeAcceptsOnlyTheTablesWords : Prop :=
  ∀ (c : Command) (i : Instr), decode c = .ok i →
    i.wellFormed = true ∧ (encode i).word = c.word ∧ ∀ a, address? i = some a → a = c.addr

/-- 95_test_vectors.md section 3.7 and the programs of section 4: a few words written there. -/
def Obligations.SpecWordsDecodeAsListed : Prop :=
  decode ⟨0x0001#16, 0#64⟩ = .ok .init ∧
  decode ⟨0x0102#16, 0#64⟩ = .ok (.sendSlot 1#8) ∧
  decode ⟨0x5511#16, 0#64⟩ = .ok (.startWriteByte 0x55#8) ∧
  decode ⟨0x2820#16, 0#64⟩ = .ok (.searchFirst 0x28#8) ∧
  decode ⟨0x0823#16, 0#64⟩ = .ok (.searchDevices 8#8) ∧
  decode ⟨0x0030#16, 0x9E06050403020128#64⟩ = .ok (.matchAddress 0x9E06050403020128#64) ∧
  decode ⟨0x0041#16, 0#64⟩ = .ok (.startTemperatureRead 0#64) ∧
  decode ⟨0xE080#16, 0#64⟩ = .ok (.evEcho 0xE0#8)

/-- R78: which command words of HOST are illegal, and what one does: status `Illegal`, nothing
changed, nothing logged. HOST issues none while it is blocked (R7). -/
def Obligations.IllegalWordsReturnIllegalWithoutEffect : Prop :=
  ∀ c : Command,
    ((∃ r, decodeCommand c = .error r) ↔
      (opcOf c.word ∉ hostOpcodes ∨ (opcOf c.word ∈ plainOpcodes ∧ imm8Of c.word ≠ 0#8) ∨
        (opcOf c.word = 0x02#8 ∧ (imm8Of c.word).extractLsb' 1 7 ≠ 0#7))) ∧
    ∀ (s : State) (rest : List Input) (r : DecodeError),
      s.inbox = .command c :: rest → decodeCommand c = .error r →
      (s.initDone = false ∨ s.hostWait = .none) →
      step s = .next { s with inbox := rest, out := s.out ++ [.result .illegal .none] }

/-- R6: one step takes the next input and runs it: a legal host operation is `exec` of it; an event
is `exec` of it, and then HOST goes on at its await (`hostResume`; log 5). -/
def Obligations.StepRunsTheFetchedInstruction : Prop :=
  (∀ (s : State) (c : Command) (i : Instr) (rest : List Input),
    s.inbox = .command c :: rest → decodeCommand c = .ok i →
    step s = exec i { s with inbox := rest }) ∧
  (∀ (s : State) (w : Word) (i : Instr) (rest : List Input),
    s.inbox = .event w :: rest → decode ⟨w, 0#64⟩ = .ok i → i.isEvent = true →
    step s = match exec i { s with inbox := rest } with
      | .next t => hostResume t
      | .fault f => .fault f
      | .refused r => .refused r)

/-! ### init, and what holds before it -/

/-- R141: `init` is accepted unless HOST is blocked, puts every field to the value its rule gives
after `init`, and emits BAUD(Normal) and LINE(Weak) whatever the fields held. Nothing is said of the
fields the spec calls unspecified. -/
def Obligations.InitResetsEveryField : Prop :=
  ∀ s : State, (s.initDone = false ∨ s.hostWait = .none) →
    ∃ t, exec .init s = .next t ∧
      t.initDone = true ∧ t.eng = .idle ∧ t.engCont = .none ∧ t.slotOut = none ∧
      t.baud = .normal ∧ t.rx = s.cfg.idleMarker ∧ t.presence = false ∧ t.xferDone = false ∧
      t.blkDone = false ∧ t.syncEcho = none ∧ t.hostWait = .none ∧
      t.lastDiscrepancy = 0 ∧ t.lastFamilyDiscrepancy = 0 ∧ t.lastDeviceFlag = false ∧
      t.rom = 0#64 ∧ t.lastZero = 0 ∧ t.searchCrc = 0#8 ∧
      t.m = .idle ∧ t.mResult = .none ∧ t.dp = .idle ∧ t.dpCrc = 0#8 ∧
      t.lkg = s.cfg.lkgInit ∧ t.lkgValid = false ∧ t.lastValid = false ∧ t.pullup = .weak ∧
      t.call = .none ∧ t.inbox = s.inbox ∧ t.cfg = s.cfg ∧
      t.out = s.out ++ [.baud .normal, .line .weak, .result .ok .none]

/-- R142: before the first `init` every other host operation returns `Illegal`, unlogged and without
effect, and no event is enabled. -/
def Obligations.BeforeInitOnlyInitHasAnEffect : Prop :=
  ∀ (s : State) (i : Instr), s.initDone = false → i ≠ .init →
    exec i s =
      match i with
      | .evEcho _ => .refused .echoNotEnabled
      | .evSpinTimeout => .refused .timeoutNotEnabled
      | _ => .next { s with out := s.out ++ [.result .illegal .none] }

/-- R7, R14: while HOST is blocked it issues no operation: each of the eighteen is refused by name. -/
def Obligations.BlockedHostIssuesNothing : Prop :=
  ∀ (s : State) (i : Instr), s.initDone = true → s.hostWait ≠ .none → i.isEvent = false →
    exec i s = .refused .hostBlocked

/-- R17: `S.initDone` is false at power-up, `init` sets it, and no step clears it. -/
def Obligations.InitDoneIsNeverCleared : Prop :=
  State.reset.initDone = false ∧
  (∀ s t : State, exec .init s = .next t → t.initDone = true) ∧
  ∀ s t : State, step s = .next t → s.initDone = true → t.initDone = true

/-! ### The transfer engine and the slot transport -/

/-- R87: with a transfer or a slot in flight, every start of a bus transfer returns `Busy`, logs it
and changes no state, whatever its continuation; so do `sendSlot`, the wrappers and `matchAddress`. -/
def Obligations.BusyStartsChangeNothing : Prop :=
  (∀ (s : State) (c : Cont) (v : Byte), s.engBusy →
    let r : State × Status := ({ s with out := s.out ++ [.log (.error .busy)] }, .busy)
    startReset c s = r ∧ startWriteByte v c s = r ∧ startReadByte c s = r) ∧
  ∀ (s : State) (i : Instr), s.free → s.engBusy →
    ((∃ v, i = .startReset ∨ i = .startWriteByte v ∨ i = .startReadByte ∨ i = .resetBlocking ∨
        i = .writeByteBlocking v ∨ i = .readByteBlocking ∨ (i = .sendSlot v ∧ v.toNat < 2)) ∨
      ∃ a, i = .matchAddress a) →
    exec i s = .next { s with out := s.out ++ [.log (.error .busy), .result .busy .none] }

/-- R88: an accepted `startReset` of HOST switches the rate, clears the received data and sends the
reset slot, in that order. -/
def Obligations.StartResetSendsTheResetSlot : Prop :=
  ∀ s : State, s.free → ¬s.engBusy →
    exec .startReset s = .next { s with
      baud := .reset, rx := s.cfg.idleMarker, engCont := .hostAsync, xferDone := false,
      slotOut := some (.engine, s.cfg.resetPattern), eng := .resetPending,
      out := s.out ++ (if s.baud = .reset then [] else [.baud .reset]) ++
        [.tx s.cfg.resetPattern .reset, .result .ok .none] }

/-- R89: an accepted `startWriteByte v` of HOST sends the slot of bit 0. -/
def Obligations.StartWriteByteSendsBitZero : Prop :=
  ∀ (s : State) (v : Byte), s.free → ¬s.engBusy →
    exec (.startWriteByte v) s =
      let b : Byte := if v.getLsbD 0 then s.cfg.slotOne else s.cfg.slotZero
      .next { s with
        engData := v, engCont := .hostAsync, xferDone := false, slotOut := some (.engine, b),
        eng := .writePending 0, out := s.out ++ [.tx b .normal, .result .ok .none] }

/-- R90: an accepted `startReadByte` of HOST clears the accumulator and sends a read slot. -/
def Obligations.StartReadByteSendsAReadSlot : Prop :=
  ∀ s : State, s.free → ¬s.engBusy →
    exec .startReadByte s = .next { s with
      engData := 0#8, engCont := .hostAsync, xferDone := false,
      slotOut := some (.engine, s.cfg.slotOne), eng := .readPending 0,
      out := s.out ++ [.tx s.cfg.slotOne .normal, .result .ok .none] }

/-- R98, R99, R100: an accepted wrapper starts its transfer with continuation `Blocking`, clears
`S.blkDone`, and leaves HOST blocked; `S.xferDone` is not touched. -/
def Obligations.WrappersStartAndBlockHost : Prop :=
  ∀ (s : State) (v : Byte), s.free → ¬s.engBusy →
    exec .resetBlocking s = .next { s with
      baud := .reset, rx := s.cfg.idleMarker, engCont := .blocking,
      slotOut := some (.engine, s.cfg.resetPattern), eng := .resetPending,
      blkDone := false, hostWait := .reset, call := .direct,
      out := s.out ++ (if s.baud = .reset then [] else [.baud .reset]) ++
        [.tx s.cfg.resetPattern .reset] } ∧
    (let b : Byte := if v.getLsbD 0 then s.cfg.slotOne else s.cfg.slotZero;
      exec (.writeByteBlocking v) s = .next { s with
        engData := v, engCont := .blocking, slotOut := some (.engine, b), eng := .writePending 0,
        blkDone := false, hostWait := .write, call := .direct, out := s.out ++ [.tx b .normal] }) ∧
    exec .readByteBlocking s = .next { s with
      engData := 0#8, engCont := .blocking, slotOut := some (.engine, s.cfg.slotOne),
      eng := .readPending 0, blkDone := false, hostWait := .read, call := .direct,
      out := s.out ++ [.tx s.cfg.slotOne .normal] }

/-- R86: an accepted `sendSlot b` sends the one slot of its bit and leaves HOST blocked; an immediate
with IMM8[7:1] nonzero is illegal (R78). -/
def Obligations.SendSlotSendsOneDataSlot : Prop :=
  ∀ (s : State) (imm : Byte), s.free → ¬s.engBusy →
    exec (.sendSlot imm) s =
      if imm.toNat < 2 then
        let b : Byte := if imm = 1#8 then s.cfg.slotOne else s.cfg.slotZero
        .next { s with
          syncEcho := none, slotOut := some (.sync, b), hostWait := .slot, call := .direct,
          out := s.out ++ [.tx b .normal] }
      else .next { s with out := s.out ++ [.result .illegal .none] }

/-- R96, R122, R133: the three result registers are reported and nothing changes: the latch of the
last host transfer or `Pending`; the outcome of the last match; the last-known-good temperature with
the validity flag, `Pending` while a read runs, whatever the address. -/
def Obligations.ResultReadsReportAndChangeNothing : Prop :=
  ∀ (s : State) (a : Addr), s.free →
    exec .getTransferResult s = .next { s with
      out := s.out ++ [if s.xferDone then .result .ok (.transfer s.xferKind s.xferValue)
        else .result .pending .none] } ∧
    exec .getMatchResult s = .next { s with
      out := s.out ++ [.result (if s.mResult = .ok then .ok else if s.mResult = .failed then .noDevice
        else .pending) .none] } ∧
    exec (.getTemperatureResult a) s = .next { s with
      out := s.out ++ [.result
        (if s.dpOp = .read ∧ s.dp ≠ .idle ∧ s.dp ≠ .done then .pending else .ok)
        (.temperature s.lkg s.lastValid)] }

/-- R83, R85: the bit of an echo under each setting of `ECHO_DECODE`, where the two settings agree
and where they differ, and the presence of a reset echo. -/
def Obligations.EchoBytesDecodeToBitsAndPresence : Prop :=
  ∀ (g : Config) (e : Byte),
    let exact : Config := { g with echoDecode := .exactOnes }
    let low : Config := { g with echoDecode := .bit0 }
    (decodeBit exact e = true ↔ e = 0xFF#8) ∧ decodeBit low e = e.getLsbD 0 ∧
    (e = 0xFF#8 → decodeBit exact e = true ∧ decodeBit low e = true) ∧
    (e.getLsbD 0 = false → decodeBit exact e = false ∧ decodeBit low e = false) ∧
    (decodeBit exact e ≠ decodeBit low e ↔ e ≠ 0xFF#8 ∧ e.getLsbD 0 = true) ∧
    (decodeBit exact e ≠ decodeBit low e → ∃ j, 0 < j ∧ j < 8 ∧ e.getLsbD j = false) ∧
    (presenceOf g e = true ↔ e ≠ g.resetPattern ∧ e ≠ g.idleMarker)

/-- R64, R83, R85, R86: what the two named laws of the bus give. An undriven data slot reads back the
bit that was sent, an undriven reset slot reads as no presence, and under `EchoOpenDrain` a write-0
slot reads 0 and an echo that reads 1 under `ExactOnes` answers a slot of ones. The two data slots are
those of R72. -/
def Obligations.BusLawsFixTheEcho : Prop :=
  ∀ (g : Config) (b e : Byte),
    (g.slotOne = 0xFF#8 → g.slotZero = 0x00#8 →
      (∀ v, EchoIdle False (slotByte g v) e → decodeBit g e = v) ∧
      (EchoOpenDrain g.slotZero e → decodeBit g e = false)) ∧
    (EchoIdle False g.resetPattern e → presenceOf g e = false) ∧
    (EchoOpenDrain b e → g.echoDecode = .exactOnes → decodeBit g e = true → b = 0xFF#8)

/-- R91, R137: EV_ECHO is enabled exactly while a slot is in flight (once `init` has run): with none
it is refused by name, and the echo of a `Sync` slot is latched for `sendSlot`. -/
def Obligations.EchoIsLatchedForASyncSlot : Prop :=
  ∀ (s : State) (e : Byte), s.initDone = true →
    (s.slotOut = none → exec (.evEcho e) s = .refused .echoNotEnabled) ∧
    ∀ b, s.slotOut = some (.sync, b) →
      exec (.evEcho e) s = .next { s with rx := e, slotOut := none, syncEcho := some e }

/-- R93, R94: an echo before the last slot of a byte sends the next slot; a read also records the
decoded bit at its position and leaves every other bit of the accumulator. -/
def Obligations.EchoMidByteSendsTheNextSlot : Prop :=
  ∀ (s : State) (e b : Byte) (i : Fin 8), s.initDone = true → s.slotOut = some (.engine, b) →
    i.val < 7 →
    (s.eng = .writePending i →
      let n : Byte := if s.engData.getLsbD (i.val + 1) then s.cfg.slotOne else s.cfg.slotZero
      exec (.evEcho e) s = .next { s with
        rx := e, slotOut := some (.engine, n), eng := .writePending (i + 1),
        out := s.out ++ [.tx n .normal] }) ∧
    (s.eng = .readPending i →
      ∃ v : Byte,
        (∀ j, v.getLsbD j = if j = i.val then decodeBit s.cfg e else s.engData.getLsbD j) ∧
        exec (.evEcho e) s = .next { s with
          rx := e, engData := v, slotOut := some (.engine, s.cfg.slotOne), eng := .readPending (i + 1),
          out := s.out ++ [.tx s.cfg.slotOne .normal] })

/-- R92 to R95: the echo of the last slot of a transfer HOST started leaves the engine idle, latches
kind and value, and emits COMPLETE; a reset also captures presence and restores the normal rate. -/
def Obligations.EchoCompletesAHostTransfer : Prop :=
  ∀ (s : State) (e b : Byte), s.initDone = true → s.slotOut = some (.engine, b) →
    s.engCont = .hostAsync →
    (s.eng = .resetPending →
      let p : Bool := decide (e ≠ s.cfg.resetPattern ∧ e ≠ s.cfg.idleMarker)
      let v : Byte := if p then 1#8 else 0#8
      exec (.evEcho e) s = .next { s with
        rx := e, slotOut := none, presence := p, baud := .normal, eng := .idle, engCont := .none,
        xferDone := true, xferKind := .reset, xferValue := v,
        out := s.out ++ (if s.baud = .normal then [] else [.baud .normal]) ++
          [.complete .reset v] }) ∧
    (s.eng = .writePending 7 →
      exec (.evEcho e) s = .next { s with
        rx := e, slotOut := none, eng := .idle, engCont := .none,
        xferDone := true, xferKind := .write, xferValue := 0#8,
        out := s.out ++ [.complete .write 0#8] }) ∧
    (s.eng = .readPending 7 →
      ∃ v : Byte,
        (∀ j, v.getLsbD j = if j = 7 then decodeBit s.cfg e else s.engData.getLsbD j) ∧
        exec (.evEcho e) s = .next { s with
          rx := e, slotOut := none, engData := v, eng := .idle, engCont := .none,
          xferDone := true, xferKind := .read, xferValue := v,
          out := s.out ++ [.complete .read v] })

/-- R86: the step that takes the echo of a waiting `sendSlot` returns the decoded bit to HOST. -/
def Obligations.SendSlotReturnsTheDecodedEcho : Prop :=
  ∀ (s : State) (e b : Byte) (rest : List Input), s.initDone = true →
    s.slotOut = some (.sync, b) → s.hostWait = .slot → s.call = .direct →
    s.inbox = echoInput e :: rest →
    step s = .next { s with
      rx := e, slotOut := none, syncEcho := none, hostWait := .none, call := .none, inbox := rest,
      out := s.out ++ [.result .ok (.bit (decodeBit s.cfg e))] }

/-- R98, R99: the step that takes the last echo of a waiting `resetBlocking` returns the presence to
HOST, and that of a waiting `writeByteBlocking` returns `Ok`. -/
def Obligations.ResetAndWriteWrappersReturn : Prop :=
  ∀ (s : State) (e b : Byte) (rest : List Input), s.initDone = true →
    s.slotOut = some (.engine, b) → s.engCont = .blocking → s.call = .direct →
    s.inbox = echoInput e :: rest →
    (s.eng = .resetPending → s.hostWait = .reset →
      let p : Bool := decide (e ≠ s.cfg.resetPattern ∧ e ≠ s.cfg.idleMarker)
      step s = .next { s with
        rx := e, slotOut := none, presence := p, baud := .normal, eng := .idle, engCont := .none,
        blkDone := true, blkValue := if p then 1#8 else 0#8, hostWait := .none, call := .none,
        inbox := rest,
        out := s.out ++ (if s.baud = .normal then [] else [.baud .normal]) ++
          [.result .ok (.presence p)] }) ∧
    (s.eng = .writePending 7 → s.hostWait = .write →
      step s = .next { s with
        rx := e, slotOut := none, eng := .idle, engCont := .none, blkDone := true,
        blkValue := 0#8, hostWait := .none, call := .none, inbox := rest,
        out := s.out ++ [.result .ok .none] })

/-- R97: EV_SPIN_TIMEOUT is enabled at an await whose condition does not hold, and only there. It
frees HOST, logs and returns `BusTimeout` (with presence = false for `resetBlocking`), and leaves the
transfer or slot in flight. -/
def Obligations.SpinTimeoutEndsOnlyTheWait : Prop :=
  ∀ s : State, s.initDone = true →
    (s.awaiting = true ↔ (s.hostWait = .slot ∧ s.syncEcho = none) ∨
      ((s.hostWait = .reset ∨ s.hostWait = .write ∨ s.hostWait = .read) ∧ s.blkDone = false)) ∧
    (s.awaiting = false → exec .evSpinTimeout s = .refused .timeoutNotEnabled) ∧
    (s.awaiting = true → s.call = .direct →
      exec .evSpinTimeout s = .next { s with
        hostWait := .none, call := .none,
        out := s.out ++ [.log (.error .busTimeout),
          .result .busTimeout (if s.hostWait = .reset then .presence false else .none)] })

/-- R54, R72, R74: the slots of a byte written by the engine are those of its bits 0 to 7, in that order,
whatever the echoes and the continuation; a byte read is eight slots `SLOT_ONE`. -/
def Obligations.BytesExpandToEightSlots : Prop :=
  ∀ (s : State) (c : Cont) (v : Byte) (es : List Byte) (rest : List Input), s.initDone = true →
    s.undisturbed → ¬s.engBusy → es.length = 7 →
    (∃ t, Host.Core.run Sys2Proof.core 7
        { (startWriteByte v c s).1 with inbox := es.map echoInput ++ rest } = .next t ∧
      t.inbox = rest ∧ t.eng = .writePending 7 ∧
      t.out = s.out ++ ([0, 1, 2, 3, 4, 5, 6, 7].map fun i =>
        .tx (if v.getLsbD i then s.cfg.slotOne else s.cfg.slotZero) .normal)) ∧
    (∃ t, Host.Core.run Sys2Proof.core 7
        { (startReadByte c s).1 with inbox := es.map echoInput ++ rest } = .next t ∧
      t.inbox = rest ∧ t.eng = .readPending 7 ∧
      t.out = s.out ++ List.replicate 8 (.tx s.cfg.slotOne .normal))

/-- R90, R94, R100: `readByteBlocking` and eight echoes return the byte whose bit `i` is the decoded
echo of slot `i`, and leave HOST free. -/
def Obligations.ReadByteBlockingReturnsTheEchoedByte : Prop :=
  ∀ (s : State) (a : Addr) (e : Fin 8 → Byte) (rest : List Input), s.free → ¬s.engBusy →
    s.inbox = .command ⟨0x0016#16, a⟩ :: (List.ofFn e).map echoInput ++ rest →
    ∃ (t : State) (v : Byte), Host.Core.run Sys2Proof.core 9 s = .next t ∧
      (∀ i : Fin 8, v.getLsbD i.val = decodeBit s.cfg (e i)) ∧
      t.free ∧ ¬t.engBusy ∧ t.inbox = rest ∧
      t.out = s.out ++ List.replicate 8 (.tx s.cfg.slotOne .normal) ++ [.result .ok (.byte v)]

/-! ### CRC8 -/

/-- R101 (its table form), R104: entry `c ^ b` of the printed table is `crc8_step(c, b)`; for
`c = 0`, entry `i` is `crc8_step(0, i)`. -/
def Obligations.CrcTableIsTheStepFunction : Prop :=
  crc8Table.length = 256 ∧
    ∀ c b : Byte, crc8Table[(c ^^^ b).toNat]? = some (crc8Step c b)

/-- R103: appending its own CRC8 to any bytes gives CRC8 zero, and only that byte does: comparing the
check byte and testing the CRC over everything for zero are the same test. -/
def Obligations.CrcIsZeroExactlyForTheCheckByte : Prop :=
  ∀ (ds : List Byte) (b : Byte), crc8 (ds ++ [b]) = 0#8 ↔ b = crc8 ds

/-! ### ROM search -/

/-- R111, R109: `searchNext` ends the enumeration with `NoMore` when the last device was found, else
starts a pass with a blocking reset, whose `Busy` leaves the search state as it was. -/
def Obligations.SearchNextEndsOrStartsAPass : Prop :=
  ∀ s : State, s.free →
    exec .searchNext s =
      if s.lastDeviceFlag then
        .next { s with
          lastDiscrepancy := 0, lastFamilyDiscrepancy := 0, lastDeviceFlag := false, rom := 0#64,
          out := s.out ++ [.result .noMore .none] }
      else if s.engBusy then
        .next { s with out := s.out ++ [.log (.error .busy), .result .busy .none] }
      else
        .next { s with
          baud := .reset, rx := s.cfg.idleMarker, engCont := .blocking,
          slotOut := some (.engine, s.cfg.resetPattern), eng := .resetPending,
          blkDone := false, hostWait := .reset, call := .search .next .reset,
          out := s.out ++ (if s.baud = .reset then [] else [.baud .reset]) ++
            [.tx s.cfg.resetPattern .reset] }

/-- R112: `searchFirst f` reinitialises the search, seeds the family byte and position 64 when `f` is
nonzero, and starts a pass; a `Busy` reset leaves the reinitialised state. -/
def Obligations.SearchFirstClearsSeedsAndStarts : Prop :=
  ∀ (s : State) (f : Byte), s.free →
    exec (.searchFirst f) s =
      let u : State := { s with
        lastDiscrepancy := if f = 0#8 then 0 else 64, lastFamilyDiscrepancy := 0,
        lastDeviceFlag := false, rom := if f = 0#8 then 0#64 else 0#56 ++ f }
      if s.engBusy then
        .next { u with out := s.out ++ [.log (.error .busy), .result .busy .none] }
      else
        .next { u with
          baud := .reset, rx := s.cfg.idleMarker, engCont := .blocking,
          slotOut := some (.engine, s.cfg.resetPattern), eng := .resetPending,
          blkDone := false, hostWait := .reset, call := .search (.first f) .reset,
          out := s.out ++ (if s.baud = .reset then [] else [.baud .reset]) ++
            [.tx s.cfg.resetPattern .reset] }

/-- R115: `searchDevices n` returns an empty list at once for `n = 0`, else it reinitialises the search
without a filter and starts the first pass. -/
def Obligations.SearchDevicesStartsAnUnfilteredSearch : Prop :=
  ∀ (s : State) (n : Byte), s.free →
    exec (.searchDevices n) s =
      let u : State := { s with
        lastDiscrepancy := 0, lastFamilyDiscrepancy := 0, lastDeviceFlag := false, rom := 0#64 }
      if n = 0#8 then .next { s with out := s.out ++ [.result .ok (.addrs [])] }
      else if s.engBusy then
        .next { u with out := s.out ++ [.log (.error .busy), .result .busy (.addrs [])] }
      else
        .next { u with
          baud := .reset, rx := s.cfg.idleMarker, engCont := .blocking,
          slotOut := some (.engine, s.cfg.resetPattern), eng := .resetPending,
          blkDone := false, hostWait := .reset, call := .search (.devices n []) .reset,
          out := s.out ++ (if s.baud = .reset then [] else [.baud .reset]) ++
            [.tx s.cfg.resetPattern .reset] }

/-- R114: `familySkip` (word 0022) makes the family discrepancy the next branch point, clears it, and
marks the enumeration exhausted if there is none: the `searchNext` after that returns `NoMore`. It
changes nothing else and causes no bus traffic. -/
def Obligations.FamilySkipMovesTheBranchPoint : Prop :=
  (∀ a : Addr, decodeCommand ⟨0x0022#16, a⟩ = .ok .familySkip) ∧
  ∀ s : State, s.free →
    ∃ t, exec .familySkip s = .next t ∧
      t = { s with
        lastDiscrepancy := s.lastFamilyDiscrepancy, lastFamilyDiscrepancy := 0,
        lastDeviceFlag := if s.lastFamilyDiscrepancy = 0 then true else s.lastDeviceFlag,
        out := s.out ++ [.result .ok .none] } ∧
      (s.lastFamilyDiscrepancy = 0 →
        exec .searchNext t = .next { t with
          lastDiscrepancy := 0, lastFamilyDiscrepancy := 0, lastDeviceFlag := false, rom := 0#64,
          out := t.out ++ [.result .noMore .none] })

/-- R109: what a search pass does between its reset and its first pair. A presence writes the search
command; its last echo clears the pass-local state and reads the address bit of position 1; the echo
of an address bit reads its complement. -/
def Obligations.PassWritesTheCommandAndReadsPairs : Prop :=
  ∀ (s : State) (c : SearchCaller) (e b : Byte) (rest : List Input), s.initDone = true →
    s.inbox = echoInput e :: rest →
    (s.eng = .resetPending → s.engCont = .blocking → s.slotOut = some (.engine, b) →
      s.hostWait = .reset → s.call = .search c .reset →
      e ≠ s.cfg.resetPattern → e ≠ s.cfg.idleMarker →
      let n : Byte := if s.cfg.cmdSearchRom.getLsbD 0 then s.cfg.slotOne else s.cfg.slotZero
      step s = .next { s with
        rx := e, presence := true, baud := .normal, engData := s.cfg.cmdSearchRom,
        engCont := .blocking, slotOut := some (.engine, n), eng := .writePending 0,
        blkDone := false, blkValue := 1#8, hostWait := .write, call := .search c .command,
        inbox := rest,
        out := s.out ++ (if s.baud = .normal then [] else [.baud .normal]) ++ [.tx n .normal] }) ∧
    (s.eng = .writePending 7 → s.engCont = .blocking → s.slotOut = some (.engine, b) →
      s.hostWait = .write → s.call = .search c .command →
      step s = .next { s with
        rx := e, eng := .idle, engCont := .none, blkDone := true, blkValue := 0#8,
        syncEcho := none, slotOut := some (.sync, s.cfg.slotOne), hostWait := .slot,
        call := .search c (.readAddr 0), lastZero := 0, searchCrc := 0#8, inbox := rest,
        out := s.out ++ [.tx s.cfg.slotOne .normal] }) ∧
    ∀ k, s.eng = .idle → s.slotOut = some (.sync, b) → s.hostWait = .slot →
      s.call = .search c (.readAddr k) →
      step s = .next { s with
        rx := e, syncEcho := none, slotOut := some (.sync, s.cfg.slotOne),
        call := .search c (.readCompl k (decodeBit s.cfg e)), inbox := rest,
        out := s.out ++ [.tx s.cfg.slotOne .normal] }

/-- R109: the echo of a direction bit before position 64 writes that bit of `S.rom`, folds the byte
completed at a position divisible by 8 into the CRC, and reads the next position. -/
def Obligations.DirectionIsRecordedAndBytesFolded : Prop :=
  ∀ (s : State) (c : SearchCaller) (k : Fin 64) (d : Bool) (e b : Byte) (rest : List Input),
    s.initDone = true → s.eng = .idle → s.slotOut = some (.sync, b) → s.hostWait = .slot →
    s.call = .search c (.writeDir k d) → k.val < 63 → s.inbox = echoInput e :: rest →
    ∃ a : Addr, (∀ j, a.getLsbD j = if j = k.val then d else s.rom.getLsbD j) ∧
      step s = .next { s with
        rx := e, syncEcho := none, slotOut := some (.sync, s.cfg.slotOne), rom := a,
        searchCrc := if k.val % 8 = 7 then crc8Step s.searchCrc (a.extractLsb' (k.val - 7) 8)
          else s.searchCrc,
        call := .search c (.readAddr (k + 1)), inbox := rest,
        out := s.out ++ [.tx s.cfg.slotOne .normal] }

/-- R107, R108: at position `p = k + 1`, the complement read with address bit `t` decides the direction
`d` that is written: the bit itself where the pair differs; at a discrepancy the previous choice
before `lastDiscrepancy`, 1 at it, 0 after it, and a 0 choice is recorded. -/
def Obligations.BitPairSelectsTheDirection : Prop :=
  ∀ (s : State) (c : SearchCaller) (k : Fin 64) (t : Bool) (e b : Byte) (rest : List Input),
    s.initDone = true → s.eng = .idle → s.slotOut = some (.sync, b) → s.hostWait = .slot →
    s.call = .search c (.readCompl k t) → s.inbox = echoInput e :: rest →
    ¬(t = true ∧ decodeBit s.cfg e = true) →
    let p := k.val + 1
    let d : Bool :=
      if t = decodeBit s.cfg e then
        (if p < s.lastDiscrepancy then s.rom.getLsbD k.val else decide (p = s.lastDiscrepancy))
      else t
    let record := t = decodeBit s.cfg e ∧ d = false
    let n : Byte := if d then s.cfg.slotOne else s.cfg.slotZero
    step s = .next { s with
      rx := e, syncEcho := none, slotOut := some (.sync, n), call := .search c (.writeDir k d),
      lastZero := if record then p else s.lastZero,
      lastFamilyDiscrepancy := if record ∧ p ≤ 8 then p else s.lastFamilyDiscrepancy,
      inbox := rest, out := s.out ++ [.tx n .normal] }

/-- R107, R109, R111 to R113, R115: a (1,1) pair, or a search reset without presence, ends the search:
the search state is cleared and `NoDevice` is logged once and returned to HOST, by `searchDevices` with
the addresses found before it. -/
def Obligations.NoRespondersEndTheSearch : Prop :=
  ∀ (s : State) (c : SearchCaller) (e b : Byte) (rest : List Input), s.initDone = true →
    s.inbox = echoInput e :: rest →
    let found : RetVal := match c with
      | .devices _ l => .addrs l
      | _ => .none
    let u : State := { s with
      rx := e, slotOut := none, hostWait := .none, call := .none,
      lastDiscrepancy := 0, lastFamilyDiscrepancy := 0, lastDeviceFlag := false, rom := 0#64,
      inbox := rest }
    (∀ k, s.eng = .idle → s.slotOut = some (.sync, b) → s.hostWait = .slot →
      s.call = .search c (.readCompl k true) → decodeBit s.cfg e = true →
      step s = .next { u with
        syncEcho := none,
        out := s.out ++ [.log (.error .noDevice), .result .noDevice found] }) ∧
    (s.eng = .resetPending → s.engCont = .blocking → s.slotOut = some (.engine, b) →
      s.hostWait = .reset → s.call = .search c .reset →
      (e = s.cfg.resetPattern ∨ e = s.cfg.idleMarker) →
      step s = .next { u with
        presence := false, baud := .normal, eng := .idle, engCont := .none, blkDone := true,
        blkValue := 0#8,
        out := s.out ++ (if s.baud = .normal then [] else [.baud .normal]) ++
          [.log (.error .noDevice), .result .noDevice found] })

/-- R109, R110, R113, R115: the echo of the last direction bit completes the address and ends the pass.
A nonzero CRC clears the search state and returns `CrcMismatch`. Else the branch point moves to the
last 0 choice, and the caller goes on: `searchNext` returns the address; `searchFirst f` returns it, or
with `FAMILY_STRICT` withholds one of another family, unlogged, with the state cleared; `searchDevices`
appends it, and returns the list at the n-th address or after the last device (`NoMore` is its normal
end), else starts the next pass. -/
def Obligations.LastPositionEndsThePass : Prop :=
  ∀ (s : State) (c : SearchCaller) (d : Bool) (e b : Byte) (rest : List Input),
    s.initDone = true → s.eng = .idle → s.slotOut = some (.sync, b) → s.hostWait = .slot →
    s.call = .search c (.writeDir 63 d) → s.inbox = echoInput e :: rest →
    ∃ a : Addr, (∀ j, a.getLsbD j = if j = 63 then d else s.rom.getLsbD j) ∧
      let crc := crc8Step s.searchCrc (a.extractLsb' 56 8)
      let u : State := { s with
        rx := e, syncEcho := none, slotOut := none, hostWait := .none, call := .none,
        searchCrc := crc, inbox := rest }
      let cleared : State := { u with
        rom := 0#64, lastDiscrepancy := 0, lastFamilyDiscrepancy := 0, lastDeviceFlag := false }
      let exhausted : Bool := if s.lastZero = 0 then true else s.lastDeviceFlag
      let found : State := { u with
        rom := a, lastDiscrepancy := s.lastZero, lastDeviceFlag := exhausted }
      step s =
        if crc ≠ 0#8 then
          .next { cleared with
            out := s.out ++ [.log (.error .crcMismatch), .result .crcMismatch (match c with
              | .devices _ l => .addrs l
              | _ => .none)] }
        else match c with
          | .next => .next { found with out := s.out ++ [.result .ok (.addr a)] }
          | .first f =>
            if s.cfg.familyStrict = true ∧ f ≠ 0#8 ∧ a.extractLsb' 0 8 ≠ f then
              .next { cleared with out := s.out ++ [.result .familyAbsent .none] }
            else .next { found with out := s.out ++ [.result .ok (.addr a)] }
          | .devices n l =>
            if l.length + 1 = n.toNat then
              .next { found with out := s.out ++ [.result .ok (.addrs (l ++ [a]))] }
            else if exhausted = true then
              .next { cleared with out := s.out ++ [.result .ok (.addrs (l ++ [a]))] }
            else
              .next { found with
                baud := .reset, rx := s.cfg.idleMarker, engCont := .blocking,
                slotOut := some (.engine, s.cfg.resetPattern), eng := .resetPending,
                blkDone := false, hostWait := .reset,
                call := .search (.devices n (l ++ [a])) .reset,
                out := s.out ++ (if s.baud = .reset then [] else [.baud .reset]) ++
                  [.tx s.cfg.resetPattern .reset] }

/-- R97, R109, D11: a timeout inside a search pass clears the search state, logs `BusTimeout` once and
returns it; `searchDevices` returns its list with it (R115). The slot or transfer stays in flight. -/
def Obligations.SpinTimeoutClearsARunningSearch : Prop :=
  ∀ (s : State) (c : SearchCaller) (pt : PassPoint), s.initDone = true → s.awaiting = true →
    s.call = .search c pt →
    exec .evSpinTimeout s = .next { s with
      hostWait := .none, call := .none,
      lastDiscrepancy := 0, lastFamilyDiscrepancy := 0, lastDeviceFlag := false, rom := 0#64,
      out := s.out ++ [.log (.error .busTimeout),
        .result .busTimeout (match c with
          | .devices _ found => .addrs found
          | _ => .none)] }

/-- R113: with `FAMILY_STRICT`, an address that `searchFirst f` returns has the family code `f`. -/
def Obligations.FilteredSearchReturnsOnlyItsFamily : Prop :=
  ∀ (s t : State) (f : Byte) (pt : PassPoint) (a : Addr), s.cfg.familyStrict = true → f ≠ 0#8 →
    s.call = .search (.first f) pt → step s = .next t →
    OutEvent.result .ok (.addr a) ∈ t.out.drop s.out.length → a.extractLsb' 0 8 = f

/-- R52, R109, R110: every step keeps the search sound: every address returned, or held by a running
`searchDevices`, has CRC8 zero over its eight bytes. -/
def Obligations.StepKeepsTheSearchSound : Prop :=
  ∀ s t : State, s.SearchSound → step s = .next t → t.SearchSound

/-- R109, R110: a pass in which every position answers with a bit and its complement resolves exactly
those bits: with a valid CRC it returns that address and marks the enumeration exhausted. -/
def Obligations.ForcedPassFindsTheAddress : Prop :=
  ∀ (s : State) (a : Addr) (b : Byte) (e : Nat → Byte) (rest : List Input), s.initDone = true →
    s.eng = .idle → s.slotOut = some (.sync, b) → s.hostWait = .slot →
    s.call = .search .next (.readAddr 0) → s.lastZero = 0 → s.searchCrc = 0#8 →
    (∀ k, k < 64 → decodeBit s.cfg (e (3 * k)) = a.getLsbD k ∧
      decodeBit s.cfg (e (3 * k + 1)) = !a.getLsbD k) →
    crc8 (addrBytes a) = 0#8 →
    s.inbox = (List.range 192).map (fun j => echoInput (e j)) ++ rest →
    ∃ t, Host.Core.run Sys2Proof.core 192 s = .next t ∧ t.free ∧ ¬t.engBusy ∧ t.inbox = rest ∧
      t.rom = a ∧ t.lastDiscrepancy = 0 ∧ t.lastDeviceFlag = true ∧
      t.out.getLast? = some (.result .ok (.addr a))

/-! ### ROM match -/

/-- R116: `matchAddress a` is `Busy` without effect while a match runs or the engine is busy, else it
records the address and sends the reset slot. -/
def Obligations.MatchAddressStartsWithAReset : Prop :=
  ∀ (s : State) (a : Addr), s.free →
    exec (.matchAddress a) s =
      if s.m ≠ .idle ∨ s.engBusy then
        .next { s with out := s.out ++ [.log (.error .busy), .result .busy .none] }
      else
        .next { s with
          mAddr := a, mClient := .host, mResult := .pending, m := .reset,
          baud := .reset, rx := s.cfg.idleMarker, engCont := .romMatch,
          slotOut := some (.engine, s.cfg.resetPattern), eng := .resetPending,
          out := s.out ++ (if s.baud = .reset then [] else [.baud .reset]) ++
            [.tx s.cfg.resetPattern .reset, .result .ok .none] }

/-- R117, R132: a match whose reset finds no device fails: the sequencer is idle, the failure is
recorded and logged once, and a Device Protocol sequence above it is aborted to `Idle`. -/
def Obligations.MatchResetWithoutPresenceFails : Prop :=
  ∀ (s : State) (e b : Byte), s.initDone = true → s.slotOut = some (.engine, b) →
    s.eng = .resetPending → s.engCont = .romMatch → s.m = .reset →
    (e = s.cfg.resetPattern ∨ e = s.cfg.idleMarker) →
    exec (.evEcho e) s = .next { s with
      rx := e, slotOut := none, presence := false, baud := .normal, eng := .idle, engCont := .none,
      m := .idle, mResult := .failed,
      dp := if s.mClient = .dp then .idle else s.dp,
      lastValid := if s.mClient = .dp ∧ s.dpOp = .read then false else s.lastValid,
      out := s.out ++ (if s.baud = .normal then [] else [.baud .normal]) ++
        [.log (.error .noDevice)] }

/-- R117 to R121, R126, R55: after a presence, a match writes the skip command for the sentinel, else
the match command and the address bytes 0 to 7, eight slots each, and completes `Ok` whatever the
echoes of the writes are: a match of HOST leaves the engine idle; one of the Device Protocol goes on, in
the step of its last echo, with the write of the operation's command. -/
def Obligations.MatchWritesCommandAndAddress : Prop :=
  ∀ (s : State) (b e0 : Byte) (es : List Byte) (rest : List Input), s.initDone = true →
    s.hostWait = .none → s.slotOut = some (.engine, b) → s.eng = .resetPending →
    s.baud = .reset → s.engCont = .romMatch → s.m = .reset →
    (s.mClient = .dp → s.dp = .awaitingMatch) →
    e0 ≠ s.cfg.resetPattern → e0 ≠ s.cfg.idleMarker →
    let bytes : List Byte := if s.mAddr = s.cfg.broadcastSentinel then [s.cfg.cmdSkipRom]
      else s.cfg.cmdMatchRom ::
        ([0, 1, 2, 3, 4, 5, 6, 7].map fun k => s.mAddr.extractLsb' (8 * k) 8)
    let sent := s.out ++ .baud .normal :: bytes.flatMap (byteSlots s.cfg)
    es.length = 8 * bytes.length →
    s.inbox = echoInput e0 :: es.map echoInput ++ rest →
    ∃ t, Host.Core.run Sys2Proof.core (1 + es.length) s = .next t ∧ t.inbox = rest ∧
      t.m = .idle ∧ t.mResult = .ok ∧ t.mAddr = s.mAddr ∧ t.presence = true ∧
      (s.mClient = .host → ¬t.engBusy ∧ t.dp = s.dp ∧ t.out = sent) ∧
      (s.mClient = .dp →
        let cmd : Byte :=
          if s.dpOp = .convert then s.cfg.cmdConvertT else s.cfg.cmdReadScratchpad
        let n : Byte := if cmd.getLsbD 0 then s.cfg.slotOne else s.cfg.slotZero
        t.eng = .writePending 0 ∧ t.engData = cmd ∧ t.engCont = .dp ∧
          t.slotOut = some (.engine, n) ∧ t.dp = .awaitingCommand ∧ t.dpOp = s.dpOp ∧
          t.out = sent ++ [.tx n .normal])

/-! ### Temperature -/

/-- R123: a start of the Device Protocol while a temperature sequence, a match or a transfer is in
flight returns `Busy`, logged, and changes no state, not even the pull-up. -/
def Obligations.BusyTemperatureStartsChangeNothing : Prop :=
  ∀ (s : State) (a : Addr), s.free →
    ((s.dp ≠ .idle ∧ s.dp ≠ .done) ∨ s.m ≠ .idle ∨ s.eng ≠ .idle ∨ s.slotOut ≠ none) →
    let t : State := { s with out := s.out ++ [.log (.error .busy), .result .busy .none] }
    exec (.startConversion a) s = .next t ∧ exec (.startTemperatureRead a) s = .next t

/-- R124, R125: an accepted start sets the weak pull-up, emitted on a change only, and starts the match
with client `DP`. A temperature read also discards the scratchpad, of which nothing more is said. -/
def Obligations.TemperatureStartsRunTheMatch : Prop :=
  ∀ (s : State) (a : Addr), s.free → (s.dp = .idle ∨ s.dp = .done) → s.m = .idle → ¬s.engBusy →
    let u : State := { s with
      pullup := .weak, dp := .awaitingMatch, mAddr := a, mClient := .dp,
      mResult := .pending, m := .reset, baud := .reset, rx := s.cfg.idleMarker, engCont := .romMatch,
      slotOut := some (.engine, s.cfg.resetPattern), eng := .resetPending,
      out := s.out ++ (if s.pullup = .weak then [] else [.line .weak]) ++
        (if s.baud = .reset then [] else [.baud .reset]) ++
        [.tx s.cfg.resetPattern .reset, .result .ok .none] }
    exec (.startConversion a) s = .next { u with dpOp := .convert } ∧
    ∃ (sp : Vector Byte 9) (d : Nat),
      exec (.startTemperatureRead a) s = .next { u with dpOp := .read, sp := sp, draws := d }

/-- R121, R126: when the last write of a match with client `DP` completes, the command byte of the
operation is written in the same step. -/
def Obligations.MatchCompletionWritesTheCommand : Prop :=
  ∀ (s : State) (e b : Byte), s.initDone = true → s.slotOut = some (.engine, b) →
    s.eng = .writePending 7 → s.engCont = .romMatch → (s.m = .skipCmd ∨ s.m = .addr 7) →
    s.mClient = .dp → s.dp = .awaitingMatch →
    let cmd : Byte := if s.dpOp = .convert then s.cfg.cmdConvertT else s.cfg.cmdReadScratchpad
    let n : Byte := if cmd.getLsbD 0 then s.cfg.slotOne else s.cfg.slotZero
    exec (.evEcho e) s = .next { s with
      rx := e, m := .idle, mResult := .ok, engData := cmd, engCont := .dp,
      slotOut := some (.engine, n), eng := .writePending 0, dp := .awaitingCommand,
      out := s.out ++ [.tx n .normal] }

/-- R127, R128: when the command write completes, a conversion turns the pull-up strong and is done; a
temperature read clears the CRC accumulator and reads the first scratchpad byte. -/
def Obligations.CommandCompletionGoesOnByOperation : Prop :=
  ∀ (s : State) (e b : Byte), s.initDone = true → s.slotOut = some (.engine, b) →
    s.eng = .writePending 7 → s.engCont = .dp → s.dp = .awaitingCommand →
    exec (.evEcho e) s =
      if s.dpOp = .convert then
        .next { s with
          rx := e, slotOut := none, eng := .idle, engCont := .none, pullup := .strong, dp := .done,
          out := s.out ++ (if s.pullup = .strong then [] else [.line .strong]) }
      else
        .next { s with
          rx := e, slotOut := some (.engine, s.cfg.slotOne), eng := .readPending 0, engData := 0#8,
          dpCrc := 0#8, dp := .awaitingReadByte 0, out := s.out ++ [.tx s.cfg.slotOne .normal] }

/-- R129: a scratchpad byte before the ninth is stored, folded into the CRC, and the next is read. -/
def Obligations.ScratchpadByteIsStoredAndFolded : Prop :=
  ∀ (s : State) (e b : Byte) (k : Fin 9), s.initDone = true → s.slotOut = some (.engine, b) →
    s.eng = .readPending 7 → s.engCont = .dp → s.dp = .awaitingReadByte k → k.val < 8 →
    ∃ v : Byte,
      (∀ j, v.getLsbD j = if j = 7 then decodeBit s.cfg e else s.engData.getLsbD j) ∧
      exec (.evEcho e) s = .next { s with
        rx := e, slotOut := some (.engine, s.cfg.slotOne), eng := .readPending 0, engData := 0#8,
        sp := s.sp.set k.val v k.isLt, dpCrc := crc8Step s.dpCrc v,
        dp := .awaitingReadByte (k + 1), out := s.out ++ [.tx s.cfg.slotOne .normal] }

/-- R129, R131: the ninth byte ends the read: with a zero CRC the decoded temperature becomes the last
known good one, a jump of more than the threshold (50 tenths at power-up) from the previous good one
being logged; else `CrcMismatch` is logged and the value is discarded. Nothing is said of the scratchpad
buffer after the decode, which R40 calls unspecified, nor of the counter of free values. -/
def Obligations.NinthByteIsDecodedAndGated : Prop :=
  State.reset.cfg.jumpThreshold = 50 ∧
  ∀ (s : State) (e b : Byte), s.initDone = true → s.slotOut = some (.engine, b) →
    s.eng = .readPending 7 → s.engCont = .dp → s.dp = .awaitingReadByte 8 →
    ∃ (v : Byte) (sp : Vector Byte 9) (d : Nat),
      (∀ j, v.getLsbD j = if j = 7 then decodeBit s.cfg e else s.engData.getLsbD j) ∧
      let crc := crc8Step s.dpCrc v
      let t := decodeTemperature s.sp[0] s.sp[1]
      let u : State := { s with
        rx := e, slotOut := none, eng := .idle, engCont := .none, engData := v,
        sp := sp, draws := d, dpCrc := crc, dp := .done }
      exec (.evEcho e) s =
        if crc = 0#8 then
          .next { u with
            lkg := t, lkgValid := true, lastValid := true,
            out := s.out ++ (if s.lkgValid = true ∧
              (t.toInt - s.lkg.toInt > (s.cfg.jumpThreshold : Int) ∨
                s.lkg.toInt - t.toInt > (s.cfg.jumpThreshold : Int))
              then [.log .tempJump] else []) }
        else .next { u with
          lastValid := false, out := s.out ++ [.log (.error .crcMismatch)] }

/-- R130: the decode is the raw value in sixteenths, a 12-bit two's-complement number, scaled to tenths
and rounded down; for a sign with magnitude 0 only the fraction counts (U15). -/
def Obligations.DecodeIsTheFloorInTenths : Prop :=
  ∀ lsb msb : Byte,
    let w : Int := ((msb.toNat % 16 * 256 + lsb.toNat : Nat) : Int)
    let raw : Int := if w < 2048 then w else w - 4096
    (decodeTemperature lsb msb).toInt =
      if -2032 ≤ raw then raw * 10 / 16 else ((lsb.toNat % 16 * 10 / 16 : Nat) : Int)

/-- R130, R42: every step keeps the last-known-good temperature, and `LKG_INIT`, in the range −1270 to
1279 tenths. -/
def Obligations.StepKeepsTheTemperatureInRange : Prop :=
  ∀ s t : State, tenthsInRange s.lkg → tenthsInRange s.cfg.lkgInit → step s = .next t →
    tenthsInRange t.lkg ∧ tenthsInRange t.cfg.lkgInit

/-! ### Whole-machine rules and invariants -/

/-- R42, R131, R141: a step changes the last-known-good temperature only by `init`, which resets it, or
by a scratchpad read whose CRC is zero, which sets it to the decoded bytes. -/
def Obligations.LkgChangesOnlyByInitOrAGoodRead : Prop :=
  ∀ s t : State, step s = .next t →
    t.lkg = s.lkg ∨
      (∃ c rest, s.inbox = .command c :: rest ∧ decodeCommand c = .ok .init ∧
        t.lkg = s.cfg.lkgInit ∧ t.lkgValid = false) ∨
      (∃ e rest, s.inbox = echoInput e :: rest ∧ s.dp = .awaitingReadByte 8 ∧ t.dp = .done ∧
        t.dpCrc = 0#8 ∧ t.lkg = decodeTemperature s.sp[0] s.sp[1])

/-- R127, R44: the pull-up turns strong only in the step in which the command write of a conversion
completes. -/
def Obligations.PullupTurnsStrongOnlyAtAConversion : Prop :=
  ∀ s t : State, step s = .next t → s.pullup = .weak → t.pullup = .strong →
    s.dp = .awaitingCommand ∧ s.dpOp = .convert ∧ t.dp = .done

/-- R21, R87: a step hands at most one slot to the UART, and the slot it hands over is the one in flight
after it. -/
def Obligations.AtMostOneSlotPerStep : Prop :=
  ∀ s t : State, step s = .next t →
    ((t.out.drop s.out.length).filter OutEvent.isTx).length ≤ 1 ∧
    ∀ (b : Byte) (rate : Baud), OutEvent.tx b rate ∈ t.out.drop s.out.length →
      ∃ o, t.slotOut = some (o, b)

/-- R147, R15: what the output ports have carried is only added to, and the parameters are
configuration: no step takes an event back or changes a parameter. -/
def Obligations.StepsAppendOutputsAndKeepTheConfiguration : Prop :=
  ∀ s t : State, step s = .next t → s.out <+: t.out ∧ t.cfg = s.cfg

/-- The invariants of a run hold at power-up, and the parameters hold the spec values of R8 (the values
that R8 leaves OPEN are those of log 11, the other fields those of log 8). -/
def Obligations.PowerUpIsCoherentAndSound : Prop :=
  State.reset.Coherent ∧ State.reset.SearchSound ∧
  tenthsInRange State.reset.lkg ∧ tenthsInRange State.reset.cfg.lkgInit ∧
  ∃ (pattern : Byte) (slot reset : Nat) (budget : { n : Nat // 0 < n }),
    State.reset.cfg = {
      slotOne := 0xFF#8, slotZero := 0x00#8, resetPattern := pattern, idleMarker := 0x00#8,
      baudSlot := slot, baudReset := reset, echoDecode := .exactOnes, spinBudget := budget,
      cmdSearchRom := 0xF0#8, cmdMatchRom := 0x55#8, cmdSkipRom := 0xCC#8, cmdConvertT := 0x44#8,
      cmdReadScratchpad := 0xBE#8, scratchpadLen := ⟨9, rfl⟩, romBits := ⟨64, rfl⟩,
      broadcastSentinel := 0#64, jumpThreshold := 50, conversionWaitMs := 500, lkgInit := 0#16,
      familyStrict := true }

/-- R20, R21, R35, R39, R28: every step keeps the engine, the slot in flight, the two sequencers and a
blocked HOST consistent with each other. -/
def Obligations.StepKeepsCoherence : Prop :=
  ∀ s t : State, s.Coherent → step s = .next t → t.Coherent

/-- R91, R109, 45_rom_match.md section 2: the completions the spec calls unreachable are: no step from
a coherent state ends in a fault. -/
def Obligations.CoherentStatesNeverFault : Prop :=
  ∀ (s : State) (f : Fault), s.Coherent → step s ≠ .fault f

/-- R147: in a quiescent state no event is enabled. -/
def Obligations.QuiescentStatesEnableNoEvent : Prop :=
  ∀ (s : State) (e : Byte), s.quiescent →
    exec (.evEcho e) s = .refused .echoNotEnabled ∧
    exec .evSpinTimeout s = .refused .timeoutNotEnabled
end

