-- ==== Sys2Proof/Laws/State.lean ====
section
/-! SUPPORT. What each named operation on the state does to each field: one lemma per field per
operation, true by unfolding, so that no later proof unfolds a record update. -/

namespace Sys2Proof.Machine

/-! The two parameters of R8 with one value only (R40, R32). -/

@[simp] theorem scratchpadLen_val (g : Config) : g.scratchpadLen.val = 9 := g.scratchpadLen.property

@[simp] theorem romBits_val (g : Config) : g.romBits.val = 64 := g.romBits.property

variable (s : State)

/-! `log` and `logError` are emissions, `failWith` is a log and a return. -/

@[simp] theorem log_eq (c : LogCode) : s.log c = s.emit (.log c) := rfl

@[simp] theorem logError_eq (k : ErrorKind) : s.logError k = s.emit (.log (.error k)) := rfl

@[simp] theorem failWith_eq (k : ErrorKind) (v : RetVal) :
    s.failWith k v = (s.emit (.log (.error k))).ret k.status v := rfl

@[simp] theorem illegal_eq : s.illegal = s.emit (.result .illegal .none) := rfl

/-! `emit` -/

@[simp] theorem emit_initDone (e : OutEvent) : (s.emit e).initDone = s.initDone := rfl
@[simp] theorem emit_eng (e : OutEvent) : (s.emit e).eng = s.eng := rfl
@[simp] theorem emit_engData (e : OutEvent) : (s.emit e).engData = s.engData := rfl
@[simp] theorem emit_engCont (e : OutEvent) : (s.emit e).engCont = s.engCont := rfl
@[simp] theorem emit_slotOut (e : OutEvent) : (s.emit e).slotOut = s.slotOut := rfl
@[simp] theorem emit_baud (e : OutEvent) : (s.emit e).baud = s.baud := rfl
@[simp] theorem emit_rx (e : OutEvent) : (s.emit e).rx = s.rx := rfl
@[simp] theorem emit_presence (e : OutEvent) : (s.emit e).presence = s.presence := rfl
@[simp] theorem emit_xferDone (e : OutEvent) : (s.emit e).xferDone = s.xferDone := rfl
@[simp] theorem emit_xferKind (e : OutEvent) : (s.emit e).xferKind = s.xferKind := rfl
@[simp] theorem emit_xferValue (e : OutEvent) : (s.emit e).xferValue = s.xferValue := rfl
@[simp] theorem emit_blkDone (e : OutEvent) : (s.emit e).blkDone = s.blkDone := rfl
@[simp] theorem emit_blkValue (e : OutEvent) : (s.emit e).blkValue = s.blkValue := rfl
@[simp] theorem emit_syncEcho (e : OutEvent) : (s.emit e).syncEcho = s.syncEcho := rfl
@[simp] theorem emit_hostWait (e : OutEvent) : (s.emit e).hostWait = s.hostWait := rfl
@[simp] theorem emit_lastDiscrepancy (e : OutEvent) :
    (s.emit e).lastDiscrepancy = s.lastDiscrepancy := rfl
@[simp] theorem emit_lastFamilyDiscrepancy (e : OutEvent) :
    (s.emit e).lastFamilyDiscrepancy = s.lastFamilyDiscrepancy := rfl
@[simp] theorem emit_lastDeviceFlag (e : OutEvent) :
    (s.emit e).lastDeviceFlag = s.lastDeviceFlag := rfl
@[simp] theorem emit_rom (e : OutEvent) : (s.emit e).rom = s.rom := rfl
@[simp] theorem emit_lastZero (e : OutEvent) : (s.emit e).lastZero = s.lastZero := rfl
@[simp] theorem emit_searchCrc (e : OutEvent) : (s.emit e).searchCrc = s.searchCrc := rfl
@[simp] theorem emit_m (e : OutEvent) : (s.emit e).m = s.m := rfl
@[simp] theorem emit_mAddr (e : OutEvent) : (s.emit e).mAddr = s.mAddr := rfl
@[simp] theorem emit_mClient (e : OutEvent) : (s.emit e).mClient = s.mClient := rfl
@[simp] theorem emit_mResult (e : OutEvent) : (s.emit e).mResult = s.mResult := rfl
@[simp] theorem emit_dp (e : OutEvent) : (s.emit e).dp = s.dp := rfl
@[simp] theorem emit_dpOp (e : OutEvent) : (s.emit e).dpOp = s.dpOp := rfl
@[simp] theorem emit_sp (e : OutEvent) : (s.emit e).sp = s.sp := rfl
@[simp] theorem emit_dpCrc (e : OutEvent) : (s.emit e).dpCrc = s.dpCrc := rfl
@[simp] theorem emit_lkg (e : OutEvent) : (s.emit e).lkg = s.lkg := rfl
@[simp] theorem emit_lkgValid (e : OutEvent) : (s.emit e).lkgValid = s.lkgValid := rfl
@[simp] theorem emit_lastValid (e : OutEvent) : (s.emit e).lastValid = s.lastValid := rfl
@[simp] theorem emit_pullup (e : OutEvent) : (s.emit e).pullup = s.pullup := rfl
@[simp] theorem emit_call (e : OutEvent) : (s.emit e).call = s.call := rfl
@[simp] theorem emit_inbox (e : OutEvent) : (s.emit e).inbox = s.inbox := rfl
@[simp] theorem emit_out (e : OutEvent) : (s.emit e).out = s.out ++ [e] := rfl
@[simp] theorem emit_draws (e : OutEvent) : (s.emit e).draws = s.draws := rfl
@[simp] theorem emit_cfg (e : OutEvent) : (s.emit e).cfg = s.cfg := rfl

/-! `ret` -/

@[simp] theorem ret_initDone (st : Status) (v : RetVal) : (s.ret st v).initDone = s.initDone := rfl
@[simp] theorem ret_eng (st : Status) (v : RetVal) : (s.ret st v).eng = s.eng := rfl
@[simp] theorem ret_engData (st : Status) (v : RetVal) : (s.ret st v).engData = s.engData := rfl
@[simp] theorem ret_engCont (st : Status) (v : RetVal) : (s.ret st v).engCont = s.engCont := rfl
@[simp] theorem ret_slotOut (st : Status) (v : RetVal) : (s.ret st v).slotOut = s.slotOut := rfl
@[simp] theorem ret_baud (st : Status) (v : RetVal) : (s.ret st v).baud = s.baud := rfl
@[simp] theorem ret_rx (st : Status) (v : RetVal) : (s.ret st v).rx = s.rx := rfl
@[simp] theorem ret_presence (st : Status) (v : RetVal) : (s.ret st v).presence = s.presence := rfl
@[simp] theorem ret_xferDone (st : Status) (v : RetVal) : (s.ret st v).xferDone = s.xferDone := rfl
@[simp] theorem ret_xferKind (st : Status) (v : RetVal) : (s.ret st v).xferKind = s.xferKind := rfl
@[simp] theorem ret_xferValue (st : Status) (v : RetVal) :
    (s.ret st v).xferValue = s.xferValue := rfl
@[simp] theorem ret_blkDone (st : Status) (v : RetVal) : (s.ret st v).blkDone = s.blkDone := rfl
@[simp] theorem ret_blkValue (st : Status) (v : RetVal) : (s.ret st v).blkValue = s.blkValue := rfl
@[simp] theorem ret_syncEcho (st : Status) (v : RetVal) : (s.ret st v).syncEcho = s.syncEcho := rfl
@[simp] theorem ret_hostWait (st : Status) (v : RetVal) : (s.ret st v).hostWait = s.hostWait := rfl
@[simp] theorem ret_lastDiscrepancy (st : Status) (v : RetVal) :
    (s.ret st v).lastDiscrepancy = s.lastDiscrepancy := rfl
@[simp] theorem ret_lastFamilyDiscrepancy (st : Status) (v : RetVal) :
    (s.ret st v).lastFamilyDiscrepancy = s.lastFamilyDiscrepancy := rfl
@[simp] theorem ret_lastDeviceFlag (st : Status) (v : RetVal) :
    (s.ret st v).lastDeviceFlag = s.lastDeviceFlag := rfl
@[simp] theorem ret_rom (st : Status) (v : RetVal) : (s.ret st v).rom = s.rom := rfl
@[simp] theorem ret_lastZero (st : Status) (v : RetVal) : (s.ret st v).lastZero = s.lastZero := rfl
@[simp] theorem ret_searchCrc (st : Status) (v : RetVal) :
    (s.ret st v).searchCrc = s.searchCrc := rfl
@[simp] theorem ret_m (st : Status) (v : RetVal) : (s.ret st v).m = s.m := rfl
@[simp] theorem ret_mAddr (st : Status) (v : RetVal) : (s.ret st v).mAddr = s.mAddr := rfl
@[simp] theorem ret_mClient (st : Status) (v : RetVal) : (s.ret st v).mClient = s.mClient := rfl
@[simp] theorem ret_mResult (st : Status) (v : RetVal) : (s.ret st v).mResult = s.mResult := rfl
@[simp] theorem ret_dp (st : Status) (v : RetVal) : (s.ret st v).dp = s.dp := rfl
@[simp] theorem ret_dpOp (st : Status) (v : RetVal) : (s.ret st v).dpOp = s.dpOp := rfl
@[simp] theorem ret_sp (st : Status) (v : RetVal) : (s.ret st v).sp = s.sp := rfl
@[simp] theorem ret_dpCrc (st : Status) (v : RetVal) : (s.ret st v).dpCrc = s.dpCrc := rfl
@[simp] theorem ret_lkg (st : Status) (v : RetVal) : (s.ret st v).lkg = s.lkg := rfl
@[simp] theorem ret_lkgValid (st : Status) (v : RetVal) : (s.ret st v).lkgValid = s.lkgValid := rfl
@[simp] theorem ret_lastValid (st : Status) (v : RetVal) :
    (s.ret st v).lastValid = s.lastValid := rfl
@[simp] theorem ret_pullup (st : Status) (v : RetVal) : (s.ret st v).pullup = s.pullup := rfl
@[simp] theorem ret_call (st : Status) (v : RetVal) : (s.ret st v).call = .none := rfl
@[simp] theorem ret_inbox (st : Status) (v : RetVal) : (s.ret st v).inbox = s.inbox := rfl
@[simp] theorem ret_out (st : Status) (v : RetVal) :
    (s.ret st v).out = s.out ++ [.result st v] := rfl
@[simp] theorem ret_draws (st : Status) (v : RetVal) : (s.ret st v).draws = s.draws := rfl
@[simp] theorem ret_cfg (st : Status) (v : RetVal) : (s.ret st v).cfg = s.cfg := rfl

/-! `tx` -/

@[simp] theorem tx_initDone (o : SlotOwner) (b : Byte) (rate : Baud) :
    (s.tx o b rate).initDone = s.initDone := rfl
@[simp] theorem tx_eng (o : SlotOwner) (b : Byte) (rate : Baud) : (s.tx o b rate).eng = s.eng := rfl
@[simp] theorem tx_engData (o : SlotOwner) (b : Byte) (rate : Baud) :
    (s.tx o b rate).engData = s.engData := rfl
@[simp] theorem tx_engCont (o : SlotOwner) (b : Byte) (rate : Baud) :
    (s.tx o b rate).engCont = s.engCont := rfl
@[simp] theorem tx_slotOut (o : SlotOwner) (b : Byte) (rate : Baud) :
    (s.tx o b rate).slotOut = some (o, b) := rfl
@[simp] theorem tx_baud (o : SlotOwner) (b : Byte) (rate : Baud) :
    (s.tx o b rate).baud = s.baud := rfl
@[simp] theorem tx_rx (o : SlotOwner) (b : Byte) (rate : Baud) : (s.tx o b rate).rx = s.rx := rfl
@[simp] theorem tx_presence (o : SlotOwner) (b : Byte) (rate : Baud) :
    (s.tx o b rate).presence = s.presence := rfl
@[simp] theorem tx_xferDone (o : SlotOwner) (b : Byte) (rate : Baud) :
    (s.tx o b rate).xferDone = s.xferDone := rfl
@[simp] theorem tx_xferKind (o : SlotOwner) (b : Byte) (rate : Baud) :
    (s.tx o b rate).xferKind = s.xferKind := rfl
@[simp] theorem tx_xferValue (o : SlotOwner) (b : Byte) (rate : Baud) :
    (s.tx o b rate).xferValue = s.xferValue := rfl
@[simp] theorem tx_blkDone (o : SlotOwner) (b : Byte) (rate : Baud) :
    (s.tx o b rate).blkDone = s.blkDone := rfl
@[simp] theorem tx_blkValue (o : SlotOwner) (b : Byte) (rate : Baud) :
    (s.tx o b rate).blkValue = s.blkValue := rfl
@[simp] theorem tx_syncEcho (o : SlotOwner) (b : Byte) (rate : Baud) :
    (s.tx o b rate).syncEcho = s.syncEcho := rfl
@[simp] theorem tx_hostWait (o : SlotOwner) (b : Byte) (rate : Baud) :
    (s.tx o b rate).hostWait = s.hostWait := rfl
@[simp] theorem tx_lastDiscrepancy (o : SlotOwner) (b : Byte) (rate : Baud) :
    (s.tx o b rate).lastDiscrepancy = s.lastDiscrepancy := rfl
@[simp] theorem tx_lastFamilyDiscrepancy (o : SlotOwner) (b : Byte) (rate : Baud) :
    (s.tx o b rate).lastFamilyDiscrepancy = s.lastFamilyDiscrepancy := rfl
@[simp] theorem tx_lastDeviceFlag (o : SlotOwner) (b : Byte) (rate : Baud) :
    (s.tx o b rate).lastDeviceFlag = s.lastDeviceFlag := rfl
@[simp] theorem tx_rom (o : SlotOwner) (b : Byte) (rate : Baud) : (s.tx o b rate).rom = s.rom := rfl
@[simp] theorem tx_lastZero (o : SlotOwner) (b : Byte) (rate : Baud) :
    (s.tx o b rate).lastZero = s.lastZero := rfl
@[simp] theorem tx_searchCrc (o : SlotOwner) (b : Byte) (rate : Baud) :
    (s.tx o b rate).searchCrc = s.searchCrc := rfl
@[simp] theorem tx_m (o : SlotOwner) (b : Byte) (rate : Baud) : (s.tx o b rate).m = s.m := rfl
@[simp] theorem tx_mAddr (o : SlotOwner) (b : Byte) (rate : Baud) :
    (s.tx o b rate).mAddr = s.mAddr := rfl
@[simp] theorem tx_mClient (o : SlotOwner) (b : Byte) (rate : Baud) :
    (s.tx o b rate).mClient = s.mClient := rfl
@[simp] theorem tx_mResult (o : SlotOwner) (b : Byte) (rate : Baud) :
    (s.tx o b rate).mResult = s.mResult := rfl
@[simp] theorem tx_dp (o : SlotOwner) (b : Byte) (rate : Baud) : (s.tx o b rate).dp = s.dp := rfl
@[simp] theorem tx_dpOp (o : SlotOwner) (b : Byte) (rate : Baud) :
    (s.tx o b rate).dpOp = s.dpOp := rfl
@[simp] theorem tx_sp (o : SlotOwner) (b : Byte) (rate : Baud) : (s.tx o b rate).sp = s.sp := rfl
@[simp] theorem tx_dpCrc (o : SlotOwner) (b : Byte) (rate : Baud) :
    (s.tx o b rate).dpCrc = s.dpCrc := rfl
@[simp] theorem tx_lkg (o : SlotOwner) (b : Byte) (rate : Baud) : (s.tx o b rate).lkg = s.lkg := rfl
@[simp] theorem tx_lkgValid (o : SlotOwner) (b : Byte) (rate : Baud) :
    (s.tx o b rate).lkgValid = s.lkgValid := rfl
@[simp] theorem tx_lastValid (o : SlotOwner) (b : Byte) (rate : Baud) :
    (s.tx o b rate).lastValid = s.lastValid := rfl
@[simp] theorem tx_pullup (o : SlotOwner) (b : Byte) (rate : Baud) :
    (s.tx o b rate).pullup = s.pullup := rfl
@[simp] theorem tx_call (o : SlotOwner) (b : Byte) (rate : Baud) :
    (s.tx o b rate).call = s.call := rfl
@[simp] theorem tx_inbox (o : SlotOwner) (b : Byte) (rate : Baud) :
    (s.tx o b rate).inbox = s.inbox := rfl
@[simp] theorem tx_out (o : SlotOwner) (b : Byte) (rate : Baud) :
    (s.tx o b rate).out = s.out ++ [.tx b rate] := rfl
@[simp] theorem tx_draws (o : SlotOwner) (b : Byte) (rate : Baud) :
    (s.tx o b rate).draws = s.draws := rfl
@[simp] theorem tx_cfg (o : SlotOwner) (b : Byte) (rate : Baud) : (s.tx o b rate).cfg = s.cfg := rfl

/-! `setBaud` -/

@[simp] theorem setBaud_initDone (b : Baud) : (s.setBaud b).initDone = s.initDone := rfl
@[simp] theorem setBaud_eng (b : Baud) : (s.setBaud b).eng = s.eng := rfl
@[simp] theorem setBaud_engData (b : Baud) : (s.setBaud b).engData = s.engData := rfl
@[simp] theorem setBaud_engCont (b : Baud) : (s.setBaud b).engCont = s.engCont := rfl
@[simp] theorem setBaud_slotOut (b : Baud) : (s.setBaud b).slotOut = s.slotOut := rfl
@[simp] theorem setBaud_baud (b : Baud) : (s.setBaud b).baud = b := rfl
@[simp] theorem setBaud_rx (b : Baud) : (s.setBaud b).rx = s.rx := rfl
@[simp] theorem setBaud_presence (b : Baud) : (s.setBaud b).presence = s.presence := rfl
@[simp] theorem setBaud_xferDone (b : Baud) : (s.setBaud b).xferDone = s.xferDone := rfl
@[simp] theorem setBaud_xferKind (b : Baud) : (s.setBaud b).xferKind = s.xferKind := rfl
@[simp] theorem setBaud_xferValue (b : Baud) : (s.setBaud b).xferValue = s.xferValue := rfl
@[simp] theorem setBaud_blkDone (b : Baud) : (s.setBaud b).blkDone = s.blkDone := rfl
@[simp] theorem setBaud_blkValue (b : Baud) : (s.setBaud b).blkValue = s.blkValue := rfl
@[simp] theorem setBaud_syncEcho (b : Baud) : (s.setBaud b).syncEcho = s.syncEcho := rfl
@[simp] theorem setBaud_hostWait (b : Baud) : (s.setBaud b).hostWait = s.hostWait := rfl
@[simp] theorem setBaud_lastDiscrepancy (b : Baud) :
    (s.setBaud b).lastDiscrepancy = s.lastDiscrepancy := rfl
@[simp] theorem setBaud_lastFamilyDiscrepancy (b : Baud) :
    (s.setBaud b).lastFamilyDiscrepancy = s.lastFamilyDiscrepancy := rfl
@[simp] theorem setBaud_lastDeviceFlag (b : Baud) :
    (s.setBaud b).lastDeviceFlag = s.lastDeviceFlag := rfl
@[simp] theorem setBaud_rom (b : Baud) : (s.setBaud b).rom = s.rom := rfl
@[simp] theorem setBaud_lastZero (b : Baud) : (s.setBaud b).lastZero = s.lastZero := rfl
@[simp] theorem setBaud_searchCrc (b : Baud) : (s.setBaud b).searchCrc = s.searchCrc := rfl
@[simp] theorem setBaud_m (b : Baud) : (s.setBaud b).m = s.m := rfl
@[simp] theorem setBaud_mAddr (b : Baud) : (s.setBaud b).mAddr = s.mAddr := rfl
@[simp] theorem setBaud_mClient (b : Baud) : (s.setBaud b).mClient = s.mClient := rfl
@[simp] theorem setBaud_mResult (b : Baud) : (s.setBaud b).mResult = s.mResult := rfl
@[simp] theorem setBaud_dp (b : Baud) : (s.setBaud b).dp = s.dp := rfl
@[simp] theorem setBaud_dpOp (b : Baud) : (s.setBaud b).dpOp = s.dpOp := rfl
@[simp] theorem setBaud_sp (b : Baud) : (s.setBaud b).sp = s.sp := rfl
@[simp] theorem setBaud_dpCrc (b : Baud) : (s.setBaud b).dpCrc = s.dpCrc := rfl
@[simp] theorem setBaud_lkg (b : Baud) : (s.setBaud b).lkg = s.lkg := rfl
@[simp] theorem setBaud_lkgValid (b : Baud) : (s.setBaud b).lkgValid = s.lkgValid := rfl
@[simp] theorem setBaud_lastValid (b : Baud) : (s.setBaud b).lastValid = s.lastValid := rfl
@[simp] theorem setBaud_pullup (b : Baud) : (s.setBaud b).pullup = s.pullup := rfl
@[simp] theorem setBaud_call (b : Baud) : (s.setBaud b).call = s.call := rfl
@[simp] theorem setBaud_inbox (b : Baud) : (s.setBaud b).inbox = s.inbox := rfl
@[simp] theorem setBaud_out (b : Baud) :
    (s.setBaud b).out = if s.baud = b then s.out else s.out ++ [.baud b] := rfl
@[simp] theorem setBaud_draws (b : Baud) : (s.setBaud b).draws = s.draws := rfl
@[simp] theorem setBaud_cfg (b : Baud) : (s.setBaud b).cfg = s.cfg := rfl

/-! `setPullup` -/

@[simp] theorem setPullup_initDone (p : Pullup) : (s.setPullup p).initDone = s.initDone := rfl
@[simp] theorem setPullup_eng (p : Pullup) : (s.setPullup p).eng = s.eng := rfl
@[simp] theorem setPullup_engData (p : Pullup) : (s.setPullup p).engData = s.engData := rfl
@[simp] theorem setPullup_engCont (p : Pullup) : (s.setPullup p).engCont = s.engCont := rfl
@[simp] theorem setPullup_slotOut (p : Pullup) : (s.setPullup p).slotOut = s.slotOut := rfl
@[simp] theorem setPullup_baud (p : Pullup) : (s.setPullup p).baud = s.baud := rfl
@[simp] theorem setPullup_rx (p : Pullup) : (s.setPullup p).rx = s.rx := rfl
@[simp] theorem setPullup_presence (p : Pullup) : (s.setPullup p).presence = s.presence := rfl
@[simp] theorem setPullup_xferDone (p : Pullup) : (s.setPullup p).xferDone = s.xferDone := rfl
@[simp] theorem setPullup_xferKind (p : Pullup) : (s.setPullup p).xferKind = s.xferKind := rfl
@[simp] theorem setPullup_xferValue (p : Pullup) : (s.setPullup p).xferValue = s.xferValue := rfl
@[simp] theorem setPullup_blkDone (p : Pullup) : (s.setPullup p).blkDone = s.blkDone := rfl
@[simp] theorem setPullup_blkValue (p : Pullup) : (s.setPullup p).blkValue = s.blkValue := rfl
@[simp] theorem setPullup_syncEcho (p : Pullup) : (s.setPullup p).syncEcho = s.syncEcho := rfl
@[simp] theorem setPullup_hostWait (p : Pullup) : (s.setPullup p).hostWait = s.hostWait := rfl
@[simp] theorem setPullup_lastDiscrepancy (p : Pullup) :
    (s.setPullup p).lastDiscrepancy = s.lastDiscrepancy := rfl
@[simp] theorem setPullup_lastFamilyDiscrepancy (p : Pullup) :
    (s.setPullup p).lastFamilyDiscrepancy = s.lastFamilyDiscrepancy := rfl
@[simp] theorem setPullup_lastDeviceFlag (p : Pullup) :
    (s.setPullup p).lastDeviceFlag = s.lastDeviceFlag := rfl
@[simp] theorem setPullup_rom (p : Pullup) : (s.setPullup p).rom = s.rom := rfl
@[simp] theorem setPullup_lastZero (p : Pullup) : (s.setPullup p).lastZero = s.lastZero := rfl
@[simp] theorem setPullup_searchCrc (p : Pullup) : (s.setPullup p).searchCrc = s.searchCrc := rfl
@[simp] theorem setPullup_m (p : Pullup) : (s.setPullup p).m = s.m := rfl
@[simp] theorem setPullup_mAddr (p : Pullup) : (s.setPullup p).mAddr = s.mAddr := rfl
@[simp] theorem setPullup_mClient (p : Pullup) : (s.setPullup p).mClient = s.mClient := rfl
@[simp] theorem setPullup_mResult (p : Pullup) : (s.setPullup p).mResult = s.mResult := rfl
@[simp] theorem setPullup_dp (p : Pullup) : (s.setPullup p).dp = s.dp := rfl
@[simp] theorem setPullup_dpOp (p : Pullup) : (s.setPullup p).dpOp = s.dpOp := rfl
@[simp] theorem setPullup_sp (p : Pullup) : (s.setPullup p).sp = s.sp := rfl
@[simp] theorem setPullup_dpCrc (p : Pullup) : (s.setPullup p).dpCrc = s.dpCrc := rfl
@[simp] theorem setPullup_lkg (p : Pullup) : (s.setPullup p).lkg = s.lkg := rfl
@[simp] theorem setPullup_lkgValid (p : Pullup) : (s.setPullup p).lkgValid = s.lkgValid := rfl
@[simp] theorem setPullup_lastValid (p : Pullup) : (s.setPullup p).lastValid = s.lastValid := rfl
@[simp] theorem setPullup_pullup (p : Pullup) : (s.setPullup p).pullup = p := rfl
@[simp] theorem setPullup_call (p : Pullup) : (s.setPullup p).call = s.call := rfl
@[simp] theorem setPullup_inbox (p : Pullup) : (s.setPullup p).inbox = s.inbox := rfl
@[simp] theorem setPullup_out (p : Pullup) :
    (s.setPullup p).out = if s.pullup = p then s.out else s.out ++ [.line p] := rfl
@[simp] theorem setPullup_draws (p : Pullup) : (s.setPullup p).draws = s.draws := rfl
@[simp] theorem setPullup_cfg (p : Pullup) : (s.setPullup p).cfg = s.cfg := rfl

/-! `claimEngine` -/

@[simp] theorem claimEngine_initDone (c : Cont) : (s.claimEngine c).initDone = s.initDone := rfl
@[simp] theorem claimEngine_eng (c : Cont) : (s.claimEngine c).eng = s.eng := rfl
@[simp] theorem claimEngine_engData (c : Cont) : (s.claimEngine c).engData = s.engData := rfl
@[simp] theorem claimEngine_engCont (c : Cont) : (s.claimEngine c).engCont = c := rfl
@[simp] theorem claimEngine_slotOut (c : Cont) : (s.claimEngine c).slotOut = s.slotOut := rfl
@[simp] theorem claimEngine_baud (c : Cont) : (s.claimEngine c).baud = s.baud := rfl
@[simp] theorem claimEngine_rx (c : Cont) : (s.claimEngine c).rx = s.rx := rfl
@[simp] theorem claimEngine_presence (c : Cont) : (s.claimEngine c).presence = s.presence := rfl
@[simp] theorem claimEngine_xferDone (c : Cont) :
    (s.claimEngine c).xferDone = if c = .hostAsync then false else s.xferDone := rfl
@[simp] theorem claimEngine_xferKind (c : Cont) : (s.claimEngine c).xferKind = s.xferKind := rfl
@[simp] theorem claimEngine_xferValue (c : Cont) : (s.claimEngine c).xferValue = s.xferValue := rfl
@[simp] theorem claimEngine_blkDone (c : Cont) : (s.claimEngine c).blkDone = s.blkDone := rfl
@[simp] theorem claimEngine_blkValue (c : Cont) : (s.claimEngine c).blkValue = s.blkValue := rfl
@[simp] theorem claimEngine_syncEcho (c : Cont) : (s.claimEngine c).syncEcho = s.syncEcho := rfl
@[simp] theorem claimEngine_hostWait (c : Cont) : (s.claimEngine c).hostWait = s.hostWait := rfl
@[simp] theorem claimEngine_lastDiscrepancy (c : Cont) :
    (s.claimEngine c).lastDiscrepancy = s.lastDiscrepancy := rfl
@[simp] theorem claimEngine_lastFamilyDiscrepancy (c : Cont) :
    (s.claimEngine c).lastFamilyDiscrepancy = s.lastFamilyDiscrepancy := rfl
@[simp] theorem claimEngine_lastDeviceFlag (c : Cont) :
    (s.claimEngine c).lastDeviceFlag = s.lastDeviceFlag := rfl
@[simp] theorem claimEngine_rom (c : Cont) : (s.claimEngine c).rom = s.rom := rfl
@[simp] theorem claimEngine_lastZero (c : Cont) : (s.claimEngine c).lastZero = s.lastZero := rfl
@[simp] theorem claimEngine_searchCrc (c : Cont) : (s.claimEngine c).searchCrc = s.searchCrc := rfl
@[simp] theorem claimEngine_m (c : Cont) : (s.claimEngine c).m = s.m := rfl
@[simp] theorem claimEngine_mAddr (c : Cont) : (s.claimEngine c).mAddr = s.mAddr := rfl
@[simp] theorem claimEngine_mClient (c : Cont) : (s.claimEngine c).mClient = s.mClient := rfl
@[simp] theorem claimEngine_mResult (c : Cont) : (s.claimEngine c).mResult = s.mResult := rfl
@[simp] theorem claimEngine_dp (c : Cont) : (s.claimEngine c).dp = s.dp := rfl
@[simp] theorem claimEngine_dpOp (c : Cont) : (s.claimEngine c).dpOp = s.dpOp := rfl
@[simp] theorem claimEngine_sp (c : Cont) : (s.claimEngine c).sp = s.sp := rfl
@[simp] theorem claimEngine_dpCrc (c : Cont) : (s.claimEngine c).dpCrc = s.dpCrc := rfl
@[simp] theorem claimEngine_lkg (c : Cont) : (s.claimEngine c).lkg = s.lkg := rfl
@[simp] theorem claimEngine_lkgValid (c : Cont) : (s.claimEngine c).lkgValid = s.lkgValid := rfl
@[simp] theorem claimEngine_lastValid (c : Cont) : (s.claimEngine c).lastValid = s.lastValid := rfl
@[simp] theorem claimEngine_pullup (c : Cont) : (s.claimEngine c).pullup = s.pullup := rfl
@[simp] theorem claimEngine_call (c : Cont) : (s.claimEngine c).call = s.call := rfl
@[simp] theorem claimEngine_inbox (c : Cont) : (s.claimEngine c).inbox = s.inbox := rfl
@[simp] theorem claimEngine_out (c : Cont) : (s.claimEngine c).out = s.out := rfl
@[simp] theorem claimEngine_draws (c : Cont) : (s.claimEngine c).draws = s.draws := rfl
@[simp] theorem claimEngine_cfg (c : Cont) : (s.claimEngine c).cfg = s.cfg := rfl

/-! `acceptReset` -/

@[simp] theorem acceptReset_initDone (c : Cont) : (acceptReset c s).initDone = s.initDone := rfl
@[simp] theorem acceptReset_eng (c : Cont) : (acceptReset c s).eng = .resetPending := rfl
@[simp] theorem acceptReset_engData (c : Cont) : (acceptReset c s).engData = s.engData := rfl
@[simp] theorem acceptReset_engCont (c : Cont) : (acceptReset c s).engCont = c := rfl
@[simp] theorem acceptReset_slotOut (c : Cont) :
    (acceptReset c s).slotOut = some (.engine, s.cfg.resetPattern) := rfl
@[simp] theorem acceptReset_baud (c : Cont) : (acceptReset c s).baud = .reset := rfl
@[simp] theorem acceptReset_rx (c : Cont) : (acceptReset c s).rx = s.cfg.idleMarker := rfl
@[simp] theorem acceptReset_presence (c : Cont) : (acceptReset c s).presence = s.presence := rfl
@[simp] theorem acceptReset_xferDone (c : Cont) :
    (acceptReset c s).xferDone = if c = .hostAsync then false else s.xferDone := rfl
@[simp] theorem acceptReset_xferKind (c : Cont) : (acceptReset c s).xferKind = s.xferKind := rfl
@[simp] theorem acceptReset_xferValue (c : Cont) : (acceptReset c s).xferValue = s.xferValue := rfl
@[simp] theorem acceptReset_blkDone (c : Cont) : (acceptReset c s).blkDone = s.blkDone := rfl
@[simp] theorem acceptReset_blkValue (c : Cont) : (acceptReset c s).blkValue = s.blkValue := rfl
@[simp] theorem acceptReset_syncEcho (c : Cont) : (acceptReset c s).syncEcho = s.syncEcho := rfl
@[simp] theorem acceptReset_hostWait (c : Cont) : (acceptReset c s).hostWait = s.hostWait := rfl
@[simp] theorem acceptReset_lastDiscrepancy (c : Cont) :
    (acceptReset c s).lastDiscrepancy = s.lastDiscrepancy := rfl
@[simp] theorem acceptReset_lastFamilyDiscrepancy (c : Cont) :
    (acceptReset c s).lastFamilyDiscrepancy = s.lastFamilyDiscrepancy := rfl
@[simp] theorem acceptReset_lastDeviceFlag (c : Cont) :
    (acceptReset c s).lastDeviceFlag = s.lastDeviceFlag := rfl
@[simp] theorem acceptReset_rom (c : Cont) : (acceptReset c s).rom = s.rom := rfl
@[simp] theorem acceptReset_lastZero (c : Cont) : (acceptReset c s).lastZero = s.lastZero := rfl
@[simp] theorem acceptReset_searchCrc (c : Cont) : (acceptReset c s).searchCrc = s.searchCrc := rfl
@[simp] theorem acceptReset_m (c : Cont) : (acceptReset c s).m = s.m := rfl
@[simp] theorem acceptReset_mAddr (c : Cont) : (acceptReset c s).mAddr = s.mAddr := rfl
@[simp] theorem acceptReset_mClient (c : Cont) : (acceptReset c s).mClient = s.mClient := rfl
@[simp] theorem acceptReset_mResult (c : Cont) : (acceptReset c s).mResult = s.mResult := rfl
@[simp] theorem acceptReset_dp (c : Cont) : (acceptReset c s).dp = s.dp := rfl
@[simp] theorem acceptReset_dpOp (c : Cont) : (acceptReset c s).dpOp = s.dpOp := rfl
@[simp] theorem acceptReset_sp (c : Cont) : (acceptReset c s).sp = s.sp := rfl
@[simp] theorem acceptReset_dpCrc (c : Cont) : (acceptReset c s).dpCrc = s.dpCrc := rfl
@[simp] theorem acceptReset_lkg (c : Cont) : (acceptReset c s).lkg = s.lkg := rfl
@[simp] theorem acceptReset_lkgValid (c : Cont) : (acceptReset c s).lkgValid = s.lkgValid := rfl
@[simp] theorem acceptReset_lastValid (c : Cont) : (acceptReset c s).lastValid = s.lastValid := rfl
@[simp] theorem acceptReset_pullup (c : Cont) : (acceptReset c s).pullup = s.pullup := rfl
@[simp] theorem acceptReset_call (c : Cont) : (acceptReset c s).call = s.call := rfl
@[simp] theorem acceptReset_inbox (c : Cont) : (acceptReset c s).inbox = s.inbox := rfl
@[simp] theorem acceptReset_out (c : Cont) :
    (acceptReset c s).out =
      (if s.baud = .reset then s.out else s.out ++ [.baud .reset]) ++ [.tx s.cfg.resetPattern .reset] := rfl
@[simp] theorem acceptReset_draws (c : Cont) : (acceptReset c s).draws = s.draws := rfl
@[simp] theorem acceptReset_cfg (c : Cont) : (acceptReset c s).cfg = s.cfg := rfl

/-! `acceptWrite` -/

@[simp] theorem acceptWrite_initDone (v : Byte) (c : Cont) :
    (acceptWrite v c s).initDone = s.initDone := rfl
@[simp] theorem acceptWrite_eng (v : Byte) (c : Cont) :
    (acceptWrite v c s).eng = .writePending 0 := rfl
@[simp] theorem acceptWrite_engData (v : Byte) (c : Cont) : (acceptWrite v c s).engData = v := rfl
@[simp] theorem acceptWrite_engCont (v : Byte) (c : Cont) : (acceptWrite v c s).engCont = c := rfl
@[simp] theorem acceptWrite_slotOut (v : Byte) (c : Cont) :
    (acceptWrite v c s).slotOut = some (.engine, writeSlot s.cfg v 0) := rfl
@[simp] theorem acceptWrite_baud (v : Byte) (c : Cont) : (acceptWrite v c s).baud = s.baud := rfl
@[simp] theorem acceptWrite_rx (v : Byte) (c : Cont) : (acceptWrite v c s).rx = s.rx := rfl
@[simp] theorem acceptWrite_presence (v : Byte) (c : Cont) :
    (acceptWrite v c s).presence = s.presence := rfl
@[simp] theorem acceptWrite_xferDone (v : Byte) (c : Cont) :
    (acceptWrite v c s).xferDone = if c = .hostAsync then false else s.xferDone := rfl
@[simp] theorem acceptWrite_xferKind (v : Byte) (c : Cont) :
    (acceptWrite v c s).xferKind = s.xferKind := rfl
@[simp] theorem acceptWrite_xferValue (v : Byte) (c : Cont) :
    (acceptWrite v c s).xferValue = s.xferValue := rfl
@[simp] theorem acceptWrite_blkDone (v : Byte) (c : Cont) :
    (acceptWrite v c s).blkDone = s.blkDone := rfl
@[simp] theorem acceptWrite_blkValue (v : Byte) (c : Cont) :
    (acceptWrite v c s).blkValue = s.blkValue := rfl
@[simp] theorem acceptWrite_syncEcho (v : Byte) (c : Cont) :
    (acceptWrite v c s).syncEcho = s.syncEcho := rfl
@[simp] theorem acceptWrite_hostWait (v : Byte) (c : Cont) :
    (acceptWrite v c s).hostWait = s.hostWait := rfl
@[simp] theorem acceptWrite_lastDiscrepancy (v : Byte) (c : Cont) :
    (acceptWrite v c s).lastDiscrepancy = s.lastDiscrepancy := rfl
@[simp] theorem acceptWrite_lastFamilyDiscrepancy (v : Byte) (c : Cont) :
    (acceptWrite v c s).lastFamilyDiscrepancy = s.lastFamilyDiscrepancy := rfl
@[simp] theorem acceptWrite_lastDeviceFlag (v : Byte) (c : Cont) :
    (acceptWrite v c s).lastDeviceFlag = s.lastDeviceFlag := rfl
@[simp] theorem acceptWrite_rom (v : Byte) (c : Cont) : (acceptWrite v c s).rom = s.rom := rfl
@[simp] theorem acceptWrite_lastZero (v : Byte) (c : Cont) :
    (acceptWrite v c s).lastZero = s.lastZero := rfl
@[simp] theorem acceptWrite_searchCrc (v : Byte) (c : Cont) :
    (acceptWrite v c s).searchCrc = s.searchCrc := rfl
@[simp] theorem acceptWrite_m (v : Byte) (c : Cont) : (acceptWrite v c s).m = s.m := rfl
@[simp] theorem acceptWrite_mAddr (v : Byte) (c : Cont) : (acceptWrite v c s).mAddr = s.mAddr := rfl
@[simp] theorem acceptWrite_mClient (v : Byte) (c : Cont) :
    (acceptWrite v c s).mClient = s.mClient := rfl
@[simp] theorem acceptWrite_mResult (v : Byte) (c : Cont) :
    (acceptWrite v c s).mResult = s.mResult := rfl
@[simp] theorem acceptWrite_dp (v : Byte) (c : Cont) : (acceptWrite v c s).dp = s.dp := rfl
@[simp] theorem acceptWrite_dpOp (v : Byte) (c : Cont) : (acceptWrite v c s).dpOp = s.dpOp := rfl
@[simp] theorem acceptWrite_sp (v : Byte) (c : Cont) : (acceptWrite v c s).sp = s.sp := rfl
@[simp] theorem acceptWrite_dpCrc (v : Byte) (c : Cont) : (acceptWrite v c s).dpCrc = s.dpCrc := rfl
@[simp] theorem acceptWrite_lkg (v : Byte) (c : Cont) : (acceptWrite v c s).lkg = s.lkg := rfl
@[simp] theorem acceptWrite_lkgValid (v : Byte) (c : Cont) :
    (acceptWrite v c s).lkgValid = s.lkgValid := rfl
@[simp] theorem acceptWrite_lastValid (v : Byte) (c : Cont) :
    (acceptWrite v c s).lastValid = s.lastValid := rfl
@[simp] theorem acceptWrite_pullup (v : Byte) (c : Cont) :
    (acceptWrite v c s).pullup = s.pullup := rfl
@[simp] theorem acceptWrite_call (v : Byte) (c : Cont) : (acceptWrite v c s).call = s.call := rfl
@[simp] theorem acceptWrite_inbox (v : Byte) (c : Cont) : (acceptWrite v c s).inbox = s.inbox := rfl
@[simp] theorem acceptWrite_out (v : Byte) (c : Cont) :
    (acceptWrite v c s).out = s.out ++ [.tx (writeSlot s.cfg v 0) .normal] := rfl
@[simp] theorem acceptWrite_draws (v : Byte) (c : Cont) : (acceptWrite v c s).draws = s.draws := rfl
@[simp] theorem acceptWrite_cfg (v : Byte) (c : Cont) : (acceptWrite v c s).cfg = s.cfg := rfl

/-! `acceptRead` -/

@[simp] theorem acceptRead_initDone (c : Cont) : (acceptRead c s).initDone = s.initDone := rfl
@[simp] theorem acceptRead_eng (c : Cont) : (acceptRead c s).eng = .readPending 0 := rfl
@[simp] theorem acceptRead_engData (c : Cont) : (acceptRead c s).engData = 0#8 := rfl
@[simp] theorem acceptRead_engCont (c : Cont) : (acceptRead c s).engCont = c := rfl
@[simp] theorem acceptRead_slotOut (c : Cont) :
    (acceptRead c s).slotOut = some (.engine, s.cfg.slotOne) := rfl
@[simp] theorem acceptRead_baud (c : Cont) : (acceptRead c s).baud = s.baud := rfl
@[simp] theorem acceptRead_rx (c : Cont) : (acceptRead c s).rx = s.rx := rfl
@[simp] theorem acceptRead_presence (c : Cont) : (acceptRead c s).presence = s.presence := rfl
@[simp] theorem acceptRead_xferDone (c : Cont) :
    (acceptRead c s).xferDone = if c = .hostAsync then false else s.xferDone := rfl
@[simp] theorem acceptRead_xferKind (c : Cont) : (acceptRead c s).xferKind = s.xferKind := rfl
@[simp] theorem acceptRead_xferValue (c : Cont) : (acceptRead c s).xferValue = s.xferValue := rfl
@[simp] theorem acceptRead_blkDone (c : Cont) : (acceptRead c s).blkDone = s.blkDone := rfl
@[simp] theorem acceptRead_blkValue (c : Cont) : (acceptRead c s).blkValue = s.blkValue := rfl
@[simp] theorem acceptRead_syncEcho (c : Cont) : (acceptRead c s).syncEcho = s.syncEcho := rfl
@[simp] theorem acceptRead_hostWait (c : Cont) : (acceptRead c s).hostWait = s.hostWait := rfl
@[simp] theorem acceptRead_lastDiscrepancy (c : Cont) :
    (acceptRead c s).lastDiscrepancy = s.lastDiscrepancy := rfl
@[simp] theorem acceptRead_lastFamilyDiscrepancy (c : Cont) :
    (acceptRead c s).lastFamilyDiscrepancy = s.lastFamilyDiscrepancy := rfl
@[simp] theorem acceptRead_lastDeviceFlag (c : Cont) :
    (acceptRead c s).lastDeviceFlag = s.lastDeviceFlag := rfl
@[simp] theorem acceptRead_rom (c : Cont) : (acceptRead c s).rom = s.rom := rfl
@[simp] theorem acceptRead_lastZero (c : Cont) : (acceptRead c s).lastZero = s.lastZero := rfl
@[simp] theorem acceptRead_searchCrc (c : Cont) : (acceptRead c s).searchCrc = s.searchCrc := rfl
@[simp] theorem acceptRead_m (c : Cont) : (acceptRead c s).m = s.m := rfl
@[simp] theorem acceptRead_mAddr (c : Cont) : (acceptRead c s).mAddr = s.mAddr := rfl
@[simp] theorem acceptRead_mClient (c : Cont) : (acceptRead c s).mClient = s.mClient := rfl
@[simp] theorem acceptRead_mResult (c : Cont) : (acceptRead c s).mResult = s.mResult := rfl
@[simp] theorem acceptRead_dp (c : Cont) : (acceptRead c s).dp = s.dp := rfl
@[simp] theorem acceptRead_dpOp (c : Cont) : (acceptRead c s).dpOp = s.dpOp := rfl
@[simp] theorem acceptRead_sp (c : Cont) : (acceptRead c s).sp = s.sp := rfl
@[simp] theorem acceptRead_dpCrc (c : Cont) : (acceptRead c s).dpCrc = s.dpCrc := rfl
@[simp] theorem acceptRead_lkg (c : Cont) : (acceptRead c s).lkg = s.lkg := rfl
@[simp] theorem acceptRead_lkgValid (c : Cont) : (acceptRead c s).lkgValid = s.lkgValid := rfl
@[simp] theorem acceptRead_lastValid (c : Cont) : (acceptRead c s).lastValid = s.lastValid := rfl
@[simp] theorem acceptRead_pullup (c : Cont) : (acceptRead c s).pullup = s.pullup := rfl
@[simp] theorem acceptRead_call (c : Cont) : (acceptRead c s).call = s.call := rfl
@[simp] theorem acceptRead_inbox (c : Cont) : (acceptRead c s).inbox = s.inbox := rfl
@[simp] theorem acceptRead_out (c : Cont) :
    (acceptRead c s).out = s.out ++ [.tx s.cfg.slotOne .normal] := rfl
@[simp] theorem acceptRead_draws (c : Cont) : (acceptRead c s).draws = s.draws := rfl
@[simp] theorem acceptRead_cfg (c : Cont) : (acceptRead c s).cfg = s.cfg := rfl

/-! `storeScratchpad` -/

@[simp] theorem storeScratchpad_initDone (k : Fin 9) (v : Byte) :
    (storeScratchpad k v s).initDone = s.initDone := rfl
@[simp] theorem storeScratchpad_eng (k : Fin 9) (v : Byte) :
    (storeScratchpad k v s).eng = s.eng := rfl
@[simp] theorem storeScratchpad_engData (k : Fin 9) (v : Byte) :
    (storeScratchpad k v s).engData = s.engData := rfl
@[simp] theorem storeScratchpad_engCont (k : Fin 9) (v : Byte) :
    (storeScratchpad k v s).engCont = s.engCont := rfl
@[simp] theorem storeScratchpad_slotOut (k : Fin 9) (v : Byte) :
    (storeScratchpad k v s).slotOut = s.slotOut := rfl
@[simp] theorem storeScratchpad_baud (k : Fin 9) (v : Byte) :
    (storeScratchpad k v s).baud = s.baud := rfl
@[simp] theorem storeScratchpad_rx (k : Fin 9) (v : Byte) : (storeScratchpad k v s).rx = s.rx := rfl
@[simp] theorem storeScratchpad_presence (k : Fin 9) (v : Byte) :
    (storeScratchpad k v s).presence = s.presence := rfl
@[simp] theorem storeScratchpad_xferDone (k : Fin 9) (v : Byte) :
    (storeScratchpad k v s).xferDone = s.xferDone := rfl
@[simp] theorem storeScratchpad_xferKind (k : Fin 9) (v : Byte) :
    (storeScratchpad k v s).xferKind = s.xferKind := rfl
@[simp] theorem storeScratchpad_xferValue (k : Fin 9) (v : Byte) :
    (storeScratchpad k v s).xferValue = s.xferValue := rfl
@[simp] theorem storeScratchpad_blkDone (k : Fin 9) (v : Byte) :
    (storeScratchpad k v s).blkDone = s.blkDone := rfl
@[simp] theorem storeScratchpad_blkValue (k : Fin 9) (v : Byte) :
    (storeScratchpad k v s).blkValue = s.blkValue := rfl
@[simp] theorem storeScratchpad_syncEcho (k : Fin 9) (v : Byte) :
    (storeScratchpad k v s).syncEcho = s.syncEcho := rfl
@[simp] theorem storeScratchpad_hostWait (k : Fin 9) (v : Byte) :
    (storeScratchpad k v s).hostWait = s.hostWait := rfl
@[simp] theorem storeScratchpad_lastDiscrepancy (k : Fin 9) (v : Byte) :
    (storeScratchpad k v s).lastDiscrepancy = s.lastDiscrepancy := rfl
@[simp] theorem storeScratchpad_lastFamilyDiscrepancy (k : Fin 9) (v : Byte) :
    (storeScratchpad k v s).lastFamilyDiscrepancy = s.lastFamilyDiscrepancy := rfl
@[simp] theorem storeScratchpad_lastDeviceFlag (k : Fin 9) (v : Byte) :
    (storeScratchpad k v s).lastDeviceFlag = s.lastDeviceFlag := rfl
@[simp] theorem storeScratchpad_rom (k : Fin 9) (v : Byte) :
    (storeScratchpad k v s).rom = s.rom := rfl
@[simp] theorem storeScratchpad_lastZero (k : Fin 9) (v : Byte) :
    (storeScratchpad k v s).lastZero = s.lastZero := rfl
@[simp] theorem storeScratchpad_searchCrc (k : Fin 9) (v : Byte) :
    (storeScratchpad k v s).searchCrc = s.searchCrc := rfl
@[simp] theorem storeScratchpad_m (k : Fin 9) (v : Byte) : (storeScratchpad k v s).m = s.m := rfl
@[simp] theorem storeScratchpad_mAddr (k : Fin 9) (v : Byte) :
    (storeScratchpad k v s).mAddr = s.mAddr := rfl
@[simp] theorem storeScratchpad_mClient (k : Fin 9) (v : Byte) :
    (storeScratchpad k v s).mClient = s.mClient := rfl
@[simp] theorem storeScratchpad_mResult (k : Fin 9) (v : Byte) :
    (storeScratchpad k v s).mResult = s.mResult := rfl
@[simp] theorem storeScratchpad_dp (k : Fin 9) (v : Byte) : (storeScratchpad k v s).dp = s.dp := rfl
@[simp] theorem storeScratchpad_dpOp (k : Fin 9) (v : Byte) :
    (storeScratchpad k v s).dpOp = s.dpOp := rfl
@[simp] theorem storeScratchpad_sp (k : Fin 9) (v : Byte) :
    (storeScratchpad k v s).sp = s.sp.set k.val v k.isLt := rfl
@[simp] theorem storeScratchpad_dpCrc (k : Fin 9) (v : Byte) :
    (storeScratchpad k v s).dpCrc = crc8Step s.dpCrc v := rfl
@[simp] theorem storeScratchpad_lkg (k : Fin 9) (v : Byte) :
    (storeScratchpad k v s).lkg = s.lkg := rfl
@[simp] theorem storeScratchpad_lkgValid (k : Fin 9) (v : Byte) :
    (storeScratchpad k v s).lkgValid = s.lkgValid := rfl
@[simp] theorem storeScratchpad_lastValid (k : Fin 9) (v : Byte) :
    (storeScratchpad k v s).lastValid = s.lastValid := rfl
@[simp] theorem storeScratchpad_pullup (k : Fin 9) (v : Byte) :
    (storeScratchpad k v s).pullup = s.pullup := rfl
@[simp] theorem storeScratchpad_call (k : Fin 9) (v : Byte) :
    (storeScratchpad k v s).call = s.call := rfl
@[simp] theorem storeScratchpad_inbox (k : Fin 9) (v : Byte) :
    (storeScratchpad k v s).inbox = s.inbox := rfl
@[simp] theorem storeScratchpad_out (k : Fin 9) (v : Byte) :
    (storeScratchpad k v s).out = s.out := rfl
@[simp] theorem storeScratchpad_draws (k : Fin 9) (v : Byte) :
    (storeScratchpad k v s).draws = s.draws := rfl
@[simp] theorem storeScratchpad_cfg (k : Fin 9) (v : Byte) :
    (storeScratchpad k v s).cfg = s.cfg := rfl

/-! `dpAbort` -/

@[simp] theorem dpAbort_initDone : (dpAbort s).initDone = s.initDone := rfl
@[simp] theorem dpAbort_eng : (dpAbort s).eng = s.eng := rfl
@[simp] theorem dpAbort_engData : (dpAbort s).engData = s.engData := rfl
@[simp] theorem dpAbort_engCont : (dpAbort s).engCont = s.engCont := rfl
@[simp] theorem dpAbort_slotOut : (dpAbort s).slotOut = s.slotOut := rfl
@[simp] theorem dpAbort_baud : (dpAbort s).baud = s.baud := rfl
@[simp] theorem dpAbort_rx : (dpAbort s).rx = s.rx := rfl
@[simp] theorem dpAbort_presence : (dpAbort s).presence = s.presence := rfl
@[simp] theorem dpAbort_xferDone : (dpAbort s).xferDone = s.xferDone := rfl
@[simp] theorem dpAbort_xferKind : (dpAbort s).xferKind = s.xferKind := rfl
@[simp] theorem dpAbort_xferValue : (dpAbort s).xferValue = s.xferValue := rfl
@[simp] theorem dpAbort_blkDone : (dpAbort s).blkDone = s.blkDone := rfl
@[simp] theorem dpAbort_blkValue : (dpAbort s).blkValue = s.blkValue := rfl
@[simp] theorem dpAbort_syncEcho : (dpAbort s).syncEcho = s.syncEcho := rfl
@[simp] theorem dpAbort_hostWait : (dpAbort s).hostWait = s.hostWait := rfl
@[simp] theorem dpAbort_lastDiscrepancy : (dpAbort s).lastDiscrepancy = s.lastDiscrepancy := rfl
@[simp] theorem dpAbort_lastFamilyDiscrepancy :
    (dpAbort s).lastFamilyDiscrepancy = s.lastFamilyDiscrepancy := rfl
@[simp] theorem dpAbort_lastDeviceFlag : (dpAbort s).lastDeviceFlag = s.lastDeviceFlag := rfl
@[simp] theorem dpAbort_rom : (dpAbort s).rom = s.rom := rfl
@[simp] theorem dpAbort_lastZero : (dpAbort s).lastZero = s.lastZero := rfl
@[simp] theorem dpAbort_searchCrc : (dpAbort s).searchCrc = s.searchCrc := rfl
@[simp] theorem dpAbort_m : (dpAbort s).m = s.m := rfl
@[simp] theorem dpAbort_mAddr : (dpAbort s).mAddr = s.mAddr := rfl
@[simp] theorem dpAbort_mClient : (dpAbort s).mClient = s.mClient := rfl
@[simp] theorem dpAbort_mResult : (dpAbort s).mResult = s.mResult := rfl
@[simp] theorem dpAbort_dp : (dpAbort s).dp = .idle := rfl
@[simp] theorem dpAbort_dpOp : (dpAbort s).dpOp = s.dpOp := rfl
@[simp] theorem dpAbort_sp : (dpAbort s).sp = s.sp := rfl
@[simp] theorem dpAbort_dpCrc : (dpAbort s).dpCrc = s.dpCrc := rfl
@[simp] theorem dpAbort_lkg : (dpAbort s).lkg = s.lkg := rfl
@[simp] theorem dpAbort_lkgValid : (dpAbort s).lkgValid = s.lkgValid := rfl
@[simp] theorem dpAbort_lastValid :
    (dpAbort s).lastValid = if s.dpOp = .read then false else s.lastValid := rfl
@[simp] theorem dpAbort_pullup : (dpAbort s).pullup = s.pullup := rfl
@[simp] theorem dpAbort_call : (dpAbort s).call = s.call := rfl
@[simp] theorem dpAbort_inbox : (dpAbort s).inbox = s.inbox := rfl
@[simp] theorem dpAbort_out : (dpAbort s).out = s.out := rfl
@[simp] theorem dpAbort_draws : (dpAbort s).draws = s.draws := rfl
@[simp] theorem dpAbort_cfg : (dpAbort s).cfg = s.cfg := rfl

/-! `freshScratchpad` -/

@[simp] theorem freshScratchpad_initDone : (freshScratchpad s).initDone = s.initDone := rfl
@[simp] theorem freshScratchpad_eng : (freshScratchpad s).eng = s.eng := rfl
@[simp] theorem freshScratchpad_engData : (freshScratchpad s).engData = s.engData := rfl
@[simp] theorem freshScratchpad_engCont : (freshScratchpad s).engCont = s.engCont := rfl
@[simp] theorem freshScratchpad_slotOut : (freshScratchpad s).slotOut = s.slotOut := rfl
@[simp] theorem freshScratchpad_baud : (freshScratchpad s).baud = s.baud := rfl
@[simp] theorem freshScratchpad_rx : (freshScratchpad s).rx = s.rx := rfl
@[simp] theorem freshScratchpad_presence : (freshScratchpad s).presence = s.presence := rfl
@[simp] theorem freshScratchpad_xferDone : (freshScratchpad s).xferDone = s.xferDone := rfl
@[simp] theorem freshScratchpad_xferKind : (freshScratchpad s).xferKind = s.xferKind := rfl
@[simp] theorem freshScratchpad_xferValue : (freshScratchpad s).xferValue = s.xferValue := rfl
@[simp] theorem freshScratchpad_blkDone : (freshScratchpad s).blkDone = s.blkDone := rfl
@[simp] theorem freshScratchpad_blkValue : (freshScratchpad s).blkValue = s.blkValue := rfl
@[simp] theorem freshScratchpad_syncEcho : (freshScratchpad s).syncEcho = s.syncEcho := rfl
@[simp] theorem freshScratchpad_hostWait : (freshScratchpad s).hostWait = s.hostWait := rfl
@[simp] theorem freshScratchpad_lastDiscrepancy :
    (freshScratchpad s).lastDiscrepancy = s.lastDiscrepancy := rfl
@[simp] theorem freshScratchpad_lastFamilyDiscrepancy :
    (freshScratchpad s).lastFamilyDiscrepancy = s.lastFamilyDiscrepancy := rfl
@[simp] theorem freshScratchpad_lastDeviceFlag :
    (freshScratchpad s).lastDeviceFlag = s.lastDeviceFlag := rfl
@[simp] theorem freshScratchpad_rom : (freshScratchpad s).rom = s.rom := rfl
@[simp] theorem freshScratchpad_lastZero : (freshScratchpad s).lastZero = s.lastZero := rfl
@[simp] theorem freshScratchpad_searchCrc : (freshScratchpad s).searchCrc = s.searchCrc := rfl
@[simp] theorem freshScratchpad_m : (freshScratchpad s).m = s.m := rfl
@[simp] theorem freshScratchpad_mAddr : (freshScratchpad s).mAddr = s.mAddr := rfl
@[simp] theorem freshScratchpad_mClient : (freshScratchpad s).mClient = s.mClient := rfl
@[simp] theorem freshScratchpad_mResult : (freshScratchpad s).mResult = s.mResult := rfl
@[simp] theorem freshScratchpad_dp : (freshScratchpad s).dp = s.dp := rfl
@[simp] theorem freshScratchpad_dpOp : (freshScratchpad s).dpOp = s.dpOp := rfl
@[simp] theorem freshScratchpad_sp : (freshScratchpad s).sp = Config.freeScratchpad s.draws := rfl
@[simp] theorem freshScratchpad_dpCrc : (freshScratchpad s).dpCrc = s.dpCrc := rfl
@[simp] theorem freshScratchpad_lkg : (freshScratchpad s).lkg = s.lkg := rfl
@[simp] theorem freshScratchpad_lkgValid : (freshScratchpad s).lkgValid = s.lkgValid := rfl
@[simp] theorem freshScratchpad_lastValid : (freshScratchpad s).lastValid = s.lastValid := rfl
@[simp] theorem freshScratchpad_pullup : (freshScratchpad s).pullup = s.pullup := rfl
@[simp] theorem freshScratchpad_call : (freshScratchpad s).call = s.call := rfl
@[simp] theorem freshScratchpad_inbox : (freshScratchpad s).inbox = s.inbox := rfl
@[simp] theorem freshScratchpad_out : (freshScratchpad s).out = s.out := rfl
@[simp] theorem freshScratchpad_draws : (freshScratchpad s).draws = s.draws + 1 := rfl
@[simp] theorem freshScratchpad_cfg : (freshScratchpad s).cfg = s.cfg := rfl

/-! `clearSearch` -/

@[simp] theorem clearSearch_initDone : (s.clearSearch).initDone = s.initDone := rfl
@[simp] theorem clearSearch_eng : (s.clearSearch).eng = s.eng := rfl
@[simp] theorem clearSearch_engData : (s.clearSearch).engData = s.engData := rfl
@[simp] theorem clearSearch_engCont : (s.clearSearch).engCont = s.engCont := rfl
@[simp] theorem clearSearch_slotOut : (s.clearSearch).slotOut = s.slotOut := rfl
@[simp] theorem clearSearch_baud : (s.clearSearch).baud = s.baud := rfl
@[simp] theorem clearSearch_rx : (s.clearSearch).rx = s.rx := rfl
@[simp] theorem clearSearch_presence : (s.clearSearch).presence = s.presence := rfl
@[simp] theorem clearSearch_xferDone : (s.clearSearch).xferDone = s.xferDone := rfl
@[simp] theorem clearSearch_xferKind : (s.clearSearch).xferKind = s.xferKind := rfl
@[simp] theorem clearSearch_xferValue : (s.clearSearch).xferValue = s.xferValue := rfl
@[simp] theorem clearSearch_blkDone : (s.clearSearch).blkDone = s.blkDone := rfl
@[simp] theorem clearSearch_blkValue : (s.clearSearch).blkValue = s.blkValue := rfl
@[simp] theorem clearSearch_syncEcho : (s.clearSearch).syncEcho = s.syncEcho := rfl
@[simp] theorem clearSearch_hostWait : (s.clearSearch).hostWait = s.hostWait := rfl
@[simp] theorem clearSearch_lastDiscrepancy : (s.clearSearch).lastDiscrepancy = 0 := rfl
@[simp] theorem clearSearch_lastFamilyDiscrepancy : (s.clearSearch).lastFamilyDiscrepancy = 0 := rfl
@[simp] theorem clearSearch_lastDeviceFlag : (s.clearSearch).lastDeviceFlag = false := rfl
@[simp] theorem clearSearch_rom : (s.clearSearch).rom = 0#64 := rfl
@[simp] theorem clearSearch_lastZero : (s.clearSearch).lastZero = s.lastZero := rfl
@[simp] theorem clearSearch_searchCrc : (s.clearSearch).searchCrc = s.searchCrc := rfl
@[simp] theorem clearSearch_m : (s.clearSearch).m = s.m := rfl
@[simp] theorem clearSearch_mAddr : (s.clearSearch).mAddr = s.mAddr := rfl
@[simp] theorem clearSearch_mClient : (s.clearSearch).mClient = s.mClient := rfl
@[simp] theorem clearSearch_mResult : (s.clearSearch).mResult = s.mResult := rfl
@[simp] theorem clearSearch_dp : (s.clearSearch).dp = s.dp := rfl
@[simp] theorem clearSearch_dpOp : (s.clearSearch).dpOp = s.dpOp := rfl
@[simp] theorem clearSearch_sp : (s.clearSearch).sp = s.sp := rfl
@[simp] theorem clearSearch_dpCrc : (s.clearSearch).dpCrc = s.dpCrc := rfl
@[simp] theorem clearSearch_lkg : (s.clearSearch).lkg = s.lkg := rfl
@[simp] theorem clearSearch_lkgValid : (s.clearSearch).lkgValid = s.lkgValid := rfl
@[simp] theorem clearSearch_lastValid : (s.clearSearch).lastValid = s.lastValid := rfl
@[simp] theorem clearSearch_pullup : (s.clearSearch).pullup = s.pullup := rfl
@[simp] theorem clearSearch_call : (s.clearSearch).call = s.call := rfl
@[simp] theorem clearSearch_inbox : (s.clearSearch).inbox = s.inbox := rfl
@[simp] theorem clearSearch_out : (s.clearSearch).out = s.out := rfl
@[simp] theorem clearSearch_draws : (s.clearSearch).draws = s.draws := rfl
@[simp] theorem clearSearch_cfg : (s.clearSearch).cfg = s.cfg := rfl

/-! `recordZero` -/

@[simp] theorem recordZero_initDone (k : Fin 64) : (recordZero k s).initDone = s.initDone := rfl
@[simp] theorem recordZero_eng (k : Fin 64) : (recordZero k s).eng = s.eng := rfl
@[simp] theorem recordZero_engData (k : Fin 64) : (recordZero k s).engData = s.engData := rfl
@[simp] theorem recordZero_engCont (k : Fin 64) : (recordZero k s).engCont = s.engCont := rfl
@[simp] theorem recordZero_slotOut (k : Fin 64) : (recordZero k s).slotOut = s.slotOut := rfl
@[simp] theorem recordZero_baud (k : Fin 64) : (recordZero k s).baud = s.baud := rfl
@[simp] theorem recordZero_rx (k : Fin 64) : (recordZero k s).rx = s.rx := rfl
@[simp] theorem recordZero_presence (k : Fin 64) : (recordZero k s).presence = s.presence := rfl
@[simp] theorem recordZero_xferDone (k : Fin 64) : (recordZero k s).xferDone = s.xferDone := rfl
@[simp] theorem recordZero_xferKind (k : Fin 64) : (recordZero k s).xferKind = s.xferKind := rfl
@[simp] theorem recordZero_xferValue (k : Fin 64) : (recordZero k s).xferValue = s.xferValue := rfl
@[simp] theorem recordZero_blkDone (k : Fin 64) : (recordZero k s).blkDone = s.blkDone := rfl
@[simp] theorem recordZero_blkValue (k : Fin 64) : (recordZero k s).blkValue = s.blkValue := rfl
@[simp] theorem recordZero_syncEcho (k : Fin 64) : (recordZero k s).syncEcho = s.syncEcho := rfl
@[simp] theorem recordZero_hostWait (k : Fin 64) : (recordZero k s).hostWait = s.hostWait := rfl
@[simp] theorem recordZero_lastDiscrepancy (k : Fin 64) :
    (recordZero k s).lastDiscrepancy = s.lastDiscrepancy := rfl
@[simp] theorem recordZero_lastFamilyDiscrepancy (k : Fin 64) :
    (recordZero k s).lastFamilyDiscrepancy =
      if k.val + 1 ≤ 8 then k.val + 1 else s.lastFamilyDiscrepancy := rfl
@[simp] theorem recordZero_lastDeviceFlag (k : Fin 64) :
    (recordZero k s).lastDeviceFlag = s.lastDeviceFlag := rfl
@[simp] theorem recordZero_rom (k : Fin 64) : (recordZero k s).rom = s.rom := rfl
@[simp] theorem recordZero_lastZero (k : Fin 64) : (recordZero k s).lastZero = k.val + 1 := rfl
@[simp] theorem recordZero_searchCrc (k : Fin 64) : (recordZero k s).searchCrc = s.searchCrc := rfl
@[simp] theorem recordZero_m (k : Fin 64) : (recordZero k s).m = s.m := rfl
@[simp] theorem recordZero_mAddr (k : Fin 64) : (recordZero k s).mAddr = s.mAddr := rfl
@[simp] theorem recordZero_mClient (k : Fin 64) : (recordZero k s).mClient = s.mClient := rfl
@[simp] theorem recordZero_mResult (k : Fin 64) : (recordZero k s).mResult = s.mResult := rfl
@[simp] theorem recordZero_dp (k : Fin 64) : (recordZero k s).dp = s.dp := rfl
@[simp] theorem recordZero_dpOp (k : Fin 64) : (recordZero k s).dpOp = s.dpOp := rfl
@[simp] theorem recordZero_sp (k : Fin 64) : (recordZero k s).sp = s.sp := rfl
@[simp] theorem recordZero_dpCrc (k : Fin 64) : (recordZero k s).dpCrc = s.dpCrc := rfl
@[simp] theorem recordZero_lkg (k : Fin 64) : (recordZero k s).lkg = s.lkg := rfl
@[simp] theorem recordZero_lkgValid (k : Fin 64) : (recordZero k s).lkgValid = s.lkgValid := rfl
@[simp] theorem recordZero_lastValid (k : Fin 64) : (recordZero k s).lastValid = s.lastValid := rfl
@[simp] theorem recordZero_pullup (k : Fin 64) : (recordZero k s).pullup = s.pullup := rfl
@[simp] theorem recordZero_call (k : Fin 64) : (recordZero k s).call = s.call := rfl
@[simp] theorem recordZero_inbox (k : Fin 64) : (recordZero k s).inbox = s.inbox := rfl
@[simp] theorem recordZero_out (k : Fin 64) : (recordZero k s).out = s.out := rfl
@[simp] theorem recordZero_draws (k : Fin 64) : (recordZero k s).draws = s.draws := rfl
@[simp] theorem recordZero_cfg (k : Fin 64) : (recordZero k s).cfg = s.cfg := rfl

/-! `recordDir` -/

@[simp] theorem recordDir_initDone (k : Fin 64) (d : Bool) :
    (recordDir k d s).initDone = s.initDone := rfl
@[simp] theorem recordDir_eng (k : Fin 64) (d : Bool) : (recordDir k d s).eng = s.eng := rfl
@[simp] theorem recordDir_engData (k : Fin 64) (d : Bool) :
    (recordDir k d s).engData = s.engData := rfl
@[simp] theorem recordDir_engCont (k : Fin 64) (d : Bool) :
    (recordDir k d s).engCont = s.engCont := rfl
@[simp] theorem recordDir_slotOut (k : Fin 64) (d : Bool) :
    (recordDir k d s).slotOut = s.slotOut := rfl
@[simp] theorem recordDir_baud (k : Fin 64) (d : Bool) : (recordDir k d s).baud = s.baud := rfl
@[simp] theorem recordDir_rx (k : Fin 64) (d : Bool) : (recordDir k d s).rx = s.rx := rfl
@[simp] theorem recordDir_presence (k : Fin 64) (d : Bool) :
    (recordDir k d s).presence = s.presence := rfl
@[simp] theorem recordDir_xferDone (k : Fin 64) (d : Bool) :
    (recordDir k d s).xferDone = s.xferDone := rfl
@[simp] theorem recordDir_xferKind (k : Fin 64) (d : Bool) :
    (recordDir k d s).xferKind = s.xferKind := rfl
@[simp] theorem recordDir_xferValue (k : Fin 64) (d : Bool) :
    (recordDir k d s).xferValue = s.xferValue := rfl
@[simp] theorem recordDir_blkDone (k : Fin 64) (d : Bool) :
    (recordDir k d s).blkDone = s.blkDone := rfl
@[simp] theorem recordDir_blkValue (k : Fin 64) (d : Bool) :
    (recordDir k d s).blkValue = s.blkValue := rfl
@[simp] theorem recordDir_syncEcho (k : Fin 64) (d : Bool) :
    (recordDir k d s).syncEcho = s.syncEcho := rfl
@[simp] theorem recordDir_hostWait (k : Fin 64) (d : Bool) :
    (recordDir k d s).hostWait = s.hostWait := rfl
@[simp] theorem recordDir_lastDiscrepancy (k : Fin 64) (d : Bool) :
    (recordDir k d s).lastDiscrepancy = s.lastDiscrepancy := rfl
@[simp] theorem recordDir_lastFamilyDiscrepancy (k : Fin 64) (d : Bool) :
    (recordDir k d s).lastFamilyDiscrepancy = s.lastFamilyDiscrepancy := rfl
@[simp] theorem recordDir_lastDeviceFlag (k : Fin 64) (d : Bool) :
    (recordDir k d s).lastDeviceFlag = s.lastDeviceFlag := rfl
@[simp] theorem recordDir_rom (k : Fin 64) (d : Bool) :
    (recordDir k d s).rom = setBit s.rom k.val d := rfl
@[simp] theorem recordDir_lastZero (k : Fin 64) (d : Bool) :
    (recordDir k d s).lastZero = s.lastZero := rfl
@[simp] theorem recordDir_searchCrc (k : Fin 64) (d : Bool) :
    (recordDir k d s).searchCrc =
      if (k.val + 1) % 8 = 0 then crc8Step s.searchCrc (addrByte (setBit s.rom k.val d) (k.val / 8)) else s.searchCrc := rfl
@[simp] theorem recordDir_m (k : Fin 64) (d : Bool) : (recordDir k d s).m = s.m := rfl
@[simp] theorem recordDir_mAddr (k : Fin 64) (d : Bool) : (recordDir k d s).mAddr = s.mAddr := rfl
@[simp] theorem recordDir_mClient (k : Fin 64) (d : Bool) :
    (recordDir k d s).mClient = s.mClient := rfl
@[simp] theorem recordDir_mResult (k : Fin 64) (d : Bool) :
    (recordDir k d s).mResult = s.mResult := rfl
@[simp] theorem recordDir_dp (k : Fin 64) (d : Bool) : (recordDir k d s).dp = s.dp := rfl
@[simp] theorem recordDir_dpOp (k : Fin 64) (d : Bool) : (recordDir k d s).dpOp = s.dpOp := rfl
@[simp] theorem recordDir_sp (k : Fin 64) (d : Bool) : (recordDir k d s).sp = s.sp := rfl
@[simp] theorem recordDir_dpCrc (k : Fin 64) (d : Bool) : (recordDir k d s).dpCrc = s.dpCrc := rfl
@[simp] theorem recordDir_lkg (k : Fin 64) (d : Bool) : (recordDir k d s).lkg = s.lkg := rfl
@[simp] theorem recordDir_lkgValid (k : Fin 64) (d : Bool) :
    (recordDir k d s).lkgValid = s.lkgValid := rfl
@[simp] theorem recordDir_lastValid (k : Fin 64) (d : Bool) :
    (recordDir k d s).lastValid = s.lastValid := rfl
@[simp] theorem recordDir_pullup (k : Fin 64) (d : Bool) :
    (recordDir k d s).pullup = s.pullup := rfl
@[simp] theorem recordDir_call (k : Fin 64) (d : Bool) : (recordDir k d s).call = s.call := rfl
@[simp] theorem recordDir_inbox (k : Fin 64) (d : Bool) : (recordDir k d s).inbox = s.inbox := rfl
@[simp] theorem recordDir_out (k : Fin 64) (d : Bool) : (recordDir k d s).out = s.out := rfl
@[simp] theorem recordDir_draws (k : Fin 64) (d : Bool) : (recordDir k d s).draws = s.draws := rfl
@[simp] theorem recordDir_cfg (k : Fin 64) (d : Bool) : (recordDir k d s).cfg = s.cfg := rfl

/-! `deliverHost` -/

@[simp] theorem deliverHost_initDone (r : TransferResult) :
    (deliverHost r s).initDone = s.initDone := rfl
@[simp] theorem deliverHost_eng (r : TransferResult) : (deliverHost r s).eng = s.eng := rfl
@[simp] theorem deliverHost_engData (r : TransferResult) :
    (deliverHost r s).engData = s.engData := rfl
@[simp] theorem deliverHost_engCont (r : TransferResult) :
    (deliverHost r s).engCont = s.engCont := rfl
@[simp] theorem deliverHost_slotOut (r : TransferResult) :
    (deliverHost r s).slotOut = s.slotOut := rfl
@[simp] theorem deliverHost_baud (r : TransferResult) : (deliverHost r s).baud = s.baud := rfl
@[simp] theorem deliverHost_rx (r : TransferResult) : (deliverHost r s).rx = s.rx := rfl
@[simp] theorem deliverHost_presence (r : TransferResult) :
    (deliverHost r s).presence = s.presence := rfl
@[simp] theorem deliverHost_xferDone (r : TransferResult) : (deliverHost r s).xferDone = true := rfl
@[simp] theorem deliverHost_xferKind (r : TransferResult) :
    (deliverHost r s).xferKind = transferKind r := rfl
@[simp] theorem deliverHost_xferValue (r : TransferResult) :
    (deliverHost r s).xferValue = transferByte r := rfl
@[simp] theorem deliverHost_blkDone (r : TransferResult) :
    (deliverHost r s).blkDone = s.blkDone := rfl
@[simp] theorem deliverHost_blkValue (r : TransferResult) :
    (deliverHost r s).blkValue = s.blkValue := rfl
@[simp] theorem deliverHost_syncEcho (r : TransferResult) :
    (deliverHost r s).syncEcho = s.syncEcho := rfl
@[simp] theorem deliverHost_hostWait (r : TransferResult) :
    (deliverHost r s).hostWait = s.hostWait := rfl
@[simp] theorem deliverHost_lastDiscrepancy (r : TransferResult) :
    (deliverHost r s).lastDiscrepancy = s.lastDiscrepancy := rfl
@[simp] theorem deliverHost_lastFamilyDiscrepancy (r : TransferResult) :
    (deliverHost r s).lastFamilyDiscrepancy = s.lastFamilyDiscrepancy := rfl
@[simp] theorem deliverHost_lastDeviceFlag (r : TransferResult) :
    (deliverHost r s).lastDeviceFlag = s.lastDeviceFlag := rfl
@[simp] theorem deliverHost_rom (r : TransferResult) : (deliverHost r s).rom = s.rom := rfl
@[simp] theorem deliverHost_lastZero (r : TransferResult) :
    (deliverHost r s).lastZero = s.lastZero := rfl
@[simp] theorem deliverHost_searchCrc (r : TransferResult) :
    (deliverHost r s).searchCrc = s.searchCrc := rfl
@[simp] theorem deliverHost_m (r : TransferResult) : (deliverHost r s).m = s.m := rfl
@[simp] theorem deliverHost_mAddr (r : TransferResult) : (deliverHost r s).mAddr = s.mAddr := rfl
@[simp] theorem deliverHost_mClient (r : TransferResult) :
    (deliverHost r s).mClient = s.mClient := rfl
@[simp] theorem deliverHost_mResult (r : TransferResult) :
    (deliverHost r s).mResult = s.mResult := rfl
@[simp] theorem deliverHost_dp (r : TransferResult) : (deliverHost r s).dp = s.dp := rfl
@[simp] theorem deliverHost_dpOp (r : TransferResult) : (deliverHost r s).dpOp = s.dpOp := rfl
@[simp] theorem deliverHost_sp (r : TransferResult) : (deliverHost r s).sp = s.sp := rfl
@[simp] theorem deliverHost_dpCrc (r : TransferResult) : (deliverHost r s).dpCrc = s.dpCrc := rfl
@[simp] theorem deliverHost_lkg (r : TransferResult) : (deliverHost r s).lkg = s.lkg := rfl
@[simp] theorem deliverHost_lkgValid (r : TransferResult) :
    (deliverHost r s).lkgValid = s.lkgValid := rfl
@[simp] theorem deliverHost_lastValid (r : TransferResult) :
    (deliverHost r s).lastValid = s.lastValid := rfl
@[simp] theorem deliverHost_pullup (r : TransferResult) : (deliverHost r s).pullup = s.pullup := rfl
@[simp] theorem deliverHost_call (r : TransferResult) : (deliverHost r s).call = s.call := rfl
@[simp] theorem deliverHost_inbox (r : TransferResult) : (deliverHost r s).inbox = s.inbox := rfl
@[simp] theorem deliverHost_out (r : TransferResult) :
    (deliverHost r s).out = s.out ++ [.complete (transferKind r) (transferByte r)] := rfl
@[simp] theorem deliverHost_draws (r : TransferResult) : (deliverHost r s).draws = s.draws := rfl
@[simp] theorem deliverHost_cfg (r : TransferResult) : (deliverHost r s).cfg = s.cfg := rfl

/-! `deliverBlocking` -/

@[simp] theorem deliverBlocking_initDone (r : TransferResult) :
    (deliverBlocking r s).initDone = s.initDone := rfl
@[simp] theorem deliverBlocking_eng (r : TransferResult) : (deliverBlocking r s).eng = s.eng := rfl
@[simp] theorem deliverBlocking_engData (r : TransferResult) :
    (deliverBlocking r s).engData = s.engData := rfl
@[simp] theorem deliverBlocking_engCont (r : TransferResult) :
    (deliverBlocking r s).engCont = s.engCont := rfl
@[simp] theorem deliverBlocking_slotOut (r : TransferResult) :
    (deliverBlocking r s).slotOut = s.slotOut := rfl
@[simp] theorem deliverBlocking_baud (r : TransferResult) :
    (deliverBlocking r s).baud = s.baud := rfl
@[simp] theorem deliverBlocking_rx (r : TransferResult) : (deliverBlocking r s).rx = s.rx := rfl
@[simp] theorem deliverBlocking_presence (r : TransferResult) :
    (deliverBlocking r s).presence = s.presence := rfl
@[simp] theorem deliverBlocking_xferDone (r : TransferResult) :
    (deliverBlocking r s).xferDone = s.xferDone := rfl
@[simp] theorem deliverBlocking_xferKind (r : TransferResult) :
    (deliverBlocking r s).xferKind = s.xferKind := rfl
@[simp] theorem deliverBlocking_xferValue (r : TransferResult) :
    (deliverBlocking r s).xferValue = s.xferValue := rfl
@[simp] theorem deliverBlocking_blkDone (r : TransferResult) :
    (deliverBlocking r s).blkDone = true := rfl
@[simp] theorem deliverBlocking_blkValue (r : TransferResult) :
    (deliverBlocking r s).blkValue = transferByte r := rfl
@[simp] theorem deliverBlocking_syncEcho (r : TransferResult) :
    (deliverBlocking r s).syncEcho = s.syncEcho := rfl
@[simp] theorem deliverBlocking_hostWait (r : TransferResult) :
    (deliverBlocking r s).hostWait = s.hostWait := rfl
@[simp] theorem deliverBlocking_lastDiscrepancy (r : TransferResult) :
    (deliverBlocking r s).lastDiscrepancy = s.lastDiscrepancy := rfl
@[simp] theorem deliverBlocking_lastFamilyDiscrepancy (r : TransferResult) :
    (deliverBlocking r s).lastFamilyDiscrepancy = s.lastFamilyDiscrepancy := rfl
@[simp] theorem deliverBlocking_lastDeviceFlag (r : TransferResult) :
    (deliverBlocking r s).lastDeviceFlag = s.lastDeviceFlag := rfl
@[simp] theorem deliverBlocking_rom (r : TransferResult) : (deliverBlocking r s).rom = s.rom := rfl
@[simp] theorem deliverBlocking_lastZero (r : TransferResult) :
    (deliverBlocking r s).lastZero = s.lastZero := rfl
@[simp] theorem deliverBlocking_searchCrc (r : TransferResult) :
    (deliverBlocking r s).searchCrc = s.searchCrc := rfl
@[simp] theorem deliverBlocking_m (r : TransferResult) : (deliverBlocking r s).m = s.m := rfl
@[simp] theorem deliverBlocking_mAddr (r : TransferResult) :
    (deliverBlocking r s).mAddr = s.mAddr := rfl
@[simp] theorem deliverBlocking_mClient (r : TransferResult) :
    (deliverBlocking r s).mClient = s.mClient := rfl
@[simp] theorem deliverBlocking_mResult (r : TransferResult) :
    (deliverBlocking r s).mResult = s.mResult := rfl
@[simp] theorem deliverBlocking_dp (r : TransferResult) : (deliverBlocking r s).dp = s.dp := rfl
@[simp] theorem deliverBlocking_dpOp (r : TransferResult) :
    (deliverBlocking r s).dpOp = s.dpOp := rfl
@[simp] theorem deliverBlocking_sp (r : TransferResult) : (deliverBlocking r s).sp = s.sp := rfl
@[simp] theorem deliverBlocking_dpCrc (r : TransferResult) :
    (deliverBlocking r s).dpCrc = s.dpCrc := rfl
@[simp] theorem deliverBlocking_lkg (r : TransferResult) : (deliverBlocking r s).lkg = s.lkg := rfl
@[simp] theorem deliverBlocking_lkgValid (r : TransferResult) :
    (deliverBlocking r s).lkgValid = s.lkgValid := rfl
@[simp] theorem deliverBlocking_lastValid (r : TransferResult) :
    (deliverBlocking r s).lastValid = s.lastValid := rfl
@[simp] theorem deliverBlocking_pullup (r : TransferResult) :
    (deliverBlocking r s).pullup = s.pullup := rfl
@[simp] theorem deliverBlocking_call (r : TransferResult) :
    (deliverBlocking r s).call = s.call := rfl
@[simp] theorem deliverBlocking_inbox (r : TransferResult) :
    (deliverBlocking r s).inbox = s.inbox := rfl
@[simp] theorem deliverBlocking_out (r : TransferResult) : (deliverBlocking r s).out = s.out := rfl
@[simp] theorem deliverBlocking_draws (r : TransferResult) :
    (deliverBlocking r s).draws = s.draws := rfl
@[simp] theorem deliverBlocking_cfg (r : TransferResult) : (deliverBlocking r s).cfg = s.cfg := rfl

/-! `initState` -/

@[simp] theorem initState_initDone : (initState s).initDone = true := rfl
@[simp] theorem initState_eng : (initState s).eng = .idle := rfl
@[simp] theorem initState_engData : (initState s).engData = Config.freeByte s.draws := rfl
@[simp] theorem initState_engCont : (initState s).engCont = .none := rfl
@[simp] theorem initState_slotOut : (initState s).slotOut = none := rfl
@[simp] theorem initState_baud : (initState s).baud = .normal := rfl
@[simp] theorem initState_rx : (initState s).rx = s.cfg.idleMarker := rfl
@[simp] theorem initState_presence : (initState s).presence = false := rfl
@[simp] theorem initState_xferDone : (initState s).xferDone = false := rfl
@[simp] theorem initState_xferKind : (initState s).xferKind = Config.freeKind s.draws := rfl
@[simp] theorem initState_xferValue : (initState s).xferValue = Config.freeByte (s.draws + 1) := rfl
@[simp] theorem initState_blkDone : (initState s).blkDone = false := rfl
@[simp] theorem initState_blkValue : (initState s).blkValue = Config.freeByte (s.draws + 2) := rfl
@[simp] theorem initState_syncEcho : (initState s).syncEcho = none := rfl
@[simp] theorem initState_hostWait : (initState s).hostWait = .none := rfl
@[simp] theorem initState_lastDiscrepancy : (initState s).lastDiscrepancy = 0 := rfl
@[simp] theorem initState_lastFamilyDiscrepancy : (initState s).lastFamilyDiscrepancy = 0 := rfl
@[simp] theorem initState_lastDeviceFlag : (initState s).lastDeviceFlag = false := rfl
@[simp] theorem initState_rom : (initState s).rom = 0#64 := rfl
@[simp] theorem initState_lastZero : (initState s).lastZero = 0 := rfl
@[simp] theorem initState_searchCrc : (initState s).searchCrc = 0#8 := rfl
@[simp] theorem initState_m : (initState s).m = .idle := rfl
@[simp] theorem initState_mAddr : (initState s).mAddr = Config.freeAddr s.draws := rfl
@[simp] theorem initState_mClient : (initState s).mClient = Config.freeClient s.draws := rfl
@[simp] theorem initState_mResult : (initState s).mResult = .none := rfl
@[simp] theorem initState_dp : (initState s).dp = .idle := rfl
@[simp] theorem initState_dpOp : (initState s).dpOp = Config.freeOp s.draws := rfl
@[simp] theorem initState_sp : (initState s).sp = Config.freeScratchpad s.draws := rfl
@[simp] theorem initState_dpCrc : (initState s).dpCrc = 0#8 := rfl
@[simp] theorem initState_lkg : (initState s).lkg = s.cfg.lkgInit := rfl
@[simp] theorem initState_lkgValid : (initState s).lkgValid = false := rfl
@[simp] theorem initState_lastValid : (initState s).lastValid = false := rfl
@[simp] theorem initState_pullup : (initState s).pullup = .weak := rfl
@[simp] theorem initState_call : (initState s).call = .none := rfl
@[simp] theorem initState_inbox : (initState s).inbox = s.inbox := rfl
@[simp] theorem initState_out : (initState s).out = s.out ++ [.baud .normal, .line .weak] := rfl
@[simp] theorem initState_draws : (initState s).draws = s.draws + 3 := rfl
@[simp] theorem initState_cfg : (initState s).cfg = s.cfg := rfl

end Sys2Proof.Machine
end

