-- ==== Sys2Proof/Laws/Ops.lean ====
section
/-! SUPPORT. For each shared operation, one lemma that says what it can do: the fields of a command
word, a bit written into a word, the guard of a host operation, a start with a free or a busy engine,
the match start, and the next input. Later proofs cite these and unfold none of the operations. -/

namespace Sys2Proof

/-- The OPC of a word built from its fields (R75). -/
@[simp] theorem opcOf_wordOf (imm opc : Byte) : opcOf (wordOf imm opc) = opc := by
  simp only [opcOf, wordOf, ← BitVec.setWidth_eq_extractLsb' (by decide : (8 : Nat) ≤ 8 + 8),
    BitVec.setWidth_append, Nat.le_refl, dite_true, BitVec.setWidth_eq]

/-- The IMM8 of a word built from its fields (R75). -/
@[simp] theorem imm8Of_wordOf (imm opc : Byte) : imm8Of (wordOf imm opc) = imm := by
  simp only [imm8Of, wordOf, BitVec.extractLsb'_append_eq_of_le (Nat.le_refl 8)]
  simp

/-- A word is built from its fields (R75). -/
theorem wordOf_fields (w : Word) : wordOf (imm8Of w) (opcOf w) = w := by
  have h : imm8Of w ++ opcOf w = w.extractLsb' 0 (8 + 8) :=
    BitVec.extractLsb'_append_extractLsb'_eq_extractLsb' (start₁ := 0) rfl
  simpa [wordOf] using h

/-- An immediate of `sendSlot` is legal exactly when it is 0 or 1 (R78). -/
theorem slotOperandLegal_iff : ∀ imm : Byte, slotOperandLegal imm = true ↔ imm.toNat < 2 := by
  decide

end Sys2Proof

namespace Sys2Proof.Machine

variable {s t : State}

/-- A written bit is the one written; every other bit stays (R53, R94). -/
theorem getLsbD_setBit {w : Nat} (v : BitVec w) (i : Nat) (b : Bool) (h : i < w) (j : Nat) :
    (setBit v i b).getLsbD j = if j = i then b else v.getLsbD j := by
  unfold setBit
  by_cases hj : j = i
  · subst hj; cases b <;> simp [h]
  · cases b <;> simp [Ne.symm hj, hj]
    exact fun hv => BitVec.lt_of_getLsbD hv

/-! The conditions. -/

/-- Nothing is in flight. -/
theorem not_engBusy : ¬s.engBusy ↔ s.eng = .idle ∧ s.slotOut = none := by
  simp only [State.engBusy, ne_eq, not_or, Decidable.not_not]

/-- `EV_SPIN_TIMEOUT` is enabled exactly at an await whose condition does not hold (R97). -/
theorem awaiting_iff :
    s.awaiting = true ↔ (s.hostWait = .slot ∧ s.syncEcho = none) ∨
      ((s.hostWait = .reset ∨ s.hostWait = .write ∨ s.hostWait = .read) ∧ s.blkDone = false) := by
  unfold State.awaiting; cases s.hostWait <;> simp

/-! Host operations and starts. -/

/-- A host operation runs when HOST can issue it (R7, R142). -/
theorem hostOp_ready (h : s.ready) (run : State → Outcome) : hostOp s run = run s := by
  simp only [hostOp, h.1, h.2, if_true]

/-- A next state of a host operation is that of its run, or the `Illegal` before `init` (R142). -/
theorem hostOp_next {run : State → Outcome} (h : hostOp s run = .next t) :
    (s.initDone = false ∧ t = s.illegal) ∨ (s.ready ∧ run s = .next t) := by
  unfold hostOp at h
  split at h
  · split at h
    · exact .inr ⟨⟨‹_›, ‹_›⟩, h⟩
    · cases h
  · cases h; exact .inl ⟨by simpa using ‹¬s.initDone = true›, rfl⟩

/-- A start with nothing in flight is accepted (R88 to R90). -/
theorem startWith_free (h : ¬s.engBusy) (accept : State → State) :
    startWith accept s = (accept s, .ok) := if_neg h

/-- A start with a transfer or a slot in flight is `Busy`: logged, nothing changed (R87). -/
theorem startWith_busy (h : s.engBusy) (accept : State → State) :
    startWith accept s = (s.emit (.log (.error .busy)), .busy) := if_pos h

theorem startReset_free (c : Cont) (h : ¬s.engBusy) : startReset c s = (acceptReset c s, .ok) :=
  startWith_free h _

theorem startWriteByte_free (v : Byte) (c : Cont) (h : ¬s.engBusy) :
    startWriteByte v c s = (acceptWrite v c s, .ok) := startWith_free h _

theorem startReadByte_free (c : Cont) (h : ¬s.engBusy) : startReadByte c s = (acceptRead c s, .ok) :=
  startWith_free h _

/-- A slot of `sendSlot` with nothing in flight (R86). -/
theorem startSlot_free (b : Bool) (h : ¬s.engBusy) :
    startSlot b s = ({ s with
      syncEcho := none, hostWait := .slot, slotOut := some (.sync, slotByte s.cfg b),
      out := s.out ++ [.tx (slotByte s.cfg b) .normal] }, .ok) := startWith_free h _

theorem startSlot_busy (b : Bool) (h : s.engBusy) :
    startSlot b s = (s.emit (.log (.error .busy)), .busy) := startWith_busy h _

/-- The wrappers up to their await, with nothing in flight (R98, R99, R100). -/
theorem blockReset_free (h : ¬s.engBusy) :
    blockReset s = ({ acceptReset .blocking s with blkDone := false, hostWait := .reset }, .ok) := by
  simp only [blockReset, startReset_free _ h, blockOn, if_true]

theorem blockWrite_free (v : Byte) (h : ¬s.engBusy) :
    blockWrite v s = ({ acceptWrite v .blocking s with blkDone := false, hostWait := .write }, .ok) := by
  simp only [blockWrite, startWriteByte_free _ _ h, blockOn, if_true]

theorem blockRead_free (h : ¬s.engBusy) :
    blockRead s = ({ acceptRead .blocking s with blkDone := false, hostWait := .read }, .ok) := by
  simp only [blockRead, startReadByte_free _ h, blockOn, if_true]

theorem blockReset_busy (h : s.engBusy) :
    blockReset s = (s.emit (.log (.error .busy)), .busy) := by
  simp only [blockReset, startReset, startWith_busy h, blockOn, reduceCtorEq, if_false]

theorem blockWrite_busy (v : Byte) (h : s.engBusy) :
    blockWrite v s = (s.emit (.log (.error .busy)), .busy) := by
  simp only [blockWrite, startWriteByte, startWith_busy h, blockOn, reduceCtorEq, if_false]

theorem blockRead_busy (h : s.engBusy) :
    blockRead s = (s.emit (.log (.error .busy)), .busy) := by
  simp only [blockRead, startReadByte, startWith_busy h, blockOn, reduceCtorEq, if_false]

/-- A slot inside a search pass, with nothing in flight (R109). -/
theorem passSlot_free (c : SearchCaller) (pt : PassPoint) (b : Bool) (h : ¬s.engBusy) :
    passSlot c pt b s = .next { s with
      syncEcho := none, hostWait := .slot, slotOut := some (.sync, slotByte s.cfg b),
      call := .search c pt, out := s.out ++ [.tx (slotByte s.cfg b) .normal] } := by
  simp only [passSlot, startSlot_free b h, if_true]

/-! The match sequencer and the Device Protocol. -/

/-- A match with nothing in flight is accepted: the address is recorded, the reset sent (R116). -/
theorem matchStart_free (a : Addr) (c : MatchClient) (hm : s.m = .idle) (h : ¬s.engBusy) :
    matchStart a c s = ({ acceptReset .romMatch { s with
      mAddr := a, mClient := c, mResult := .pending } with m := .reset }, .ok) := by
  have h' : ¬State.engBusy { s with mAddr := a, mClient := c, mResult := .pending } := h
  rw [matchStart, if_neg (not_not.mpr hm), if_neg h, acceptMatch, startReset_free _ h']

/-- A match while one runs, or with a transfer in flight, is `Busy`: logged, nothing changed (R116). -/
theorem matchStart_busy (a : Addr) (c : MatchClient) (h : s.m ≠ .idle ∨ s.engBusy) :
    matchStart a c s = (s.emit (.log (.error .busy)), .busy) := by
  by_cases hm : s.m = .idle
  · simp only [matchStart, hm, ne_eq, not_true_eq_false, if_false, h.resolve_left (not_not.mpr hm),
      if_true, logError_eq]
  · simp only [matchStart, hm, ne_eq, not_false_eq_true, if_true, logError_eq]

/-- The gate writes the last-known-good fields and the validity flag, and logs; nothing else (R131). -/
theorem gate_eq (x : Tenths) :
    gate x s = { s with
      out := (gate x s).out, lkg := (gate x s).lkg, lkgValid := (gate x s).lkgValid,
      lastValid := (gate x s).lastValid } := by
  unfold gate; split
  · split <;> rfl
  · rfl

/-! The last slot of a byte, and the last byte of the scratchpad. -/

/-- The echo of write slot 7 ends the transfer (R93). -/
theorem echoWrite_last (s : State) : echoWrite 7 s = completeTransfer .writeDone s := rfl

/-- The echo of read slot 7 ends the transfer with the accumulator (R94). -/
theorem echoRead_last (e : Byte) (s : State) :
    echoRead 7 e s =
      completeTransfer (.readDone (setBit s.engData 7 (decodeBit s.cfg e)))
        { s with engData := setBit s.engData 7 (decodeBit s.cfg e) } := rfl

/-- The ninth scratchpad byte is folded, the pair of bytes 0 and 1 decoded and gated, and the buffer
discarded (R129, R40). -/
theorem dpByteDone_last (v : Byte) (s : State) :
    dpByteDone 8 v s =
      freshScratchpad { gate (decodeTemperature s.sp[0] s.sp[1])
        { s with sp := s.sp.set 8 v, dpCrc := crc8Step s.dpCrc v } with dp := .done } := by
  have h0 : (s.sp.set 8 v)[0] = s.sp[0] := Vector.getElem_set_ne _ _ (by decide)
  have h1 : (s.sp.set 8 v)[1] = s.sp[1] := Vector.getElem_set_ne _ _ (by decide)
  rw [← h0, ← h1]
  simp only [dpByteDone, scratchpadLen_val]
  rfl

/-- A deviation is a jump when it exceeds the threshold either way (R131). -/
theorem isJump_iff (x : Tenths) :
    isJump s x = true ↔
      s.lkgValid = true ∧ (x.toInt - s.lkg.toInt > (s.cfg.jumpThreshold : Int) ∨
        s.lkg.toInt - x.toInt > (s.cfg.jumpThreshold : Int)) := by
  have h : ∀ (n : Nat) (d : Int), n < d.natAbs ↔ d > (n : Int) ∨ -d > (n : Int) := by omega
  rw [isJump, Bool.and_eq_true, decide_eq_true_iff, h, Int.neg_sub]

/-! The next input. -/

/-- An echo event is fetched as such (R76, R91). -/
@[simp] theorem fetch_echoInput (e : Byte) : fetch (echoInput e) = .event (.evEcho e) := by
  simp [fetch, echoInput, decodeEvent, decode, decodeFields, Instr.isEvent]

/-- A step that takes an echo: the receive handler, then HOST at its await. -/
theorem step_echo {e : Byte} {rest : List Input} (h : s.inbox = echoInput e :: rest) :
    step s = afterEvent (execEvEcho e { s with inbox := rest }) := by
  simp only [step, h, fetch_echoInput, exec]

/-- A step with nothing to come changes nothing (R147). -/
theorem step_empty (h : s.inbox = []) : step s = .next s := by simp only [step, h]

/-- HOST goes on only if it is blocked. -/
theorem hostResume_none (h : s.hostWait = .none) : hostResume s = .next s := by
  simp only [hostResume, h]

/-- HOST stays where it is while the awaited condition does not hold. -/
theorem hostResume_awaiting (h : s.awaiting = true) : hostResume s = .next s := by
  rcases awaiting_iff.1 h with ⟨hw, he⟩ | ⟨hw | hw | hw, he⟩ <;> simp [hostResume, hw, he]

/-- A fetched host operation is no event (R78). -/
theorem not_isEvent_of_fetch_operation {x : Input} {i : Instr} (h : fetch x = .operation i) :
    i.isEvent = false := by
  cases x with
  | command c =>
    simp only [fetch, decodeCommand] at h
    cases hd : decode c with
    | error r => simp [hd] at h
    | ok j =>
      cases hj : j.isEvent <;> simp only [hd, hj, if_true, Bool.false_eq_true, if_false] at h
      · cases h; exact hj
      · cases h
  | event w =>
    simp only [fetch, decodeEvent] at h
    split at h
    · split at h <;> cases h
    · cases h

/-- A fetched event is one (R76). -/
theorem isEvent_of_fetch_event {x : Input} {i : Instr} (h : fetch x = .event i) :
    i.isEvent = true := by
  cases x with
  | command c =>
    simp only [fetch] at h
    split at h <;> cases h
  | event w =>
    simp only [fetch, decodeEvent] at h
    split at h
    · split at h
      · cases h; assumption
      · cases h
    · cases h

end Sys2Proof.Machine
end

