-- ==== Sys2Proof/Laws/Coherent.lean ====
section
/-! SUPPORT. What each shared operation does to a coherent state (`State.Coherent`): the engine's
starts, the blocking wrappers, the pieces of a search, and the completion of a transfer. -/

namespace Sys2Proof.Machine

variable {s t m : State}

/-! ### Reading and building coherence -/

/-- The fields that coherence does not look at may change. -/
theorem State.Coherent.of_irrelevant (h : s.Coherent)
    (e : t = { s with
      out := t.out, inbox := t.inbox, draws := t.draws, rx := t.rx, presence := t.presence,
      xferDone := t.xferDone, xferKind := t.xferKind, xferValue := t.xferValue, sp := t.sp,
      dpCrc := t.dpCrc, lkg := t.lkg, lkgValid := t.lkgValid, lastValid := t.lastValid,
      blkValue := t.blkValue, rom := t.rom, searchCrc := t.searchCrc,
      lastDeviceFlag := t.lastDeviceFlag }) : t.Coherent := by
  obtain ⟨a, b, c, d, e', f, g, h, i, j, k⟩ := h
  rw [e]
  exact ⟨a, b, c, d, e', f, g, h, i, j, k⟩

/-- The search positions may move within their bounds. -/
theorem State.Coherent.of_positions (h : s.Coherent)
    (e : t = { s with
      lastDiscrepancy := t.lastDiscrepancy, lastFamilyDiscrepancy := t.lastFamilyDiscrepancy,
      lastZero := t.lastZero, lastDeviceFlag := t.lastDeviceFlag, rom := t.rom,
      searchCrc := t.searchCrc })
    (hp : t.lastDiscrepancy ≤ 64 ∧ t.lastFamilyDiscrepancy ≤ 8 ∧ t.lastZero ≤ 64) :
    t.Coherent := by
  obtain ⟨a, b, c, d, e', f, g, h, i, j, k⟩ := h
  rw [e]
  exact ⟨a, b, c, d, e', f, g, h, i, hp, k⟩

/-- With nothing in flight, everything is idle. -/
theorem State.Coherent.all_idle (h : s.Coherent) (hb : ¬s.engBusy) :
    s.eng = .idle ∧ s.slotOut = none ∧ s.engCont = .none ∧ s.m = .idle ∧ s.baud = .normal ∧
      (s.dp = .idle ∨ s.dp = .done) := by
  obtain ⟨he, hs⟩ := not_engBusy.1 hb
  have hc := h.cont.2 he
  have hm : s.m = .idle := by
    have := h.matching
    cases hm : s.m <;> simp_all [State.matchFits, State.writing]
  refine ⟨he, hs, hc, hm, ?_, ?_⟩
  · have := h.baud
    cases hd : s.baud <;> simp_all
  · have := h.device
    cases hd : s.dp <;> simp_all [State.dpFits, State.writing]

/-- While HOST's own transfer is in flight, the sequencers are idle. -/
theorem State.Coherent.sequencers_idle (h : s.Coherent)
    (hc : s.engCont = .hostAsync ∨ s.engCont = .blocking) :
    s.m = .idle ∧ (s.dp = .idle ∨ s.dp = .done) ∧ s.mResult ≠ .pending := by
  have h1 := h.matching
  have h2 := h.device
  have h3 := h.result
  have hm : s.m = .idle := by cases hm : s.m <;> simp_all [State.matchFits, State.writing]
  refine ⟨hm, ?_, by simp [h3, hm]⟩
  cases hd : s.dp <;> simp_all [State.dpFits, State.writing]

/-- While a sequencer's transfer is in flight, HOST is not blocked. -/
theorem State.Coherent.not_blocked (h : s.Coherent)
    (hc : s.engCont = .romMatch ∨ s.engCont = .dp) : s.hostWait = .none ∧ s.call = .none := by
  have := h.host
  have hct := h.cont
  cases hw : s.hostWait <;> simp_all [State.hostFits]

/-- Outside a reset the line is at the normal rate. -/
theorem State.Coherent.baud_normal (h : s.Coherent) (hn : s.eng ≠ .resetPending) :
    s.baud = .normal := by
  have := h.baud
  cases hb : s.baud <;> simp_all

/-- A HOST that is not blocked has no operation under way. -/
theorem State.Coherent.no_call (h : s.Coherent) (hw : s.hostWait = .none) :
    State.Coherent { s with call := .none } := by
  have := h.host
  simp only [State.hostFits, hw] at this
  rw [← this]
  exact h

/-- A state whose byte write is at its first slot. -/
theorem coherent_of_write (c : Cont) (v : Byte) (hi : t.initDone = true)
    (he : t.eng = .writePending 0) (hs : t.slotOut = some (.engine, writeSlot t.cfg v 0))
    (hv : t.engData = v) (hc : t.engCont = c) (hn : c ≠ .none) (hb : t.baud = .normal)
    (hm : t.matchFits) (hr : t.mResult = .pending ↔ t.m ≠ .idle) (hd : t.dpFits) (hh : t.hostFits)
    (hp : t.lastDiscrepancy ≤ 64 ∧ t.lastFamilyDiscrepancy ≤ 8 ∧ t.lastZero ≤ 64)
    (hg : t.cfg.resetPattern ≠ t.cfg.idleMarker) : t.Coherent :=
  ⟨by simp [hi], by simp [State.slotFits, he, hs, hv], by simp [hc, he, hn], by simp [hb, he],
    by simp [he], hm, hr, hd, hh, hp, hg⟩

/-- A state whose byte read is at its first slot. -/
theorem coherent_of_read (c : Cont) (hi : t.initDone = true) (he : t.eng = .readPending 0)
    (hs : t.slotOut = some (.engine, t.cfg.slotOne)) (hv : t.engData = 0#8) (hc : t.engCont = c)
    (hn : c ≠ .none) (hb : t.baud = .normal) (hm : t.matchFits)
    (hr : t.mResult = .pending ↔ t.m ≠ .idle) (hd : t.dpFits) (hh : t.hostFits)
    (hp : t.lastDiscrepancy ≤ 64 ∧ t.lastFamilyDiscrepancy ≤ 8 ∧ t.lastZero ≤ 64)
    (hg : t.cfg.resetPattern ≠ t.cfg.idleMarker) : t.Coherent :=
  ⟨by simp [hi], by simp [State.slotFits, he, hs], by simp [hc, he, hn], by simp [hb, he],
    by simp [hv], hm, hr, hd, hh, hp, hg⟩

/-- A state with nothing in flight. -/
theorem coherent_of_idle (hi : t.initDone = true) (he : t.eng = .idle) (hs : t.slotOut = none)
    (hc : t.engCont = .none) (hb : t.baud = .normal) (hm : t.m = .idle)
    (hr : t.mResult ≠ .pending) (hd : t.dp = .idle ∨ t.dp = .done) (hh : t.hostFits)
    (hp : t.lastDiscrepancy ≤ 64 ∧ t.lastFamilyDiscrepancy ≤ 8 ∧ t.lastZero ≤ 64)
    (hg : t.cfg.resetPattern ≠ t.cfg.idleMarker) : t.Coherent := by
  refine ⟨by simp [hi], by simp [State.slotFits, he, hs], by simp [hc, he], by simp [hb, he],
    by simp [he], by simp [State.matchFits, hm, hc], by simp [hr, hm], ?_, hh, hp, hg⟩
  rcases hd with hd | hd <;> simp [State.dpFits, hd, hc, hm]

/-! ### Outputs, returns and starts -/

theorem State.Coherent.emit (h : s.Coherent) (e : OutEvent) : (s.emit e).Coherent :=
  h.of_irrelevant rfl

/-- A return leaves HOST free. -/
theorem coherent_ret (h : State.Coherent { s with call := .none }) (st : Status) (v : RetVal) :
    (s.ret st v).Coherent := h.of_irrelevant rfl

/-- A start accepted for HOST. -/
theorem coherent_acceptReset (c : Cont) (hc : c = .hostAsync ∨ c = .blocking) (h : s.Coherent)
    (hr : s.ready) (hb : ¬s.engBusy) : (acceptReset c s).Coherent := by
  have f := h.all_idle hb
  obtain ⟨a1, a2, a3, a4, a5, a6, a7, a8, a9, a10, a11⟩ := h
  rcases hc with rfl | rfl <;> rcases f with ⟨f1, f2, f3, f4, f5, f6 | f6⟩ <;> constructor
  all_goals simp_all [State.slotFits, State.matchFits, State.dpFits, State.hostFits]

theorem coherent_acceptWrite (v : Byte) (c : Cont) (hc : c = .hostAsync ∨ c = .blocking)
    (h : s.Coherent) (hr : s.ready) (hb : ¬s.engBusy) : (acceptWrite v c s).Coherent := by
  have f := h.all_idle hb
  obtain ⟨a1, a2, a3, a4, a5, a6, a7, a8, a9, a10, a11⟩ := h
  rcases hc with rfl | rfl <;> rcases f with ⟨f1, f2, f3, f4, f5, f6 | f6⟩ <;> constructor
  all_goals simp_all [State.slotFits, State.matchFits, State.dpFits, State.hostFits]

theorem coherent_acceptRead (c : Cont) (hc : c = .hostAsync ∨ c = .blocking) (h : s.Coherent)
    (hr : s.ready) (hb : ¬s.engBusy) : (acceptRead c s).Coherent := by
  have f := h.all_idle hb
  obtain ⟨a1, a2, a3, a4, a5, a6, a7, a8, a9, a10, a11⟩ := h
  rcases hc with rfl | rfl <;> rcases f with ⟨f1, f2, f3, f4, f5, f6 | f6⟩ <;> constructor
  all_goals simp_all [State.slotFits, State.matchFits, State.dpFits, State.hostFits]

/-- A wrapper, or the first reset of a search pass, up to its await. -/
theorem coherent_blockReset (h : State.Coherent { s with call := .none }) (hr : s.ready)
    (hb : ¬s.engBusy) (cl : HostCall) (hc : cl = .direct ∨ ∃ c, cl = .search c .reset) :
    State.Coherent { (blockReset s).1 with call := cl } := by
  have f := h.all_idle hb
  obtain ⟨a1, a2, a3, a4, a5, a6, a7, a8, a9, a10, a11⟩ := h
  rw [blockReset_free hb]
  rcases f with ⟨f1, f2, f3, f4, f5, f6 | f6⟩ <;> constructor
  all_goals simp_all [State.slotFits, State.matchFits, State.dpFits, State.hostFits, State.writing]

theorem coherent_blockWrite (v : Byte) (h : State.Coherent { s with call := .none })
    (hr : s.ready) (hb : ¬s.engBusy) (cl : HostCall)
    (hc : cl = .direct ∨ ∃ c, cl = .search c .command) :
    State.Coherent { (blockWrite v s).1 with call := cl } := by
  have f := h.all_idle hb
  obtain ⟨a1, a2, a3, a4, a5, a6, a7, a8, a9, a10, a11⟩ := h
  rw [blockWrite_free v hb]
  rcases f with ⟨f1, f2, f3, f4, f5, f6 | f6⟩ <;> constructor
  all_goals simp_all [State.slotFits, State.matchFits, State.dpFits, State.hostFits, State.writing]

theorem coherent_blockRead (h : State.Coherent { s with call := .none }) (hr : s.ready)
    (hb : ¬s.engBusy) : State.Coherent { (blockRead s).1 with call := .direct } := by
  have f := h.all_idle hb
  obtain ⟨a1, a2, a3, a4, a5, a6, a7, a8, a9, a10, a11⟩ := h
  rw [blockRead_free hb]
  rcases f with ⟨f1, f2, f3, f4, f5, f6 | f6⟩ <;> constructor
  all_goals simp_all [State.slotFits, State.matchFits, State.dpFits, State.hostFits, State.writing]

/-- A slot of `sendSlot`, or of a search pass, up to its await. -/
theorem coherent_startSlot (b : Bool) (h : State.Coherent { s with call := .none }) (hr : s.ready)
    (hb : ¬s.engBusy) (cl : HostCall)
    (hc : cl = .direct ∨ ∃ c k, cl = .search c (.readAddr k) ∨
      (∃ t, cl = .search c (.readCompl k t)) ∨ ∃ d, cl = .search c (.writeDir k d)) :
    State.Coherent { (startSlot b s).1 with call := cl } := by
  have f := h.all_idle hb
  obtain ⟨a1, a2, a3, a4, a5, a6, a7, a8, a9, a10, a11⟩ := h
  rw [startSlot_free b hb]
  rcases f with ⟨f1, f2, f3, f4, f5, f6 | f6⟩ <;> constructor
  all_goals simp_all [State.slotFits, State.matchFits, State.dpFits, State.hostFits, State.writing]

/-- A match accepted for HOST. -/
theorem coherent_matchStart_host (a : Addr) (h : s.Coherent) (hr : s.ready) (hb : ¬s.engBusy) :
    (matchStart a .host s).1.Coherent := by
  obtain ⟨f1, f2, f3, f4, f5, f6⟩ := h.all_idle hb
  have hh := h.host
  have hp := h.positions
  have hg := h.config
  have ⟨r1, r2⟩ := hr
  rw [matchStart_free _ _ f4 hb]
  refine ⟨by simp [r1], by simp [State.slotFits], by simp, by simp, by simp,
    by simp [State.matchFits], by simp, ?_, ?_, by simpa using hp, by simpa using hg⟩
  · rcases f6 with f6 | f6 <;> simp [State.dpFits, f6]
  · simpa [State.hostFits, r2] using hh

/-- A start accepted by the Device Protocol. -/
theorem coherent_acceptDp (op : DpOp) (a : Addr) (h : s.Coherent) (hr : s.ready)
    (hb : ¬s.engBusy) : (acceptDp op a s).Coherent := by
  obtain ⟨f1, f2, f3, f4, f5, f6⟩ := h.all_idle hb
  have hh := h.host
  have hp := h.positions
  have hg := h.config
  have ⟨r1, r2⟩ := hr
  rw [acceptDp, matchStart_free _ _ (by exact f4) (by exact hb)]
  refine ⟨by simp [r1], by simp [State.slotFits], by simp, by simp, by simp,
    by simp [State.matchFits], by simp, ?_, ?_, by simpa using hp, by simpa using hg⟩
  · simp [State.dpFits]
  · simpa [State.hostFits, r2] using hh

/-! ### The search -/

theorem coherent_clearSearch (h : State.Coherent { s with call := .none }) :
    State.Coherent { s.clearSearch with call := .none } :=
  h.of_positions rfl ⟨by simp, by simp, h.positions.2.2⟩

theorem coherent_searchEnds (h : State.Coherent { s with call := .none }) (c : SearchCaller)
    (st : Status) : (searchEnds c st s).Coherent := by
  cases c <;> exact coherent_ret h _ _

theorem coherent_searchFails (h : State.Coherent { s with call := .none }) (c : SearchCaller)
    (k : ErrorKind) : (searchFails c k s).Coherent :=
  coherent_searchEnds (s := s.clearSearch.logError k)
    ((coherent_clearSearch h).emit (.log (.error k))) c _

theorem coherent_searchNextStart (h : State.Coherent { s with call := .none }) (hr : s.ready)
    (c : SearchCaller) : (searchNextStart c s).Coherent := by
  unfold searchNextStart
  split
  · exact coherent_searchEnds (coherent_clearSearch h) _ _
  · by_cases hb : s.engBusy
    · rw [blockReset_busy hb]
      exact coherent_searchEnds (h.emit (.log (.error .busy))) c .busy
    · have := coherent_blockReset h hr hb (.search c .reset) (.inr ⟨c, rfl⟩)
      rw [blockReset_free hb] at this ⊢
      exact this

theorem coherent_searchFirstStart (h : State.Coherent { s with call := .none }) (hr : s.ready)
    (f : Byte) (c : SearchCaller) : (searchFirstStart f c s).Coherent := by
  have h' := coherent_clearSearch h
  unfold searchFirstStart
  split
  · exact coherent_searchNextStart h' hr _
  · exact coherent_searchNextStart
      (s := { s.clearSearch with rom := f.setWidth 64, lastDiscrepancy := 64 })
      (h'.of_positions rfl ⟨by simp, h'.positions.2⟩) hr _

theorem coherent_searchFound (h : State.Coherent { s with call := .none }) (hr : s.ready)
    (c : SearchCaller) (a : Addr) : (searchFound c a s).Coherent := by
  unfold searchFound
  split
  · exact coherent_ret h _ _
  · split
    · exact coherent_ret (coherent_clearSearch h) _ _
    · exact coherent_ret h _ _
  · dsimp only
    split
    · exact coherent_ret h _ _
    · exact coherent_searchNextStart h hr _

theorem coherent_passEnd (h : State.Coherent { s with call := .none }) (hr : s.ready)
    (c : SearchCaller) : (passEnd c s).Coherent := by
  unfold passEnd
  split
  · exact coherent_searchFails h _ _
  · exact coherent_searchFound
      (s := { s with
        lastDiscrepancy := s.lastZero
        lastDeviceFlag := if s.lastZero = 0 then true else s.lastDeviceFlag })
      (h.of_positions rfl ⟨h.positions.2.2, h.positions.2⟩) hr _ _

/-- A slot of a pass is sent, and the pass waits for it. -/
theorem coherent_passSlot (h : State.Coherent { s with call := .none }) (hr : s.ready)
    (hb : ¬s.engBusy) (c : SearchCaller) (pt : PassPoint) (b : Bool)
    (hp : ∃ k, pt = .readAddr k ∨ (∃ t, pt = .readCompl k t) ∨ ∃ d, pt = .writeDir k d) :
    ∃ t, passSlot c pt b s = .next t ∧ t.Coherent := by
  refine ⟨_, passSlot_free c pt b hb, ?_⟩
  have := coherent_startSlot b h hr hb (.search c pt) (.inr (by
    obtain ⟨k, hk⟩ := hp
    exact ⟨c, k, by rcases hk with hk | ⟨_, hk⟩ | ⟨_, hk⟩ <;> simp [hk]⟩))
  rw [startSlot_free b hb] at this
  exact this

theorem coherent_recordZero (h : State.Coherent { s with call := .none }) (k : Fin 64) :
    State.Coherent { recordZero k s with call := .none } := by
  refine h.of_positions rfl ⟨h.positions.1, ?_, ?_⟩
  · simp only [recordZero]
    split
    · assumption
    · exact h.positions.2.1
  · simp only [recordZero]; omega

/-- `sendSlot`, or a slot of a pass, ends its await. -/
theorem coherent_slotDone (b : Bool) (h : State.Coherent { s with call := .none }) (hr : s.ready)
    (hb : ¬s.engBusy)
    (hc : s.call = .direct ∨ ∃ c k, s.call = .search c (.readAddr k) ∨
      (∃ t, s.call = .search c (.readCompl k t)) ∨ ∃ d, s.call = .search c (.writeDir k d)) :
    ∃ t, slotDone b s = .next t ∧ t.Coherent := by
  rcases hc with hc | ⟨c, k, hc | ⟨t, hc⟩ | ⟨d, hc⟩⟩ <;> simp only [slotDone, hc]
  · exact ⟨_, rfl, coherent_ret h _ _⟩
  · exact coherent_passSlot h hr hb _ _ _ (by simp)
  · unfold passPair
    split
    · exact ⟨_, rfl, coherent_searchFails h _ _⟩
    · split
      · exact coherent_passSlot h hr hb _ _ _ (by simp)
      · dsimp only
        split
        · exact coherent_passSlot h hr hb _ _ _ (by simp)
        · exact coherent_passSlot (coherent_recordZero h k) hr hb _ _ _ (by simp)
  · unfold passDirDone
    have h' : State.Coherent { recordDir k d s with call := .none } := h.of_irrelevant rfl
    dsimp only
    split
    · exact coherent_passSlot h' hr hb _ _ _ (by simp)
    · exact ⟨_, rfl, coherent_passEnd h' hr _⟩

/-- `resetBlocking`, or the reset of a pass, ends its await. -/
theorem coherent_resetDone (p : Bool) (h : State.Coherent { s with call := .none }) (hr : s.ready)
    (hb : ¬s.engBusy) (hc : s.call = .direct ∨ ∃ c, s.call = .search c .reset) :
    ∃ t, resetDone p s = .next t ∧ t.Coherent := by
  rcases hc with hc | ⟨c, hc⟩ <;> simp only [resetDone, hc]
  · exact ⟨_, rfl, coherent_ret h _ _⟩
  · unfold passResetDone
    split
    · have := coherent_blockWrite s.cfg.cmdSearchRom h hr hb (.search c .command) (.inr ⟨c, rfl⟩)
      rw [blockWrite_free _ hb] at this ⊢
      exact ⟨_, if_pos rfl, this⟩
    · exact ⟨_, rfl, coherent_searchFails h _ _⟩

/-- `writeByteBlocking`, or the command of a pass, ends its await. -/
theorem coherent_writeDone (h : State.Coherent { s with call := .none }) (hr : s.ready)
    (hb : ¬s.engBusy) (hc : s.call = .direct ∨ ∃ c, s.call = .search c .command) :
    ∃ t, writeDone s = .next t ∧ t.Coherent := by
  rcases hc with hc | ⟨c, hc⟩ <;> simp only [writeDone, hc]
  · exact ⟨_, rfl, coherent_ret h _ _⟩
  · exact coherent_passSlot (s := { s with lastZero := 0, searchCrc := 0#8 })
      (h.of_positions rfl ⟨h.positions.1, h.positions.2.1, by simp⟩) hr hb _ _ _ (by simp)

/-! ### The completion of a transfer

In each lemma, `s` is the state before the echo and `m` the one in which the last slot has been
taken: the two agree on everything the continuations look at. -/

/-- What the echo of a last slot keeps of the state before it. -/
structure EchoKeeps (s m : State) : Prop where
  initDone : m.initDone = s.initDone
  engCont : m.engCont = s.engCont
  matchState : m.m = s.m
  mClient : m.mClient = s.mClient
  mAddr : m.mAddr = s.mAddr
  mResult : m.mResult = s.mResult
  dp : m.dp = s.dp
  dpOp : m.dpOp = s.dpOp
  pullup : m.pullup = s.pullup
  hostWait : m.hostWait = s.hostWait
  call : m.call = s.call
  lastDiscrepancy : m.lastDiscrepancy = s.lastDiscrepancy
  lastFamilyDiscrepancy : m.lastFamilyDiscrepancy = s.lastFamilyDiscrepancy
  lastZero : m.lastZero = s.lastZero
  cfg : m.cfg = s.cfg
  slotOut : m.slotOut = none
  baud : m.baud = .normal

/-- A transfer HOST started directly. -/
theorem coherent_complete_hostAsync (h : s.Coherent) (hi : s.initDone = true)
    (hc : s.engCont = .hostAsync) (r : TransferResult) (k : EchoKeeps s m) :
    ∃ t, afterEvent (completeTransfer r m) = .next t ∧ t.Coherent := by
  have hne : s.eng ≠ .idle := by have := h.cont; simp_all
  have hw : s.hostWait = .none := by
    have := h.host; cases hw : s.hostWait <;> simp_all [State.hostFits]
  have hcall : s.call = .none := by have := h.host; simp_all [State.hostFits]
  obtain ⟨o1, o2, o3⟩ := h.sequencers_idle (.inl hc)
  obtain ⟨k1, k0, k2, k3, k4, k5, k6, k7, k8, k9, k10, k11, k12, k13, k14, k15, k16⟩ := k
  rw [hc] at k0
  simp only [completeTransfer, k0, deliver, afterEvent]
  rw [hostResume_none (by simp [k9, hw])]
  refine ⟨_, rfl, ?_⟩
  apply coherent_of_idle <;> simp [*, State.hostFits, h.positions, h.config]

/-- A transfer a wrapper or a search pass waits for. -/
theorem coherent_complete_blocking (h : s.Coherent) (hi : s.initDone = true)
    (hc : s.engCont = .blocking) (r : TransferResult) (k : EchoKeeps s m) :
    ∃ t, afterEvent (completeTransfer r m) = .next t ∧ t.Coherent := by
  obtain ⟨o1, o2, o3⟩ := h.sequencers_idle (.inr hc)
  obtain ⟨k1, k0, k2, k3, k4, k5, k6, k7, k8, k9, k10, k11, k12, k13, k14, k15, k16⟩ := k
  have hh := h.host
  have hp := h.positions
  have hg := h.config
  rw [hc] at k0
  simp only [completeTransfer, k0, deliver, afterEvent, hostResume, deliverBlocking_hostWait, k9]
  have idl : State.Coherent
      { deliverBlocking r { m with eng := .idle, engCont := .none } with
        hostWait := .none, call := .none } := by
    apply coherent_of_idle <;> simp [*, State.hostFits]
  have hb : ¬State.engBusy
      { deliverBlocking r { m with eng := .idle, engCont := .none } with hostWait := .none } := by
    simp [k15]
  have hrd : State.ready
      { deliverBlocking r { m with eng := .idle, engCont := .none } with hostWait := .none } := by
    simp [State.ready, hi, k1]
  cases hw : s.hostWait <;> simp only [State.hostFits, hw] at hh
  case none =>
    refine ⟨_, rfl, ?_⟩
    apply coherent_of_idle <;> simp [*, State.hostFits]
  case slot => have := h.cont; simp_all
  case reset =>
    simp only [deliverBlocking_blkDone, if_true]
    exact coherent_resetDone _ idl hrd hb (by simpa [k10] using hh.2.2.2)
  case write =>
    simp only [deliverBlocking_blkDone, if_true]
    exact coherent_writeDone idl hrd hb (by simpa [k10] using hh.2.2.2)
  case read =>
    simp only [deliverBlocking_blkDone, if_true, readDone, deliverBlocking_call, k10, hh.2.2.2]
    exact ⟨_, rfl, coherent_ret idl _ _⟩

/-- The end of a match: HOST's, or the command write of the Device Protocol (R121, R126). -/
theorem coherent_matchDone (h : s.Coherent) (hi : s.initDone = true) (hc : s.engCont = .romMatch)
    (h1 : m.eng = .idle) (h2 : m.engCont = .none)
    (k : EchoKeeps s { m with engCont := s.engCont }) :
    ∃ t, afterEvent (matchDone m) = .next t ∧ t.Coherent := by
  obtain ⟨hw, hca⟩ := h.not_blocked (.inl hc)
  have hd := h.device
  have hp := h.positions
  have hg := h.config
  have hmm : s.m ≠ .idle := by have := h.matching; intro e; simp_all [State.matchFits]
  obtain ⟨k1, -, k2, k3, k4, k5, k6, k7, k8, k9, k10, k11, k12, k13, k14, k15, k16⟩ := k
  dsimp only at k1 k2 k3 k4 k5 k6 k7 k8 k9 k10 k11 k12 k13 k14 k15 k16
  unfold matchDone
  cases hcc : s.mClient <;> simp only [k3, hcc]
  · simp only [afterEvent]
    rw [hostResume_none (by simp [*])]
    refine ⟨_, rfl, coherent_of_idle ?_ ?_ ?_ ?_ ?_ ?_ ?_ ?_ ?_ ?_ ?_⟩ <;>
      try simp [*, State.hostFits]
    cases hdd : s.dp <;> simp_all [State.dpFits, State.writing]
  · have hdd : s.dp = .awaitingMatch := by
      cases hdd : s.dp <;> simp_all [State.dpFits, State.writing]
    simp only [dpStep, k6, hdd, afterEvent]
    simp only [State.dpFits, hdd] at hd
    simp only [dpMatchDone]
    rw [startWriteByte_free _ _ (by exact not_engBusy.2 ⟨h1, k15⟩), hostResume_none (by simp [*])]
    refine ⟨_, rfl, coherent_of_write .dp (dpCommand s.cfg s.dpOp) ?_ ?_ ?_ ?_ ?_ ?_ ?_ ?_ ?_ ?_ ?_ ?_ ?_⟩
      <;> cases hop : s.dpOp <;>
      simp [*, State.hostFits, State.dpFits, State.writing, dpCommand, State.matchFits]

/-- A transfer of the match sequencer (R117 to R121). -/
theorem coherent_complete_match (h : s.Coherent) (hi : s.initDone = true)
    (hc : s.engCont = .romMatch) (r : TransferResult)
    (hr : (s.eng = .resetPending ∧ ∃ p, r = .resetDone p) ∨
      ((∃ i, s.eng = .writePending i) ∧ r = .writeDone)) (k : EchoKeeps s m) :
    ∃ t, afterEvent (completeTransfer r m) = .next t ∧ t.Coherent := by
  have hmt := h.matching
  have hp := h.positions
  have hg := h.config
  obtain ⟨hw, hca⟩ := h.not_blocked (.inl hc)
  have hd := h.device
  have hk : EchoKeeps s { m with eng := .idle, engCont := s.engCont } := by
    obtain ⟨k1, k0, k2, k3, k4, k5, k6, k7, k8, k9, k10, k11, k12, k13, k14, k15, k16⟩ := k
    constructor <;> first | assumption | rfl
  have done : ∃ t, afterEvent (matchDone { m with eng := .idle, engCont := .none }) = .next t ∧
      t.Coherent := coherent_matchDone h hi hc rfl rfl hk
  obtain ⟨k1, k0, k2, k3, k4, k5, k6, k7, k8, k9, k10, k11, k12, k13, k14, k15, k16⟩ := k
  have free : ¬State.engBusy { m with eng := .idle, engCont := .none } :=
    not_engBusy.2 ⟨rfl, k15⟩
  rw [hc] at k0
  have hres := h.result
  simp only [completeTransfer, k0, deliver, matchStep, k2]
  cases hsm : s.m <;> simp only [State.matchFits, hsm] at hmt
  case idle => exact absurd hc hmt
  case reset =>
    have hx : ∃ p, r = .resetDone p := by rcases hr with hr | hr <;> simp_all
    obtain ⟨p, rfl⟩ := hx
    cases p
    · simp only [Bool.false_eq_true, if_false, matchFailed, afterEvent]
      cases hcc : s.mClient
      · rw [hostResume_none (by simp [*])]
        refine ⟨_, rfl, coherent_of_idle ?_ ?_ ?_ ?_ ?_ ?_ ?_ ?_ ?_ ?_ ?_⟩ <;>
          try simp [*, State.hostFits]
        cases hdd : s.dp <;> simp_all [State.dpFits, State.writing]
      · rw [hostResume_none (by simp [*])]
        refine ⟨_, rfl, ?_⟩
        apply coherent_of_idle <;> simp [*, State.hostFits]
    · simp only [if_true, matchCommand, afterEvent]
      split
      · rw [startWriteByte_free _ _ (by exact free), hostResume_none (by simp [*])]
        refine ⟨_, rfl, coherent_of_write .romMatch s.cfg.cmdSkipRom
          ?_ ?_ ?_ ?_ ?_ ?_ ?_ ?_ ?_ ?_ ?_ ?_ ?_⟩ <;>
          try simp [*, State.hostFits, State.writing, State.matchFits]
        cases hdd : s.dp <;> simp_all [State.dpFits, State.writing]
      · rw [startWriteByte_free _ _ (by exact free), hostResume_none (by simp [*])]
        refine ⟨_, rfl, coherent_of_write .romMatch s.cfg.cmdMatchRom
          ?_ ?_ ?_ ?_ ?_ ?_ ?_ ?_ ?_ ?_ ?_ ?_ ?_⟩ <;>
          try simp [*, State.hostFits, State.writing, State.matchFits]
        cases hdd : s.dp <;> simp_all [State.dpFits, State.writing]
  case skipCmd =>
    obtain ⟨-, -, i, hi'⟩ := hmt
    have hx : r = .writeDone := by rcases hr with hr | hr <;> simp_all
    subst hx
    exact done
  case matchCmd =>
    obtain ⟨-, -, i, hi'⟩ := hmt
    have hx : r = .writeDone := by rcases hr with hr | hr <;> simp_all
    subst hx
    simp only [afterEvent, matchSendByte]
    rw [startWriteByte_free _ _ (by exact free), hostResume_none (by simp [*])]
    refine ⟨_, rfl, coherent_of_write .romMatch (addrByte s.mAddr 0)
      ?_ ?_ ?_ ?_ ?_ ?_ ?_ ?_ ?_ ?_ ?_ ?_ ?_⟩ <;>
      try simp [*, State.hostFits, State.writing, State.matchFits]
    cases hdd : s.dp <;> simp_all [State.dpFits, State.writing]
  case addr k =>
    obtain ⟨-, -, i, hi'⟩ := hmt
    have hx : r = .writeDone := by rcases hr with hr | hr <;> simp_all
    subst hx
    dsimp only
    split
    · simp only [afterEvent, matchSendByte]
      rw [startWriteByte_free _ _ (by exact free), hostResume_none (by simp [*])]
      refine ⟨_, rfl, coherent_of_write .romMatch (addrByte s.mAddr (k + 1).val)
        ?_ ?_ ?_ ?_ ?_ ?_ ?_ ?_ ?_ ?_ ?_ ?_ ?_⟩ <;>
        try simp [*, State.hostFits, State.writing, State.matchFits]
      cases hdd : s.dp <;> simp_all [State.dpFits, State.writing]
    · exact done

/-- A transfer of the Device Protocol (R127 to R129). -/
theorem coherent_complete_dp (h : s.Coherent) (hi : s.initDone = true) (hc : s.engCont = .dp)
    (r : TransferResult)
    (hr : s.eng = .resetPending ∨ ((∃ i, s.eng = .writePending i) ∧ r = .writeDone) ∨
      ((∃ i, s.eng = .readPending i) ∧ ∃ v, r = .readDone v)) (k : EchoKeeps s m) :
    ∃ t, afterEvent (completeTransfer r m) = .next t ∧ t.Coherent := by
  have hmt := h.matching
  have hres := h.result
  have hp := h.positions
  have hg := h.config
  obtain ⟨k1, k0, k2, k3, k4, k5, k6, k7, k8, k9, k10, k11, k12, k13, k14, k15, k16⟩ := k
  obtain ⟨hw, hca⟩ := h.not_blocked (.inr hc)
  have hd := h.device
  have hmi : s.m = .idle := by cases hsm : s.m <;> simp_all [State.matchFits, State.writing]
  rw [hc] at k0
  simp only [completeTransfer, k0, deliver, dpStep, k6]
  cases hsd : s.dp <;> simp only [State.dpFits, hsd] at hd
  case idle => exact absurd hc hd.1
  case done => exact absurd hc hd.1
  case awaitingMatch => exact absurd hmi hd.1
  case awaitingCommand =>
    obtain ⟨⟨-, -, i, hi'⟩, hpu⟩ := hd
    have hx : r = .writeDone := by rcases hr with hr | hr | hr <;> simp_all
    subst hx
    simp only [afterEvent, dpCommandDone, k7]
    cases hop : s.dpOp
    · rw [hostResume_none (by simp [*])]
      refine ⟨_, rfl, ?_⟩
      apply coherent_of_idle <;> simp [*, State.hostFits]
    · dsimp only
      rw [startReadByte_free _ (by exact not_engBusy.2 ⟨rfl, k15⟩), hostResume_none (by simp [*])]
      refine ⟨_, rfl, coherent_of_read .dp ?_ ?_ ?_ ?_ ?_ ?_ ?_ ?_ ?_ ?_ ?_ ?_ ?_⟩ <;>
        simp [*, State.hostFits, State.matchFits, State.dpFits]
  case awaitingReadByte k =>
    obtain ⟨-, hop, ⟨i, hi'⟩, hpu⟩ := hd
    have hx : ∃ v, r = .readDone v := by rcases hr with hr | hr | hr <;> simp_all
    obtain ⟨v, rfl⟩ := hx
    simp only [afterEvent, dpByteDone]
    split
    · rw [startReadByte_free _ (by exact not_engBusy.2 ⟨rfl, k15⟩), hostResume_none (by simp [*])]
      refine ⟨_, rfl, coherent_of_read .dp ?_ ?_ ?_ ?_ ?_ ?_ ?_ ?_ ?_ ?_ ?_ ?_ ?_⟩ <;>
        simp [*, State.hostFits, State.matchFits, State.dpFits]
    · rw [gate_eq, hostResume_none (by simp [*])]
      refine ⟨_, rfl, ?_⟩
      apply coherent_of_idle <;> simp [*, State.hostFits]

end Sys2Proof.Machine
end

