-- ==== Sys2Proof/Laws/PerInstr.lean ====
section
/-! SUPPORT. One family of facts per instruction: the word the encoder gives fits the row of
spec/opcode_table.json. -/

namespace Sys2Proof.Laws.EncodingFits

/-- The mask and the match of the instruction's row, as the table has them. -/
def row : Instr → Word × Word
  | .init => (0xFFFF#16, 0x0001#16)
  | .sendSlot _ => (0xFEFF#16, 0x0002#16)
  | .startReset => (0xFFFF#16, 0x0010#16)
  | .startWriteByte _ => (0x00FF#16, 0x0011#16)
  | .startReadByte => (0xFFFF#16, 0x0012#16)
  | .getTransferResult => (0xFFFF#16, 0x0013#16)
  | .resetBlocking => (0xFFFF#16, 0x0014#16)
  | .writeByteBlocking _ => (0x00FF#16, 0x0015#16)
  | .readByteBlocking => (0xFFFF#16, 0x0016#16)
  | .searchFirst _ => (0x00FF#16, 0x0020#16)
  | .searchNext => (0xFFFF#16, 0x0021#16)
  | .familySkip => (0xFFFF#16, 0x0022#16)
  | .searchDevices _ => (0x00FF#16, 0x0023#16)
  | .matchAddress _ => (0xFFFF#16, 0x0030#16)
  | .getMatchResult => (0xFFFF#16, 0x0031#16)
  | .startConversion _ => (0xFFFF#16, 0x0040#16)
  | .startTemperatureRead _ => (0xFFFF#16, 0x0041#16)
  | .getTemperatureResult _ => (0xFFFF#16, 0x0042#16)
  | .evEcho _ => (0x00FF#16, 0x0080#16)
  | .evSpinTimeout => (0xFFFF#16, 0x0081#16)

/-- The encoding of a well-formed instruction has the bits its row fixes (R76, R77, R78). -/
def Statement (i : Instr) : Prop :=
  i.wellFormed = true → (encode i).word &&& (row i).1 = (row i).2

/-- The bits of a word under a mask that covers the operation code and nothing else. -/
theorem opcode_bits (imm opc : Byte) : wordOf imm opc &&& 0x00FF#16 = wordOf 0#8 opc := by
  apply BitVec.eq_of_getLsbD_eq
  intro i hi
  simp only [wordOf, BitVec.getLsbD_and, BitVec.getLsbD_append]
  have h : ∀ j < 16, (0x00FF#16).getLsbD j = decide (j < 8) := by decide
  rw [h i hi]
  by_cases h8 : i < 8 <;> simp [h8]

theorem init : Statement .init := fun _ => by decide

theorem sendSlot (imm : Byte) : Statement (.sendSlot imm) := by
  revert imm; unfold Statement; decide

theorem startReset : Statement .startReset := fun _ => by decide

theorem startWriteByte (v : Byte) : Statement (.startWriteByte v) :=
  fun _ => show wordOf v 0x11#8 &&& 0x00FF#16 = 0x0011#16 from
    (opcode_bits v 0x11#8).trans (by decide)

theorem startReadByte : Statement .startReadByte := fun _ => by decide

theorem getTransferResult : Statement .getTransferResult := fun _ => by decide

theorem resetBlocking : Statement .resetBlocking := fun _ => by decide

theorem writeByteBlocking (v : Byte) : Statement (.writeByteBlocking v) :=
  fun _ => show wordOf v 0x15#8 &&& 0x00FF#16 = 0x0015#16 from
    (opcode_bits v 0x15#8).trans (by decide)

theorem readByteBlocking : Statement .readByteBlocking := fun _ => by decide

theorem searchFirst (f : Byte) : Statement (.searchFirst f) :=
  fun _ => show wordOf f 0x20#8 &&& 0x00FF#16 = 0x0020#16 from
    (opcode_bits f 0x20#8).trans (by decide)

theorem searchNext : Statement .searchNext := fun _ => by decide

theorem familySkip : Statement .familySkip := fun _ => by decide

theorem searchDevices (n : Byte) : Statement (.searchDevices n) :=
  fun _ => show wordOf n 0x23#8 &&& 0x00FF#16 = 0x0023#16 from
    (opcode_bits n 0x23#8).trans (by decide)

theorem matchAddress (a : Addr) : Statement (.matchAddress a) :=
  fun _ => show wordOf 0#8 0x30#8 &&& 0xFFFF#16 = 0x0030#16 by decide

theorem getMatchResult : Statement .getMatchResult := fun _ => by decide

theorem startConversion (a : Addr) : Statement (.startConversion a) :=
  fun _ => show wordOf 0#8 0x40#8 &&& 0xFFFF#16 = 0x0040#16 by decide

theorem startTemperatureRead (a : Addr) : Statement (.startTemperatureRead a) :=
  fun _ => show wordOf 0#8 0x41#8 &&& 0xFFFF#16 = 0x0041#16 by decide

theorem getTemperatureResult (a : Addr) : Statement (.getTemperatureResult a) :=
  fun _ => show wordOf 0#8 0x42#8 &&& 0xFFFF#16 = 0x0042#16 by decide

theorem evEcho (e : Byte) : Statement (.evEcho e) :=
  fun _ => show wordOf e 0x80#8 &&& 0x00FF#16 = 0x0080#16 from
    (opcode_bits e 0x80#8).trans (by decide)

theorem evSpinTimeout : Statement .evSpinTimeout := fun _ => by decide

end Sys2Proof.Laws.EncodingFits
end

