-- ==== Sys2Proof/Tests/Slice0.lean ====
section
/-! SUPPORT. The tests of the model, each expected value taken from the spec where the comment says,
and for every statement with hypotheses a witness that meets them. -/

namespace Sys2Proof.Tests

open Sys2Proof.Machine

/-! ### Helpers -/

/-- The next state, if there is one. -/
def nextOf (o : Outcome) : Option State :=
  match o with
  | .next s => some s
  | _ => none

/-- The refusal, if there is one. -/
def refusalOf (o : Outcome) : Option Refusal :=
  match o with
  | .refused r => some r
  | _ => none

/-- What the ports carry in a step from a state that has carried nothing. -/
def outOf (o : Outcome) : Option (List OutEvent) := (nextOf o).map State.out

/-- A block with nothing in flight, after an `init`. -/
def idle : State := { State.reset with initDone := true }

/-- The same with a slot of the engine in flight. -/
def engine (e : Eng) (c : Cont) (b : Byte) : State :=
  { idle with eng := e, engCont := c, slotOut := some (.engine, b) }

/-- The same with a reset slot in flight. -/
def resetting (c : Cont) : State := { engine .resetPending c 0xF0#8 with baud := .reset }

/-- HOST blocked on a `Sync` slot. -/
def waiting (call : HostCall) : State :=
  { idle with slotOut := some (.sync, 0xFF#8), hostWait := .slot, call := call }

/-- HOST blocked on a transfer. -/
def blocked (w : HostWait) (e : Eng) (call : HostCall) : State :=
  { engine e .blocking 0xFF#8 with hostWait := w, call := call }

/-- The same state with inputs to come. -/
def given (l : List Input) (s : State) : State := { s with inbox := l }

/-- Address A of 95_test_vectors.md. -/
def addrA : Addr := 0x9E06050403020128#64

/-- The first eight bytes of `SP85` (95_test_vectors.md), with byte 8 not read yet. -/
def sp85 : Vector Byte 9 := #v[0x50, 0x05, 0x4B, 0x46, 0x7F, 0xFF, 0x0C, 0x10, 0x00]

/-- The last slot of scratchpad byte 8 in flight, after the eight bytes above: byte 8 is `1C` when
the last echo reads 0, and `9C` when it reads 1. -/
def ninth : State :=
  { engine (.readPending 7) .dp 0xFF#8 with
    engData := 0x1C#8, dp := .awaitingReadByte 8, dpOp := .read, sp := sp85, dpCrc := 0x1C#8 }

/-! ### Well-formedness: the one check, and a term it refuses (R78) -/

theorem test_wellformed_slot_bit : (Instr.sendSlot 1#8).wellFormed = true := by decide
theorem test_illformed_slot_operand : (Instr.sendSlot 2#8).wellFormed = false := by decide

/-! ### Decoding: the words of 30_encoding.md R76 and 95_test_vectors.md section 3.7 -/

theorem test_decode_init : decode ⟨0b0000000000000001#16, 0⟩ = .ok .init := by decide
theorem test_decode_sendSlot : decode ⟨0b0000000100000010#16, 0⟩ = .ok (.sendSlot 1) := by decide
theorem test_decode_startReset : decode ⟨0b0000000000010000#16, 0⟩ = .ok .startReset := by decide
theorem test_decode_startWriteByte :
    decode ⟨0b0101010100010001#16, 0⟩ = .ok (.startWriteByte 0x55) := by decide
theorem test_decode_startReadByte :
    decode ⟨0b0000000000010010#16, 0⟩ = .ok .startReadByte := by decide
theorem test_decode_getTransferResult :
    decode ⟨0b0000000000010011#16, 0⟩ = .ok .getTransferResult := by decide
theorem test_decode_resetBlocking :
    decode ⟨0b0000000000010100#16, 0⟩ = .ok .resetBlocking := by decide
theorem test_decode_writeByteBlocking :
    decode ⟨0b1111000000010101#16, 0⟩ = .ok (.writeByteBlocking 0xF0) := by decide
theorem test_decode_readByteBlocking :
    decode ⟨0b0000000000010110#16, 0⟩ = .ok .readByteBlocking := by decide
theorem test_decode_searchFirst :
    decode ⟨0b0010100000100000#16, 0⟩ = .ok (.searchFirst 0x28) := by decide
theorem test_decode_searchNext :
    decode ⟨0b0000000000100001#16, 0⟩ = .ok .searchNext := by decide
theorem test_decode_familySkip :
    decode ⟨0b0000000000100010#16, 0⟩ = .ok .familySkip := by decide
theorem test_decode_searchDevices :
    decode ⟨0b0000100000100011#16, 0⟩ = .ok (.searchDevices 8) := by decide
theorem test_decode_matchAddress :
    decode ⟨0b0000000000110000#16, addrA⟩ = .ok (.matchAddress addrA) := by decide
theorem test_decode_getMatchResult :
    decode ⟨0b0000000000110001#16, 0⟩ = .ok .getMatchResult := by decide
theorem test_decode_startConversion :
    decode ⟨0b0000000001000000#16, addrA⟩ = .ok (.startConversion addrA) := by decide
theorem test_decode_startTemperatureRead :
    decode ⟨0b0000000001000001#16, 0⟩ = .ok (.startTemperatureRead 0) := by decide
theorem test_decode_getTemperatureResult :
    decode ⟨0b0000000001000010#16, 0⟩ = .ok (.getTemperatureResult 0) := by decide
theorem test_decode_evEcho : decode ⟨0b1110000010000000#16, 0⟩ = .ok (.evEcho 0xE0) := by decide
theorem test_decode_evSpinTimeout :
    decode ⟨0b0000000010000001#16, 0⟩ = .ok .evSpinTimeout := by decide

/-- A reserved OPC, an immediate where none is taken, a slot operand above 1, and an event (R78). -/
theorem test_decode_illegal :
    decodeCommand ⟨0x0003#16, 0⟩ = .error .reservedOpcode ∧
    decodeCommand ⟨0x0110#16, 0⟩ = .error .nonzeroImmediate ∧
    decodeCommand ⟨0x0202#16, 0⟩ = .error .slotOperand ∧
    decodeCommand ⟨0xE080#16, 0⟩ = .error .eventFromHost := by decide

/-- The table word of `matchAddress` with ADDR above its 16 bits (R75). -/
theorem test_table_word : decodeTableWord 80 (0x30 + 2 ^ 16 * 5) = some (.matchAddress 5) ∧
    decodeTableWord 16 (0x30 + 2 ^ 16 * 5) = some (.matchAddress 0) := by decide

/-! ### Slots, presence, CRC8 and decode -/

/-- R83 and the table of 95_test_vectors.md section 3.1: `7F` reads 0, and 1 under `Bit0`. -/
theorem test_decodeBit :
    decodeBit cfgAtReset 0xFF = true ∧ decodeBit cfgAtReset 0xF8 = false ∧
    decodeBit cfgAtReset 0x7F = false ∧
    decodeBit { cfgAtReset with echoDecode := .bit0 } 0x7F = true := by decide

/-- R85 and 95_test_vectors.md section 3.1. -/
theorem test_presence :
    presenceOf cfgAtReset 0xE0 = true ∧ presenceOf cfgAtReset 0xF0 = false ∧
    presenceOf cfgAtReset 0x00 = false ∧ presenceOf cfgAtReset 0xFF = true := by decide

/-- 95_test_vectors.md section 3.3: the fold of A, of `SP85`, and of a wrong check byte. -/
theorem test_crc8 :
    crc8 [0x28, 0x01, 0x02, 0x03, 0x04, 0x05, 0x06] = 0x9E ∧
    crc8 [0x50, 0x05, 0x4B, 0x46, 0x7F, 0xFF, 0x0C, 0x10, 0x1C] = 0x00 ∧
    crc8 [0x28, 0x01, 0x02, 0x03, 0x04, 0x05, 0x06, 0x00] = 0x0E := by decide +kernel

/-- R105 (a), (b): the all-zero address and a scratchpad of nine zero bytes pass. -/
theorem test_crc8_zeros : addrValid 0 ∧ crc8 (List.replicate 9 0) = 0 := by
  unfold addrValid; decide +kernel

/-- 95_test_vectors.md section 3.6, decode. -/
theorem test_decodeTemperature :
    decodeTenths 0x50 0x05 = 850 ∧ decodeTenths 0x91 0xFF = -70 ∧ decodeTenths 0xF8 0xFF = -5 ∧
    decodeTenths 0x10 0xF8 = -1270 ∧ decodeTenths 0xFF 0x07 = 1279 ∧
    decodeTenths 0x00 0xF8 = 0 ∧ decodeTenths 0xF0 0x0F = -10 := by decide

/-- R53, R55: byte 0 of A is its family code, and position 4 is bit 3 of byte 0. -/
theorem test_address_order :
    addrByte addrA 0 = 0x28 ∧ addrByte addrA 7 = 0x9E ∧ romBit addrA 3 = true := by decide

/-! ### One step of each instruction -/

/-- R141: `init` with a read in flight emits both outputs and abandons the slot. -/
theorem test_init :
    outOf (exec .init (engine (.readPending 3) .hostAsync 0xFF)) =
      some [.baud .normal, .line .weak, .result .ok .none] ∧
    (nextOf (exec .init (engine (.readPending 3) .hostAsync 0xFF))).map State.slotOut =
      some none := by decide

/-- R142: before `init`. -/
theorem test_before_init :
    outOf (exec .startReset State.reset) = some [.result .illegal .none] ∧
    refusalOf (exec (.evEcho 0) State.reset) = some .echoNotEnabled := by decide

/-- 95_test_vectors.md S3, S4. -/
theorem test_sendSlot :
    outOf (exec (.sendSlot 0) idle) = some [.tx 0x00 .normal] ∧
    outOf (exec (.sendSlot 1) (engine (.readPending 2) .hostAsync 0xFF)) =
      some [.log (.error .busy), .result .busy .none] := by decide

/-- R88: `BAUD(Reset)` before the slot. -/
theorem test_startReset :
    outOf (exec .startReset idle) =
      some [.baud .reset, .tx 0xF0 .reset, .result .ok .none] := by decide

/-- R89: `startWriteByte 0xCC` sends `00`. -/
theorem test_startWriteByte :
    outOf (exec (.startWriteByte 0xCC) idle) = some [.tx 0x00 .normal, .result .ok .none] ∧
    (nextOf (exec (.startWriteByte 0xCC) idle)).map State.eng = some (.writePending 0) := by decide

/-- V-EN-1: a second start is `Busy` and leaves the read. -/
theorem test_startReadByte :
    outOf (exec .startReadByte idle) = some [.tx 0xFF .normal, .result .ok .none] ∧
    nextOf (exec (.startWriteByte 0x55) (engine (.readPending 0) .hostAsync 0xFF)) =
      some { engine (.readPending 0) .hostAsync 0xFF with
        out := [.log (.error .busy), .result .busy .none] } := by decide

/-- 95_test_vectors.md E1; R96. -/
theorem test_getTransferResult :
    outOf (exec .getTransferResult idle) = some [.result .pending .none] ∧
    outOf (exec .getTransferResult { idle with
      xferDone := true, xferKind := .read, xferValue := 0x4D }) =
      some [.result .ok (.transfer .read 0x4D)] := by decide

/-- R98: HOST stays blocked, and the echo `E0` returns presence. -/
theorem test_resetBlocking :
    outOf (exec .resetBlocking idle) = some [.baud .reset, .tx 0xF0 .reset] ∧
    outOf (step (given [echoInput 0xE0]
      { resetting .blocking with hostWait := .reset, call := .direct })) =
      some [.baud .normal, .result .ok (.presence true)] := by decide

/-- R99: the last echo of the write, whatever it is. -/
theorem test_writeByteBlocking :
    (nextOf (exec (.writeByteBlocking 0xF0) idle)).map State.hostWait = some .write ∧
    outOf (step (given [echoInput 0x00] (blocked .write (.writePending 7) .direct))) =
      some [.result .ok .none] := by decide

/-- R100: echoes `00 FF FF FF FF FF FF FF` give `FE`; here the last of them. -/
theorem test_readByteBlocking :
    (nextOf (exec .readByteBlocking idle)).map State.hostWait = some .read ∧
    outOf (step (given [echoInput 0xFF]
      { blocked .read (.readPending 7) .direct with engData := 0x7E })) =
      some [.result .ok (.byte 0xFE)] := by decide

/-- 95_test_vectors.md R11: the state is reinitialised and seeded before the refused reset. -/
theorem test_searchFirst :
    (nextOf (exec (.searchFirst 0x28)
      { engine (.readPending 0) .hostAsync 0xFF with lastDeviceFlag := true })).map
      (fun t => (t.rom, t.lastDiscrepancy, t.lastDeviceFlag)) = some (0x28, 64, false) ∧
    outOf (exec (.searchFirst 0x28) (engine (.readPending 0) .hostAsync 0xFF)) =
      some [.log (.error .busy), .result .busy .none] := by decide

/-- 95_test_vectors.md R4: `NoMore`, no slot, not logged. -/
theorem test_searchNext :
    outOf (exec .searchNext { idle with lastDeviceFlag := true }) =
      some [.result .noMore .none] ∧
    outOf (exec .searchNext idle) = some [.baud .reset, .tx 0xF0 .reset] := by decide

/-- R114: after B was found with `S.lastFamilyDiscrepancy` 4; and R5, with none. -/
theorem test_familySkip :
    (nextOf (exec .familySkip { idle with lastDiscrepancy := 9, lastFamilyDiscrepancy := 4 })).map
      (fun t => (t.lastDiscrepancy, t.lastFamilyDiscrepancy, t.lastDeviceFlag)) =
      some (4, 0, false) ∧
    (nextOf (exec .familySkip idle)).map State.lastDeviceFlag = some true := by decide

/-- 95_test_vectors.md R14, R15. -/
theorem test_searchDevices :
    nextOf (exec (.searchDevices 0) idle) = some { idle with out := [.result .ok (.addrs [])] } ∧
    outOf (step (given [echoInput 0xF0]
      { resetting .blocking with hostWait := .reset, call := .search (.devices 3 []) .reset })) =
      some [.baud .normal, .log (.error .noDevice), .result .noDevice (.addrs [])] := by decide

/-- R115: A is found. With a discrepancy left the next pass starts; after the last device `NoMore` is the
normal end, and the search state is cleared. -/
theorem test_searchDevices_goes_on :
    let s := fun z : Nat => given [echoInput 0xFF]
      { waiting (.search (.devices 3 []) (.writeDir 63 true)) with
        rom := 0x1E06050403020128, searchCrc := 0x9E, lastZero := z }
    outOf (step (s 4)) = some [.baud .reset, .tx 0xF0 .reset] ∧
    (nextOf (step (s 0))).map (fun t => (t.rom, t.lastDeviceFlag, t.out)) =
      some (0, false, [.result .ok (.addrs [addrA])]) := by decide

/-- 95_test_vectors.md M4, M6. -/
theorem test_matchAddress :
    (nextOf (exec (.matchAddress addrA) idle)).map (fun t => (t.m, t.mAddr, t.mResult)) =
      some (.reset, addrA, .pending) ∧
    outOf (exec (.matchAddress addrA) (engine (.readPending 0) .hostAsync 0xFF)) =
      some [.log (.error .busy), .result .busy .none] := by decide

/-- R122, 95_test_vectors.md M7, M3. -/
theorem test_getMatchResult :
    outOf (exec .getMatchResult idle) = some [.result .pending .none] ∧
    outOf (exec .getMatchResult { idle with mResult := .failed }) =
      some [.result .noDevice .none] := by decide

/-- R124, R45: `LINE(Weak)` only on a change. -/
theorem test_startConversion :
    outOf (exec (.startConversion 0) { idle with pullup := .strong }) =
      some [.line .weak, .baud .reset, .tx 0xF0 .reset, .result .ok .none] ∧
    outOf (exec (.startConversion 0) idle) =
      some [.baud .reset, .tx 0xF0 .reset, .result .ok .none] := by decide

/-- R125, R123. -/
theorem test_startTemperatureRead :
    (nextOf (exec (.startTemperatureRead addrA) idle)).map
      (fun t => (t.dp, t.dpOp, t.mClient, t.mAddr)) =
      some (.awaitingMatch, .read, .dp, addrA) ∧
    outOf (exec (.startTemperatureRead addrA) { idle with dp := .awaitingCommand }) =
      some [.log (.error .busy), .result .busy .none] := by decide

/-- R133 after `init`, and while a read runs. -/
theorem test_getTemperatureResult :
    outOf (exec (.getTemperatureResult 0) idle) = some [.result .ok (.temperature 0 false)] ∧
    outOf (exec (.getTemperatureResult 0) { idle with dp := .awaitingReadByte 3, dpOp := .read }) =
      some [.result .pending (.temperature 0 false)] := by decide

/-- R91's example: read slot 3, echo `00`, bit 0; and 95_test_vectors.md S7, a late echo. -/
theorem test_evEcho :
    (nextOf (exec (.evEcho 0x00)
      { engine (.readPending 3) .hostAsync 0xFF with engData := 0x05 })).map
      (fun t => (t.engData, t.eng)) = some (0x05, .readPending 4) ∧
    (nextOf (exec (.evEcho 0xFF) { idle with slotOut := some (.sync, 0xFF) })).map
      State.syncEcho = some (some 0xFF) := by decide

/-- 95_test_vectors.md S5; and the table of section 3.2, a reset. -/
theorem test_evSpinTimeout :
    outOf (exec .evSpinTimeout (waiting .direct)) =
      some [.log (.error .busTimeout), .result .busTimeout .none] ∧
    outOf (exec .evSpinTimeout { resetting .blocking with hostWait := .reset, call := .direct }) =
      some [.log (.error .busTimeout), .result .busTimeout (.presence false)] := by decide

/-! ### The continuations, one echo each -/

/-- R117: a presence of a match of A writes `55`; of the sentinel `CC`. -/
theorem test_match_command :
    (nextOf (exec (.evEcho 0xE0) { resetting .romMatch with m := .reset, mAddr := addrA })).map
      (fun t => (t.m, t.engData)) = some (.matchCmd, 0x55) ∧
    (nextOf (exec (.evEcho 0xE0) { resetting .romMatch with m := .reset })).map
      (fun t => (t.m, t.engData)) = some (.skipCmd, 0xCC) := by decide

/-- R127: the strong pull-up. -/
theorem test_convert_done :
    (nextOf (exec (.evEcho 0x00) { engine (.writePending 7) .dp 0x00 with
      dp := .awaitingCommand, dpOp := .convert })).map
      (fun t => (t.pullup, t.dp, t.out)) = some (.strong, .done, [.line .strong]) := by decide

/-- V-DP-1, V-DP-3: byte 8 `1C` gives 850; byte 8 `9C` fails the CRC. -/
theorem test_ninth_byte :
    (nextOf (exec (.evEcho 0xF8) ninth)).map
      (fun t => (t.dpCrc, t.lkg, t.lkgValid, t.lastValid, t.out)) =
      some (0x00, 850, true, true, []) ∧
    (nextOf (exec (.evEcho 0xFF) { ninth with lkg := 7, lastValid := true })).map
      (fun t => (t.lkg, t.lastValid, t.out)) =
      some (7, false, [.log (.error .crcMismatch)]) := by decide

/-- R131, 95_test_vectors.md G2, G3: a difference of exactly 50 is no jump, 51 is one. -/
theorem test_jump :
    (nextOf (exec (.evEcho 0xF8) { ninth with lkg := 900, lkgValid := true })).map State.out =
      some [] ∧
    (nextOf (exec (.evEcho 0xF8) { ninth with lkg := 901, lkgValid := true })).map State.out =
      some [.log .tempJump] := by decide

/-- 95_test_vectors.md section 3.4, position 4 of the first pass: a discrepancy that chooses 0. -/
theorem test_discrepancy :
    (nextOf (step (given [echoInput 0xF8] (waiting (.search (.first 0) (.readCompl 3 false)))))).map
      (fun t => (t.lastZero, t.lastFamilyDiscrepancy, t.slotOut)) =
      some (4, 4, some (.sync, 0x00)) := by decide

/-- 95_test_vectors.md V-SR-2: address A ends `searchFirst 0x28`, and is withheld from
`searchFirst 0x22`. Bit 7 of its check byte is a 1. -/
theorem test_family_gate :
    outOf (step (given [echoInput 0xFF]
      { waiting (.search (.first 0x28) (.writeDir 63 true)) with
        rom := 0x1E06050403020128, searchCrc := 0x9E })) =
      some [.result .ok (.addr addrA)] ∧
    outOf (step (given [echoInput 0xFF]
      { waiting (.search (.first 0x22) (.writeDir 63 true)) with
        rom := 0x1E06050403020128, searchCrc := 0x9E })) =
      some [.result .familyAbsent .none] := by decide

/-- A word placed by `withFetchWord` is what the next step runs. -/
theorem test_withFetchWord :
    outOf (step (State.reset.withFetchWord 16 0x0001)) =
      some [.baud .normal, .line .weak, .result .ok .none] ∧
    outOf (step (idle.withFetchWord 16 0x5511)) =
      some [.tx 0xFF .normal, .result .ok .none] := by decide

/-! ### Witnesses: for each statement with hypotheses, states and operands that meet them

A clause over a range has its boundary values. -/

/-- A step that answers a next state with a given property. -/
theorem exists_next {o : Outcome} {p : State → Bool} (h : (nextOf o).any p = true) :
    ∃ t, o = .next t ∧ p t = true := by
  cases o with
  | next s => exact ⟨s, rfl, h⟩
  | fault f => cases h
  | refused r => cases h

theorem witness_DecodeOfEncodeIsIdentity :
    (Instr.sendSlot 0).wellFormed = true ∧ (Instr.sendSlot 1).wellFormed = true ∧
    (Instr.startWriteByte 0xFF).wellFormed = true ∧ (Instr.matchAddress addrA).wellFormed = true := by
  decide

theorem witness_DecodeAcceptsOnlyTheTablesWords :
    decode ⟨0x0030, addrA⟩ = .ok (.matchAddress addrA) ∧
    address? (.matchAddress addrA) = some addrA ∧ decode ⟨0xFF80, addrA⟩ = .ok (.evEcho 0xFF) := by
  decide

/-- After `init` and before it, each kind of illegal word. -/
theorem witness_IllegalWordsReturnIllegalWithoutEffect :
    decodeCommand ⟨0x0202, 0⟩ = .error .slotOperand ∧
    decodeCommand ⟨0x0081, 0⟩ = .error .eventFromHost ∧
    (given [.command ⟨0x0202, 0⟩] idle).inbox = .command ⟨0x0202, 0⟩ :: [] ∧
    (given [.command ⟨0x0202, 0⟩] idle).hostWait = .none ∧
    (given [.command ⟨0x0081, 0⟩] State.reset).initDone = false := by decide

theorem witness_StepRunsTheFetchedInstruction :
    (given [.command ⟨0x5511, 0⟩] idle).inbox = .command ⟨0x5511, 0⟩ :: [] ∧
    decodeCommand ⟨0x5511, 0⟩ = .ok (.startWriteByte 0x55) ∧
    (given [.event 0x0081] (waiting .direct)).inbox = .event 0x0081 :: [] ∧
    decode ⟨0x0081, 0⟩ = .ok .evSpinTimeout ∧ Instr.evSpinTimeout.isEvent = true := by decide

/-- At power-up, with a blocked-looking HOST that no run reaches, and after an `init`. -/
theorem witness_InitResetsEveryField :
    State.reset.initDone = false ∧ ({ State.reset with hostWait := .slot }).initDone = false ∧
    (engine (.readPending 7) .dp 0xFF).hostWait = .none := by decide

theorem witness_BeforeInitOnlyInitHasAnEffect :
    State.reset.initDone = false ∧ Instr.evEcho 0 ≠ .init ∧ Instr.evSpinTimeout ≠ .init ∧
    Instr.startReset ≠ .init := by decide

theorem witness_BlockedHostIssuesNothing :
    (waiting .direct).initDone = true ∧ (waiting .direct).hostWait ≠ .none ∧
    Instr.init.isEvent = false ∧ (Instr.getTemperatureResult 0).isEvent = false := by decide

theorem witness_InitDoneIsNeverCleared :
    (∃ t, exec .init State.reset = .next t ∧ t.initDone = true) ∧
    idle.initDone = true ∧ ∃ t, step idle = .next t ∧ t.initDone = true :=
  ⟨exists_next (p := State.initDone) (by decide), rfl,
    exists_next (p := State.initDone) (by decide)⟩

/-- Busy by the engine, and by a slot of its own. -/
theorem witness_BusyStartsChangeNothing :
    (engine (.writePending 0) .dp 0).engBusy ∧ (engine (.writePending 0) .dp 0).free ∧
    ({ idle with slotOut := some (.sync, 0xFF) }).engBusy ∧
    ({ idle with slotOut := some (.sync, 0xFF) }).free ∧
    (1#8).toNat < 2 ∧ (0#8).toNat < 2 := by decide

/-- One state meets the hypotheses of every statement about a start with nothing in flight; the
second has the line at the reset rate already. -/
theorem witness_StartsWithNothingInFlight :
    idle.free ∧ ¬idle.engBusy ∧ ({ idle with baud := .reset }).free ∧
    ¬({ idle with baud := .reset }).engBusy := by decide

theorem witness_StartResetSendsTheResetSlot : idle.free ∧ ¬idle.engBusy := by decide
theorem witness_StartWriteByteSendsBitZero : idle.free ∧ ¬idle.engBusy := by decide
theorem witness_StartReadByteSendsAReadSlot : idle.free ∧ ¬idle.engBusy := by decide
theorem witness_WrappersStartAndBlockHost : idle.free ∧ ¬idle.engBusy := by decide

/-- The operands 1 and 2, on the two sides of the bound. -/
theorem witness_SendSlotSendsOneDataSlot :
    idle.free ∧ ¬idle.engBusy ∧ (1#8).toNat < 2 ∧ ¬(2#8).toNat < 2 := by decide

/-- With and without a result, and while a read runs. -/
theorem witness_ResultReadsReportAndChangeNothing :
    idle.free ∧ ({ idle with xferDone := true, mResult := .ok }).free ∧
    ({ idle with dpOp := .read, dp := .awaitingReadByte 8 }).free := by decide

theorem witness_EchoBytesDecodeToBitsAndPresence :
    (0x7F#8).getLsbD 0 = true ∧ 0x7F#8 ≠ 0xFF#8 ∧ (0xFE#8).getLsbD 0 = false := by decide

theorem witness_BusLawsFixTheEcho :
    cfgAtReset.slotOne = 0xFF ∧ cfgAtReset.slotZero = 0x00 ∧
    EchoIdle False (slotByte cfgAtReset true) 0xFF ∧
    EchoIdle False (slotByte cfgAtReset false) 0x00 ∧
    EchoIdle False cfgAtReset.resetPattern 0xF0 ∧ EchoOpenDrain cfgAtReset.slotZero 0x00 ∧
    EchoOpenDrain 0xFF 0xFF ∧ cfgAtReset.echoDecode = .exactOnes ∧
    decodeBit cfgAtReset 0xFF = true := by
  simp only [EchoIdle, EchoOpenDrain]; decide

theorem witness_EchoIsLatchedForASyncSlot :
    idle.initDone = true ∧ idle.slotOut = none ∧
    (waiting .direct).slotOut = some (.sync, 0xFF) := by decide

/-- The first slot and the last but one, of a write and of a read. -/
theorem witness_EchoMidByteSendsTheNextSlot :
    (engine (.writePending 0) .blocking 0xFF).slotOut = some (.engine, 0xFF) ∧
    (engine (.writePending 0) .blocking 0xFF).eng = .writePending (0 : Fin 8) ∧
    (engine (.readPending 6) .hostAsync 0xFF).eng = .readPending (6 : Fin 8) ∧
    (6 : Fin 8).val < 7 ∧ idle.initDone = true := by decide

theorem witness_EchoCompletesAHostTransfer :
    (resetting .hostAsync).initDone = true ∧ (resetting .hostAsync).engCont = .hostAsync ∧
    (resetting .hostAsync).slotOut = some (.engine, 0xF0) ∧
    (resetting .hostAsync).eng = .resetPending ∧
    (engine (.writePending 7) .hostAsync 0).slotOut = some (.engine, 0) ∧
    (engine (.writePending 7) .hostAsync 0).eng = .writePending 7 ∧
    (engine (.readPending 7) .hostAsync 0xFF).eng = .readPending 7 := by decide

theorem witness_SendSlotReturnsTheDecodedEcho :
    (given [echoInput 0xF8] (waiting .direct)).initDone = true ∧
    (given [echoInput 0xF8] (waiting .direct)).slotOut = some (.sync, 0xFF) ∧
    (given [echoInput 0xF8] (waiting .direct)).hostWait = .slot ∧
    (given [echoInput 0xF8] (waiting .direct)).call = .direct ∧
    (given [echoInput 0xF8] (waiting .direct)).inbox = echoInput 0xF8 :: [] := by decide

/-- A reset whose echo is a presence, the pattern, or the idle marker; a write at its last slot. -/
theorem witness_ResetAndWriteWrappersReturn :
    let r := given [echoInput 0xF0] { resetting .blocking with hostWait := .reset, call := .direct }
    let w := given [echoInput 0x00] (blocked .write (.writePending 7) .direct)
    (r.initDone = true ∧ r.slotOut = some (.engine, 0xF0) ∧ r.engCont = .blocking ∧
      r.call = .direct ∧ r.inbox = echoInput 0xF0 :: [] ∧ r.eng = .resetPending ∧
      r.hostWait = .reset) ∧
    w.initDone = true ∧ w.slotOut = some (.engine, 0xFF) ∧ w.engCont = .blocking ∧
      w.call = .direct ∧ w.inbox = echoInput 0x00 :: [] ∧ w.eng = .writePending 7 ∧
      w.hostWait = .write := by decide

theorem witness_SpinTimeoutEndsOnlyTheWait :
    idle.initDone = true ∧ idle.awaiting = false ∧
    ({ waiting .direct with syncEcho := some 0 }).awaiting = false ∧
    (waiting .direct).awaiting = true ∧ (waiting .direct).call = .direct ∧
    (blocked .reset .resetPending .direct).awaiting = true := by decide

/-- With HOST free, and with HOST waiting for the very transfer. -/
theorem witness_BytesExpandToEightSlots :
    idle.initDone = true ∧ idle.undisturbed ∧ ¬idle.engBusy ∧
    ({ idle with hostWait := .write }).undisturbed ∧ (List.replicate 7 (0xFF#8)).length = 7 := by
  decide

theorem witness_ReadByteBlockingReturnsTheEchoedByte :
    let e : Fin 8 → Byte := fun i => if i = 0 then 0x00 else 0xFF
    let s := given (.command ⟨0x0016, 0⟩ :: (List.ofFn e).map echoInput) idle
    s.free ∧ ¬s.engBusy ∧
    s.inbox = .command ⟨0x0016#16, 0⟩ :: (List.ofFn e).map echoInput ++ [] := by decide

/-- The last device found; nothing in flight; a read in flight. -/
theorem witness_SearchNextEndsOrStartsAPass :
    ({ idle with lastDeviceFlag := true }).free ∧ idle.free ∧ ¬idle.engBusy ∧
    (engine (.readPending 0) .hostAsync 0xFF).free ∧
    (engine (.readPending 0) .hostAsync 0xFF).engBusy := by decide

theorem witness_SearchFirstClearsSeedsAndStarts :
    idle.free ∧ ¬idle.engBusy ∧ (engine (.readPending 0) .hostAsync 0xFF).free := by decide

theorem witness_SearchDevicesStartsAnUnfilteredSearch :
    idle.free ∧ ¬idle.engBusy ∧ (engine (.readPending 0) .hostAsync 0xFF).free := by decide

theorem witness_FamilySkipMovesTheBranchPoint :
    idle.free ∧ idle.lastFamilyDiscrepancy = 0 ∧
    ({ idle with lastFamilyDiscrepancy := 8 }).free := by decide

/-- A presence, the last slot of the command, and the address bit of the last position. -/
theorem witness_PassWritesTheCommandAndReadsPairs :
    let r := given [echoInput 0xE0]
      { resetting .blocking with hostWait := .reset, call := .search .next .reset }
    let w := given [echoInput 0xFF] (blocked .write (.writePending 7) (.search .next .command))
    let a := given [echoInput 0xF8] (waiting (.search .next (.readAddr 63)))
    (r.initDone = true ∧ r.inbox = echoInput 0xE0 :: [] ∧ r.eng = .resetPending ∧
      r.engCont = .blocking ∧ r.slotOut = some (.engine, 0xF0) ∧ r.hostWait = .reset ∧
      r.call = .search .next .reset ∧ 0xE0#8 ≠ r.cfg.resetPattern ∧
      0xE0#8 ≠ r.cfg.idleMarker) ∧
    (w.initDone = true ∧ w.inbox = echoInput 0xFF :: [] ∧ w.eng = .writePending 7 ∧
      w.engCont = .blocking ∧ w.slotOut = some (.engine, 0xFF) ∧ w.hostWait = .write ∧
      w.call = .search .next .command) ∧
    a.initDone = true ∧ a.inbox = echoInput 0xF8 :: [] ∧ a.eng = .idle ∧
      a.slotOut = some (.sync, 0xFF) ∧ a.hostWait = .slot ∧
      a.call = .search .next (.readAddr 63) := by decide

/-- The last bit of the family byte, and the last position but one. -/
theorem witness_DirectionIsRecordedAndBytesFolded :
    let s := fun k : Fin 64 => given [echoInput 0xFF] (waiting (.search .next (.writeDir k true)))
    ∀ k ∈ [(0 : Fin 64), 7, 62], (s k).initDone = true ∧ (s k).eng = .idle ∧
      (s k).slotOut = some (.sync, 0xFF) ∧ (s k).hostWait = .slot ∧
      (s k).call = .search .next (.writeDir k true) ∧ k.val < 63 ∧
      (s k).inbox = echoInput 0xFF :: [] := by decide

/-- A pass at the complement read of index `k`, with `lastDiscrepancy` 9. -/
def pairAt (k : Fin 64) (x : Bool) (e : Byte) : State :=
  given [echoInput e] { waiting (.search .next (.readCompl k x)) with lastDiscrepancy := 9 }

/-- The hypotheses of the statement on a bit pair, met at `pairAt`. -/
def PairMeets (k : Fin 64) (x : Bool) (e : Byte) : Prop :=
  (pairAt k x e).initDone = true ∧ (pairAt k x e).eng = .idle ∧
  (pairAt k x e).slotOut = some (.sync, 0xFF) ∧ (pairAt k x e).hostWait = .slot ∧
  (pairAt k x e).call = .search .next (.readCompl k x) ∧
  (pairAt k x e).inbox = echoInput e :: [] ∧
  ¬(x = true ∧ decodeBit (pairAt k x e).cfg e = true)

theorem pairMeets (k : Fin 64) (x : Bool) (e : Byte)
    (h : ¬(x = true ∧ decodeBit cfgAtReset e = true)) : PairMeets k x e :=
  ⟨rfl, rfl, rfl, rfl, rfl, rfl, h⟩

/-- A discrepancy before, at and after `lastDiscrepancy`, at positions 8, 9, 10 and 64; and the two
pairs that differ. -/
theorem witness_BitPairSelectsTheDirection :
    PairMeets 7 false 0xF8 ∧ PairMeets 8 false 0xF8 ∧ PairMeets 9 false 0xF8 ∧
    PairMeets 63 false 0xF8 ∧ PairMeets 0 true 0xF8 ∧ PairMeets 0 false 0xFF :=
  ⟨pairMeets _ _ _ (by decide), pairMeets _ _ _ (by decide), pairMeets _ _ _ (by decide),
    pairMeets _ _ _ (by decide), pairMeets _ _ _ (by decide), pairMeets _ _ _ (by decide)⟩

/-- A search of each kind. -/
def callers : List SearchCaller :=
  [.next, .first 0x28, .first 0x22, .devices 9 [addrA], .devices 2 [addrA]]

/-- A (1,1) pair at any position, and a reset echo of each of the two kinds without presence, in a
search of any kind. -/
theorem witness_NoRespondersEndTheSearch :
    let a := fun (c : SearchCaller) (k : Fin 64) =>
      given [echoInput 0xFF] (waiting (.search c (.readCompl k true)))
    let r := fun (c : SearchCaller) (e : Byte) => given [echoInput e]
      { resetting .blocking with hostWait := .reset, call := .search c .reset }
    (∀ c k, (a c k).initDone = true ∧ (a c k).inbox = echoInput 0xFF :: [] ∧ (a c k).eng = .idle ∧
      (a c k).slotOut = some (.sync, 0xFF) ∧ (a c k).hostWait = .slot ∧
      (a c k).call = .search c (.readCompl k true) ∧ decodeBit (a c k).cfg 0xFF = true) ∧
    ∀ c, ∀ e ∈ [0xF0#8, 0x00], (r c e).initDone = true ∧ (r c e).inbox = echoInput e :: [] ∧
      (r c e).eng = .resetPending ∧ (r c e).engCont = .blocking ∧
      (r c e).slotOut = some (.engine, 0xF0) ∧ (r c e).hostWait = .reset ∧
      (r c e).call = .search c .reset ∧
      (e = (r c e).cfg.resetPattern ∨ e = (r c e).cfg.idleMarker) :=
  ⟨fun _ _ => ⟨rfl, rfl, rfl, rfl, rfl, rfl, rfl⟩,
    fun _ e he => ⟨rfl, rfl, rfl, rfl, rfl, rfl, rfl,
      (by decide : ∀ e ∈ [0xF0#8, 0x00], e = cfgAtReset.resetPattern ∨ e = cfgAtReset.idleMarker)
        e he⟩⟩

/-- A pass that finds A, and one whose CRC fails, in a search of each kind; for `searchDevices` at the
n-th address, before it, and after the last device. -/
theorem witness_LastPositionEndsThePass :
    let s := fun (c : SearchCaller) (d : Bool) (z : Nat) => given [echoInput 0xFF]
      { waiting (.search c (.writeDir 63 d)) with
        rom := 0x1E06050403020128, searchCrc := 0x9E, lastZero := z }
    (∀ c ∈ callers, ∀ d, ∀ z ∈ [0, 4], (s c d z).initDone = true ∧ (s c d z).eng = .idle ∧
      (s c d z).slotOut = some (.sync, 0xFF) ∧ (s c d z).hostWait = .slot ∧
      (s c d z).call = .search c (.writeDir 63 d) ∧ (s c d z).inbox = echoInput 0xFF :: []) ∧
    crc8Step 0x9E (addrA.extractLsb' 56 8) = 0 ∧ crc8Step 0x9E 0x1E ≠ 0 := by decide +kernel

theorem witness_SpinTimeoutClearsARunningSearch :
    (waiting (.search (.devices 3 [addrA]) (.readAddr 0))).initDone = true ∧
    (waiting (.search (.devices 3 [addrA]) (.readAddr 0))).awaiting = true ∧
    (blocked .reset .resetPending (.search .next .reset)).awaiting = true := by decide

/-- A filtered search that returns A. -/
theorem witness_FilteredSearchReturnsOnlyItsFamily :
    let s := given [echoInput 0xFF] { waiting (.search (.first 0x28) (.writeDir 63 true)) with
      rom := 0x1E06050403020128, searchCrc := 0x9E }
    s.cfg.familyStrict = true ∧ 0x28#8 ≠ 0#8 ∧ s.call = .search (.first 0x28) (.writeDir 63 true) ∧
    ∃ t, step s = .next t ∧
      decide (OutEvent.result .ok (.addr addrA) ∈ t.out.drop s.out.length) = true :=
  ⟨rfl, by decide, rfl, exists_next (p := fun t => decide (_ ∈ t.out.drop _)) (by decide)⟩

/-- A pass at bit 0 of its second byte, one address found before. -/
def secondByte : State :=
  given [echoInput 0xFF] { waiting (.search (.devices 9 [addrA]) (.writeDir 8 true)) with
    rom := 0x28, searchCrc := 0xE1 }

theorem addrA_valid : addrValid addrA := by unfold addrValid; decide +kernel

theorem secondByte_sound : secondByte.SearchSound where
  returned := fun _ he => nomatch he
  listed := fun _ ha => List.mem_singleton.1 ha ▸ addrA_valid
  running := fun _ hn => Option.some.inj hn ▸ (by decide +kernel)

theorem secondByte_step :
    (nextOf (step secondByte)).any
      (fun t => t.call == .search (.devices 9 [addrA]) (.readAddr 9)) = true := by decide

theorem witness_StepKeepsTheSearchSound :
    secondByte.SearchSound ∧ ∃ t, step secondByte = .next t ∧
      (t.call == .search (.devices 9 [addrA]) (.readAddr 9)) = true :=
  ⟨secondByte_sound, exists_next secondByte_step⟩

/-- The pass that reads A: its echoes are A's bits and their complements. -/
theorem witness_ForcedPassFindsTheAddress :
    let e : Nat → Byte := fun j =>
      if (j % 3 = 0) = (addrA.getLsbD (j / 3) = true) then 0xFF else 0xF8
    let s := given ((List.range 192).map (fun j => echoInput (e j)))
      { waiting (.search .next (.readAddr 0)) with lastDiscrepancy := 9, rom := 0x1234 }
    s.initDone = true ∧ s.eng = .idle ∧ s.slotOut = some (.sync, 0xFF) ∧ s.hostWait = .slot ∧
    s.call = .search .next (.readAddr 0) ∧ s.lastZero = 0 ∧ s.searchCrc = 0 ∧
    (∀ k, k < 64 → decodeBit s.cfg (e (3 * k)) = addrA.getLsbD k ∧
      decodeBit s.cfg (e (3 * k + 1)) = !addrA.getLsbD k) ∧
    crc8 (addrBytes addrA) = 0 ∧
    s.inbox = (List.range 192).map (fun j => echoInput (e j)) ++ [] := by decide +kernel

theorem witness_MatchAddressStartsWithAReset :
    idle.free ∧ ({ idle with m := .skipCmd }).free ∧
    (engine (.readPending 0) .hostAsync 0xFF).free := by decide

/-- A match of HOST and one under a temperature read, each echo without presence. -/
theorem witness_MatchResetWithoutPresenceFails :
    let s := fun c : MatchClient =>
      { resetting .romMatch with m := .reset, mClient := c, dp := .awaitingMatch, dpOp := .read }
    ∀ c ∈ [MatchClient.host, .dp], (s c).initDone = true ∧ (s c).slotOut = some (.engine, 0xF0) ∧
      (s c).eng = .resetPending ∧ (s c).engCont = .romMatch ∧ (s c).m = .reset ∧
      (0xF0 = (s c).cfg.resetPattern ∨ 0xF0 = (s c).cfg.idleMarker) ∧
      (0x00 = (s c).cfg.resetPattern ∨ 0x00 = (s c).cfg.idleMarker) := by decide

/-- The sentinel and A, each for a match of HOST and for one of the Device Protocol. -/
theorem witness_MatchWritesCommandAndAddress :
    let s := fun (c : MatchClient) (a : Addr) (n : Nat) =>
      given (echoInput 0xE0 :: (List.replicate n 0xFF#8).map echoInput)
        { resetting .romMatch with
          m := .reset, mAddr := a, mClient := c,
          dp := if c = .dp then .awaitingMatch else .idle }
    ∀ c ∈ [MatchClient.host, .dp], ∀ x ∈ [((0 : Addr), 8), (addrA, 72)],
      let t := s c x.1 x.2
      t.initDone = true ∧ t.hostWait = .none ∧ t.slotOut = some (.engine, 0xF0) ∧
      t.eng = .resetPending ∧ t.baud = .reset ∧ t.engCont = .romMatch ∧ t.m = .reset ∧
      (t.mClient = .dp → t.dp = .awaitingMatch) ∧
      0xE0 ≠ t.cfg.resetPattern ∧ 0xE0 ≠ t.cfg.idleMarker ∧
      (List.replicate x.2 0xFF#8).length = 8 *
        (if t.mAddr = t.cfg.broadcastSentinel then [t.cfg.cmdSkipRom]
          else t.cfg.cmdMatchRom :: ([0, 1, 2, 3, 4, 5, 6, 7].map fun k =>
            t.mAddr.extractLsb' (8 * k) 8)).length ∧
      t.inbox = echoInput 0xE0 :: (List.replicate x.2 0xFF#8).map echoInput ++ [] := by
  decide +kernel

/-- Each of the four reasons. -/
theorem witness_BusyTemperatureStartsChangeNothing :
    ∀ s ∈ [{ idle with dp := .awaitingMatch }, { idle with m := .addr 7 },
        { idle with eng := .resetPending }, { idle with slotOut := some (.sync, 0) }],
      s.free ∧ ((s.dp ≠ .idle ∧ s.dp ≠ .done) ∨ s.m ≠ .idle ∨ s.eng ≠ .idle ∨ s.slotOut ≠ none) := by
  decide

/-- From `Idle` with the weak pull-up, and from `Done` with the strong one. -/
theorem witness_TemperatureStartsRunTheMatch :
    ∀ s ∈ [idle, { idle with dp := .done, pullup := .strong }],
      s.free ∧ (s.dp = .idle ∨ s.dp = .done) ∧ s.m = .idle ∧ ¬s.engBusy := by decide

theorem witness_MatchCompletionWritesTheCommand :
    let s := fun m : MatchState =>
      { engine (.writePending 7) .romMatch 0xFF with
        m := m, mClient := .dp, dp := .awaitingMatch, dpOp := .read }
    ∀ m ∈ [MatchState.skipCmd, .addr 7], (s m).initDone = true ∧
      (s m).slotOut = some (.engine, 0xFF) ∧ (s m).eng = .writePending 7 ∧
      (s m).engCont = .romMatch ∧ ((s m).m = .skipCmd ∨ (s m).m = .addr 7) ∧
      (s m).mClient = .dp ∧ (s m).dp = .awaitingMatch := by decide

theorem witness_CommandCompletionGoesOnByOperation :
    let s := { engine (.writePending 7) .dp 0xFF with dp := .awaitingCommand, dpOp := .read }
    s.initDone = true ∧ s.slotOut = some (.engine, 0xFF) ∧ s.eng = .writePending 7 ∧
    s.engCont = .dp ∧ s.dp = .awaitingCommand := by decide

/-- The first byte and the eighth. -/
theorem witness_ScratchpadByteIsStoredAndFolded :
    let s := fun k : Fin 9 => { engine (.readPending 7) .dp 0xFF with dp := .awaitingReadByte k }
    ∀ k ∈ [(0 : Fin 9), 7], (s k).initDone = true ∧ (s k).slotOut = some (.engine, 0xFF) ∧
      (s k).eng = .readPending 7 ∧ (s k).engCont = .dp ∧ (s k).dp = .awaitingReadByte k ∧
      k.val < 8 := by decide

theorem witness_NinthByteIsDecodedAndGated :
    ninth.initDone = true ∧ ninth.slotOut = some (.engine, 0xFF) ∧ ninth.eng = .readPending 7 ∧
    ninth.engCont = .dp ∧ ninth.dp = .awaitingReadByte 8 := by decide

/-- The ends of the range, and a step that writes the value. -/
theorem witness_StepKeepsTheTemperatureInRange :
    tenthsInRange (1279 : Tenths) ∧ tenthsInRange (-1270 : Tenths) ∧ tenthsInRange ninth.lkg ∧
    tenthsInRange ninth.cfg.lkgInit ∧
    ∃ t, step (given [echoInput 0xF8] ninth) = .next t ∧ decide (t.lkg = 850) = true :=
  ⟨by decide, by decide, by decide, by decide,
    exists_next (p := fun t => decide (t.lkg = 850)) (by decide)⟩

/-- A step that changes the value by a good read, and one by `init`. -/
theorem witness_LkgChangesOnlyByInitOrAGoodRead :
    (∃ t, step (given [echoInput 0xF8] ninth) = .next t ∧ decide (t.lkg ≠ ninth.lkg) = true) ∧
    ∃ t, step (given [.command ⟨0x0001, 0⟩] { idle with lkg := 850 }) = .next t ∧
      decide (t.lkg ≠ 850) = true :=
  ⟨exists_next (p := fun t => decide (t.lkg ≠ ninth.lkg)) (by decide),
    exists_next (p := fun t => decide (t.lkg ≠ 850)) (by decide)⟩

theorem witness_PullupTurnsStrongOnlyAtAConversion :
    let s := given [echoInput 0x00] { engine (.writePending 7) .dp 0x00 with
      dp := .awaitingCommand, dpOp := .convert }
    s.pullup = .weak ∧ ∃ t, step s = .next t ∧ decide (t.pullup = .strong) = true :=
  ⟨rfl, exists_next (p := fun t => decide (t.pullup = .strong)) (by decide)⟩

/-- A step that hands over a slot. -/
theorem witness_AtMostOneSlotPerStep :
    ∃ t, step (given [.command ⟨0x5511, 0⟩] idle) = .next t ∧
      decide (OutEvent.tx 0xFF .normal ∈ t.out.drop idle.out.length) = true :=
  exists_next (p := fun t => decide (OutEvent.tx 0xFF .normal ∈ t.out.drop _)) (by decide)

theorem witness_StepsAppendOutputsAndKeepTheConfiguration :
    ∃ t, step (given [.command ⟨0x5511, 0⟩] { idle with out := [.line .weak] }) = .next t ∧
      decide (t.out.length = 3) = true :=
  exists_next (p := fun t => decide (t.out.length = 3)) (by decide)

/-- A byte write in flight for HOST, and its first echo. -/
theorem coherent_write_in_flight :
    (given [echoInput 0xFF] { engine (.writePending 0) .hostAsync 0xFF with
      engData := 0x55 }).Coherent :=
  coherent_of_write .hostAsync 0x55 rfl rfl (by decide) rfl rfl (by decide) rfl
    (by simp [given, engine, idle, State.reset, State.matchFits]) (by decide)
    (by simp [given, engine, idle, State.reset, State.dpFits])
    (by simp [given, engine, idle, State.reset, State.hostFits]) (by decide) (by decide)

theorem witness_StepKeepsCoherence :
    let s := given [echoInput 0xFF] { engine (.writePending 0) .hostAsync 0xFF with
      engData := 0x55 }
    s.Coherent ∧ ∃ t, step s = .next t ∧ (t.eng == .writePending 1) = true :=
  ⟨coherent_write_in_flight, exists_next (p := fun t => t.eng == .writePending 1) (by decide)⟩

theorem witness_CoherentStatesNeverFault :
    (given [echoInput 0xFF] { engine (.writePending 0) .hostAsync 0xFF with
      engData := 0x55 }).Coherent := coherent_write_in_flight

theorem witness_QuiescentStatesEnableNoEvent :
    idle.quiescent ∧ ({ idle with dp := .done, pullup := .strong }).quiescent := by decide

end Sys2Proof.Tests
end

section
/-! Proofs of the statements about the scope (00_scope.md): what a step runs, what a blocked HOST may
issue, and the state at power-up. -/

namespace Sys2Proof.Machine

variable {s : State}

/-! ### The next input -/

/-- A legal command of HOST is fetched as its operation (R75, R76). -/
theorem fetch_command {c : Command} {i : Instr} (h : decodeCommand c = .ok i) :
    fetch (.command c) = .operation i := by
  simp only [fetch, h]

/-- A word of the table that names an event is fetched as that event (R76). -/
theorem fetch_event {w : Word} {i : Instr} (h : decode ⟨w, 0#64⟩ = .ok i) (he : i.isEvent = true) :
    fetch (.event w) = .event i := by
  simp only [fetch, decodeEvent, h, he, if_true]

/-- A step that takes a host operation runs it. -/
theorem step_operation {x : Input} {rest : List Input} {i : Instr} (h : s.inbox = x :: rest)
    (hf : fetch x = .operation i) : step s = exec i { s with inbox := rest } := by
  simp only [step, h, hf]

/-- A step that takes an event runs it, then lets HOST go on at its await. -/
theorem step_event {x : Input} {rest : List Input} {i : Instr} (h : s.inbox = x :: rest)
    (hf : fetch x = .event i) : step s = afterEvent (exec i { s with inbox := rest }) := by
  simp only [step, h, hf]

/-- Settles O5: the input decodes to what `fetch` answers, and `step` dispatches on that. -/
theorem stepRunsTheFetchedInstruction : Obligations.StepRunsTheFetchedInstruction :=
  ⟨fun _ _ _ _ hin hd => step_operation hin (fetch_command hd),
    fun _ _ _ _ hin hd he => step_event hin (fetch_event hd he)⟩

/-! ### The guard of the host operations -/

/-- A host operation is refused by its guard while HOST is blocked (R7, R14). -/
theorem hostOp_blocked (hi : s.initDone = true) (hw : s.hostWait ≠ .none) (run : State → Outcome) :
    hostOp s run = .refused .hostBlocked := by
  simp only [hostOp, hi, hw, if_true, if_false]

/-- `init`, which has a guard of its own, is refused while HOST is blocked (R141). -/
theorem execInit_blocked (hi : s.initDone = true) (hw : s.hostWait ≠ .none) :
    execInit s = .refused .hostBlocked := if_pos ⟨hi, hw⟩

/-- Every host operation but `init` runs behind the one guard `hostOp`. -/
theorem exists_exec_eq_hostOp {i : Instr} (he : i.isEvent = false) (hi : i ≠ .init) :
    ∃ run, ∀ s, exec i s = hostOp s run := by
  cases i with
  | init => exact absurd rfl hi
  | evEcho e => cases he
  | evSpinTimeout => cases he
  | _ => exact ⟨_, fun _ => rfl⟩

/-- Settles O8: `init` by its own guard, the seventeen others by `hostOp`. -/
theorem blockedHostIssuesNothing : Obligations.BlockedHostIssuesNothing := by
  intro s i hinit hw he
  by_cases hi : i = .init
  · subst hi
    exact execInit_blocked hinit hw
  · obtain ⟨run, hrun⟩ := exists_exec_eq_hostOp he hi
    rw [hrun, hostOp_blocked hinit hw]

/-! ### The state at power-up -/

/-- At power-up nothing is in flight and nobody waits (R17, R142). -/
theorem reset_coherent : State.reset.Coherent where
  beforeInit := fun _ => by decide
  slot := fun _ h => nomatch h
  cont := by decide
  baud := by decide
  accumulator := fun _ h => nomatch h
  matching := fun h => nomatch h
  result := by decide
  device := ⟨by decide, by decide⟩
  host := rfl
  positions := by decide
  config := by decide

/-- At power-up no address has been returned and no pass is running. -/
theorem reset_searchSound : State.reset.SearchSound where
  returned := fun _ he => nomatch he
  listed := fun _ ha => nomatch ha
  running := fun _ hn => nomatch hn

/-- Settles O57: coherence and a sound search by their own lemmas; the ranges and the parameters by
computing the state at power-up. -/
theorem powerUpIsCoherentAndSound : Obligations.PowerUpIsCoherentAndSound :=
  ⟨reset_coherent, reset_searchSound, by decide, by decide,
    0xF0#8, 115200, 9600, ⟨1, by decide⟩, rfl⟩

end Sys2Proof.Machine
end

section
/-! Proof of the invariant of a run (10_state.md R18 to R44): every step keeps the state coherent.
The lemmas of Laws/Coherent.lean say it of the shared operations; here it is said of each host
operation, of the echo and of the timeout. -/

namespace Sys2Proof.Machine

variable {s t m : State}

/-! ### When an event is enabled -/

/-- The echo of a slot of the engine goes to the receive handler (R91). -/
theorem execEvEcho_engine {b : Byte} (hi : s.initDone = true)
    (hs : s.slotOut = some (.engine, b)) (e : Byte) :
    execEvEcho e s = echoEngine e { s with rx := e, slotOut := none } := by
  unfold execEvEcho
  split <;> simp_all

/-- The echo of a sync slot is latched for HOST (R91). -/
theorem execEvEcho_sync {b : Byte} (hi : s.initDone = true) (hs : s.slotOut = some (.sync, b))
    (e : Byte) :
    execEvEcho e s = .next { s with rx := e, slotOut := none, syncEcho := some e } := by
  unfold execEvEcho
  split <;> simp_all

/-- An echo is enabled after `init` with a slot in flight, and refused else (R91, R142). -/
theorem execEvEcho_enabled_or_refused (s : State) (e : Byte) :
    (s.initDone = true ∧ s.slotOut ≠ none) ∨ execEvEcho e s = .refused .echoNotEnabled := by
  unfold execEvEcho
  split <;> simp_all

/-- A timeout is enabled after `init` at an unsatisfied await, and refused else (R97, R142). -/
theorem execEvSpinTimeout_eq (s : State) :
    execEvSpinTimeout s =
      if s.initDone = true ∧ s.awaiting = true then awaitTimesOut s
      else .refused .timeoutNotEnabled := by
  unfold execEvSpinTimeout
  split <;> simp_all

/-! ### A coherent state at rest -/

/-- HOST of a coherent state waits for something that has not come. -/
theorem State.Coherent.undisturbed (h : s.Coherent) : s.undisturbed := by
  have hh := h.host
  unfold State.undisturbed
  rw [awaiting_iff]
  cases hw : s.hostWait <;> simp only [State.hostFits, hw] at hh <;> simp [hh]

/-- So after an event that leaves the state coherent, HOST stays where it is. -/
theorem State.Coherent.hostResume_eq (h : s.Coherent) : hostResume s = .next s := by
  rcases h.undisturbed with hw | hw
  · exact hostResume_none hw
  · exact hostResume_awaiting hw

/-- HOST may leave its await at any time: what is in flight goes on without it (R97). -/
theorem State.Coherent.released (h : s.Coherent) :
    State.Coherent { s with hostWait := .none, call := .none } := by
  obtain ⟨hinit, hslot, hcont, hbaud, hacc, hmatch, hres, hdev, -, hpos, hcfg⟩ := h
  refine ⟨fun hi => ?_, hslot, hcont, hbaud, hacc, hmatch, hres, hdev, rfl, hpos, hcfg⟩
  obtain ⟨h1, -, h3⟩ := hinit hi
  exact ⟨h1, rfl, h3⟩

/-- While the engine is idle, so are the tag, the sequencers and the rate. -/
theorem State.Coherent.engine_idle (h : s.Coherent) (he : s.eng = .idle) :
    s.engCont = .none ∧ s.m = .idle ∧ s.baud = .normal ∧ (s.dp = .idle ∨ s.dp = .done) := by
  have hc := h.cont.2 he
  have hmatch := h.matching
  have hdev := h.device
  have hm : s.m = .idle := by
    cases hm : s.m <;> simp_all [State.matchFits, State.writing]
  refine ⟨hc, hm, h.baud_normal (by simp [he]), ?_⟩
  cases hd : s.dp <;> simp_all [State.dpFits, State.writing]

/-- A HOST that is not blocked may return a status and a value (R11). -/
theorem coherent_ret_of_unblocked (h : s.Coherent) (hw : s.hostWait = .none) (st : Status)
    (v : RetVal) : (s.ret st v).Coherent := coherent_ret (h.no_call hw) st v

/-! ### The host operations -/

/-- A host operation keeps the state coherent if its run does, from a HOST that is free (R7, R142). -/
theorem coherent_hostOp {run : State → Outcome} (h : s.Coherent)
    (hrun : s.ready → run s = .next t → t.Coherent) (hn : hostOp s run = .next t) : t.Coherent := by
  rcases hostOp_next hn with ⟨-, rfl⟩ | ⟨hr, hn⟩
  · exact h.emit _
  · exact hrun hr hn

/-- An asynchronous start keeps the state coherent if its accepted form does (R87 to R90). -/
theorem coherent_returnStatus_startWith {accept : State → State} (h : s.Coherent) (hr : s.ready)
    (ha : ¬s.engBusy → (accept s).Coherent ∧ (accept s).hostWait = .none)
    (hn : returnStatus (startWith accept s) = .next t) : t.Coherent := by
  by_cases hb : s.engBusy
  · rw [startWith_busy hb] at hn
    cases hn
    exact coherent_ret_of_unblocked (h.emit _) hr.2 _ _
  · rw [startWith_free hb] at hn
    cases hn
    exact coherent_ret_of_unblocked (ha hb).1 (ha hb).2 _ _

/-- A blocking operation keeps the state coherent if it is refused with a log entry while something
is in flight, and blocks HOST in a coherent state else (R86, R97 to R100). -/
theorem coherent_enterAwait {r : State × Status} (h : s.Coherent) (hr : s.ready)
    (hbusy : s.engBusy → r = (s.emit (.log (.error .busy)), .busy))
    (hfree : ¬s.engBusy → r.2 = .ok ∧ State.Coherent { r.1 with call := .direct })
    (hn : enterAwait r = .next t) : t.Coherent := by
  by_cases hb : s.engBusy
  · rw [hbusy hb] at hn
    cases hn
    exact coherent_ret_of_unblocked (h.emit _) hr.2 _ _
  · obtain ⟨hok, hc⟩ := hfree hb
    rw [enterAwait, if_pos hok] at hn
    cases hn
    exact hc

/-- A start of the Device Protocol keeps the state coherent if its accepted form does (R123). -/
theorem coherent_dpStart {accept : State → State} (h : s.Coherent) (hr : s.ready)
    (ha : ¬s.engBusy → (accept s).Coherent ∧ (accept s).hostWait = .none)
    (hn : dpStart accept s = .next t) : t.Coherent := by
  by_cases hb : s.dpStartBusy
  · rw [dpStart, if_pos hb] at hn
    cases hn
    exact coherent_ret_of_unblocked (h.emit _) hr.2 _ _
  · rw [dpStart, if_neg hb] at hn
    cases hn
    obtain ⟨hc, hw⟩ := ha fun he => hb (.inr (.inr he))
    exact coherent_ret_of_unblocked hc hw _ _

/-- A match start keeps the state coherent, and HOST free (R116). -/
theorem coherent_matchStart (a : Addr) (h : s.Coherent) (hr : s.ready) :
    (matchStart a .host s).1.Coherent ∧ (matchStart a .host s).1.hostWait = .none := by
  by_cases hb : s.engBusy
  · rw [matchStart_busy _ _ (.inr hb)]
    exact ⟨h.emit _, hr.2⟩
  · refine ⟨coherent_matchStart_host a h hr hb, ?_⟩
    rw [matchStart_free _ _ (h.all_idle hb).2.2.2.1 hb]
    exact hr.2

/-- An accepted start of the Device Protocol leaves HOST free (R124, R125). -/
theorem acceptDp_hostWait (op : DpOp) (a : Addr) (h : s.Coherent) (hb : ¬s.engBusy) :
    (acceptDp op a s).hostWait = s.hostWait := by
  rw [acceptDp, matchStart_free _ _ (by exact (h.all_idle hb).2.2.2.1) (by exact hb)]
  rfl

/-- `init` leaves a coherent state (R141). -/
theorem coherent_execInit (h : s.Coherent) (hn : execInit s = .next t) : t.Coherent := by
  unfold execInit at hn
  split at hn
  · cases hn
  · cases hn
    exact coherent_of_idle rfl rfl rfl rfl rfl rfl (by simp) (.inl rfl) rfl (by simp) h.config

/-- Every host operation keeps the state coherent. -/
theorem coherent_operation {i : Instr} (h : s.Coherent) (he : i.isEvent = false)
    (hn : exec i s = .next t) : t.Coherent := by
  cases i with simp only [exec] at hn
  | evEcho | evSpinTimeout => cases he
  | init => exact coherent_execInit h hn
  | sendSlot imm =>
    refine coherent_hostOp h (fun hr hn => ?_) hn
    split at hn
    · exact coherent_enterAwait h hr (startSlot_busy _) (fun hb =>
        ⟨by rw [startSlot_free _ hb],
          coherent_startSlot _ (h.no_call hr.2) hr hb _ (.inl rfl)⟩) hn
    · cases hn
      exact h.emit _
  | startReset =>
    exact coherent_hostOp h (fun hr => coherent_returnStatus_startWith h hr fun hb =>
      ⟨coherent_acceptReset _ (.inl rfl) h hr hb, hr.2⟩) hn
  | startWriteByte v =>
    exact coherent_hostOp h (fun hr => coherent_returnStatus_startWith h hr fun hb =>
      ⟨coherent_acceptWrite v _ (.inl rfl) h hr hb, hr.2⟩) hn
  | startReadByte =>
    exact coherent_hostOp h (fun hr => coherent_returnStatus_startWith h hr fun hb =>
      ⟨coherent_acceptRead _ (.inl rfl) h hr hb, hr.2⟩) hn
  | getTransferResult =>
    refine coherent_hostOp h (fun hr hn => ?_) hn
    cases hn
    split <;> exact coherent_ret_of_unblocked h hr.2 _ _
  | resetBlocking =>
    exact coherent_hostOp h (fun hr => coherent_enterAwait h hr blockReset_busy fun hb =>
      ⟨by rw [blockReset_free hb], coherent_blockReset (h.no_call hr.2) hr hb _ (.inl rfl)⟩) hn
  | writeByteBlocking v =>
    exact coherent_hostOp h (fun hr => coherent_enterAwait h hr (blockWrite_busy v) fun hb =>
      ⟨by rw [blockWrite_free v hb], coherent_blockWrite v (h.no_call hr.2) hr hb _ (.inl rfl)⟩) hn
  | readByteBlocking =>
    exact coherent_hostOp h (fun hr => coherent_enterAwait h hr blockRead_busy fun hb =>
      ⟨by rw [blockRead_free hb], coherent_blockRead (h.no_call hr.2) hr hb⟩) hn
  | searchFirst f =>
    refine coherent_hostOp h (fun hr hn => ?_) hn
    cases hn
    exact coherent_searchFirstStart (h.no_call hr.2) hr _ _
  | searchNext =>
    refine coherent_hostOp h (fun hr hn => ?_) hn
    cases hn
    exact coherent_searchNextStart (h.no_call hr.2) hr _
  | familySkip =>
    refine coherent_hostOp h (fun hr hn => ?_) hn
    cases hn
    have hp := h.positions
    exact coherent_ret_of_unblocked
      (h.of_positions (t := { s with
          lastDiscrepancy := s.lastFamilyDiscrepancy
          lastFamilyDiscrepancy := 0
          lastDeviceFlag := if s.lastFamilyDiscrepancy = 0 then true else s.lastDeviceFlag })
        rfl (by dsimp only; omega)) hr.2 _ _
  | searchDevices n =>
    refine coherent_hostOp h (fun hr hn => ?_) hn
    cases hn
    split
    · exact coherent_ret_of_unblocked h hr.2 _ _
    · exact coherent_searchFirstStart (h.no_call hr.2) hr _ _
  | matchAddress a =>
    refine coherent_hostOp h (fun hr hn => ?_) hn
    cases hn
    obtain ⟨hc, hw⟩ := coherent_matchStart a h hr
    exact coherent_ret_of_unblocked hc hw _ _
  | getMatchResult =>
    refine coherent_hostOp h (fun hr hn => ?_) hn
    cases hn
    exact coherent_ret_of_unblocked h hr.2 _ _
  | startConversion a =>
    exact coherent_hostOp h (fun hr => coherent_dpStart h hr fun hb =>
      ⟨coherent_acceptDp .convert a h hr hb, (acceptDp_hostWait .convert a h hb).trans hr.2⟩) hn
  | startTemperatureRead a =>
    refine coherent_hostOp h (fun hr => coherent_dpStart h hr fun hb => ?_) hn
    have hf : (freshScratchpad s).Coherent := h.of_irrelevant rfl
    exact ⟨coherent_acceptDp .read a hf hr hb, (acceptDp_hostWait .read a hf hb).trans hr.2⟩
  | getTemperatureResult a =>
    refine coherent_hostOp h (fun hr hn => ?_) hn
    cases hn
    exact coherent_ret_of_unblocked h hr.2 _ _

/-! ### The echo -/

/-- The echo of a sync slot: HOST that waits for it goes on (R91, R86). -/
theorem coherent_syncEcho (e : Byte) {b : Byte} (h : s.Coherent) (hi : s.initDone = true)
    (hs : s.slotOut = some (.sync, b)) :
    ∃ t, hostResume { s with rx := e, slotOut := none, syncEcho := some e } = .next t ∧
      t.Coherent := by
  have he : s.eng = .idle := by
    have hslot := h.slot
    cases he : s.eng <;> simp_all [State.slotFits]
  obtain ⟨hc, hm, hb, hd⟩ := h.engine_idle he
  have hr : s.mResult ≠ .pending := by simp [h.result, hm]
  have hh := h.host
  cases hw : s.hostWait <;> simp only [State.hostFits, hw] at hh <;> simp only [hostResume]
  case none =>
    exact ⟨_, rfl, coherent_of_idle hi he rfl hc hb hm hr hd
      (by simpa [State.hostFits, hw] using hh) h.positions h.config⟩
  case slot =>
    obtain ⟨-, -, -, hcall⟩ := hh
    exact coherent_slotDone _
      (coherent_of_idle hi he rfl hc hb hm hr hd rfl h.positions h.config) ⟨hi, rfl⟩
      (not_engBusy.2 ⟨he, rfl⟩) hcall
  all_goals simp [he] at hh

/-- The last slot of a transfer completes it for whoever started it (R92 to R95): a reset, a write
or a read, as the engine's state says. -/
theorem coherent_complete (h : s.Coherent) (hi : s.initDone = true) (r : TransferResult)
    (hr : (s.eng = .resetPending ∧ ∃ p, r = .resetDone p) ∨
      ((∃ i, s.eng = .writePending i) ∧ r = .writeDone) ∨
      ((∃ i, s.eng = .readPending i) ∧ ∃ v, r = .readDone v)) (k : EchoKeeps s m) :
    ∃ t, afterEvent (completeTransfer r m) = .next t ∧ t.Coherent := by
  cases hc : s.engCont
  case none =>
    have he := h.cont.1 hc
    simp [he] at hr
  case hostAsync => exact coherent_complete_hostAsync h hi hc r k
  case blocking => exact coherent_complete_blocking h hi hc r k
  case romMatch =>
    refine coherent_complete_match h hi hc r ?_ k
    rcases hr with hr | hr | ⟨⟨i, he⟩, -⟩
    · exact .inl hr
    · exact .inr hr
    · have hmatch := h.matching
      cases hm : s.m <;> simp_all [State.matchFits, State.writing]
  case dp => exact coherent_complete_dp h hi hc r (hr.imp_left And.left) k

/-- The index of the slot after slot `i`. -/
theorem val_nextSlot {i : Fin 8} (h : i.val < 7) : (i + 1).val = i.val + 1 := by
  omega

/-- The next slot of a byte write is sent (R93). -/
theorem coherent_nextWriteSlot (e : Byte) (h : s.Coherent) (hi : s.initDone = true) {i : Fin 8}
    (he : s.eng = .writePending i) (hlt : i.val < 7) :
    State.Coherent { State.tx { s with rx := e, slotOut := none } .engine
        (writeSlot s.cfg s.engData (i.val + 1)) .normal with eng := .writePending (i + 1) } := by
  obtain ⟨-, -, hcont, hbaud, -, hmatch, hres, hdev, hhost, hpos, hcfg⟩ := h
  refine ⟨by simp [hi], by simp [State.slotFits, val_nextSlot hlt], by simpa [he] using hcont,
    by simpa [he] using hbaud, fun _ hj => by simp at hj, ?_, hres, ?_, ?_, hpos, hcfg⟩
  · cases hm : s.m <;> simp_all [State.matchFits, State.writing]
  · cases hd : s.dp <;> simp_all [State.dpFits, State.writing]
  · cases hw : s.hostWait <;> simp_all [State.hostFits]

/-- The next slot of a byte read is sent, the bits from it on still being zero (R94, R19). -/
theorem coherent_nextReadSlot (e : Byte) (b : Bool) (h : s.Coherent) (hi : s.initDone = true)
    {i : Fin 8} (he : s.eng = .readPending i) (hlt : i.val < 7) :
    State.Coherent { State.tx { s with
        rx := e, slotOut := none, engData := setBit s.engData i.val b } .engine
        s.cfg.slotOne .normal with eng := .readPending (i + 1) } := by
  obtain ⟨-, -, hcont, hbaud, hacc, hmatch, hres, hdev, hhost, hpos, hcfg⟩ := h
  refine ⟨by simp [hi], by simp [State.slotFits], by simpa [he] using hcont,
    by simpa [he] using hbaud, fun i' hi' j hj => ?_, ?_, hres, ?_, ?_, hpos, hcfg⟩
  · obtain rfl : i + 1 = i' := by simpa using hi'
    rw [val_nextSlot hlt] at hj
    simp only [tx_engData, getLsbD_setBit _ _ _ i.isLt]
    rw [if_neg (by omega), hacc i he j (by omega)]
  · cases hm : s.m <;> simp_all [State.matchFits, State.writing]
  · cases hd : s.dp <;> simp_all [State.dpFits, State.writing]
  · cases hw : s.hostWait <;> simp_all [State.hostFits]

/-- The echo of a data slot changes no more than the received byte, the
accumulator and the engine's state (R93, R94). -/
theorem echoKeeps_of_dataSlot (h : s.Coherent) (hn : s.eng ≠ .resetPending) (e d : Byte) (g : Eng) :
    EchoKeeps s { s with rx := e, slotOut := none, engData := d, eng := g } :=
  ⟨rfl, rfl, rfl, rfl, rfl, rfl, rfl, rfl, rfl, rfl, rfl, rfl, rfl, rfl, rfl, rfl,
    h.baud_normal hn⟩

/-- The echo of a slot of the engine: the next slot, or the completion (R91 to R95). -/
theorem coherent_echoEngine (e : Byte) {b : Byte} (h : s.Coherent) (hi : s.initDone = true)
    (hs : s.slotOut = some (.engine, b)) :
    ∃ t, afterEvent (echoEngine e { s with rx := e, slotOut := none }) = .next t ∧
      t.Coherent := by
  cases he : s.eng <;> simp only [echoEngine]
  case idle =>
    have hslot := h.slot
    simp only [State.slotFits, he] at hslot
    exact absurd hs (hslot b)
  case resetPending =>
    exact coherent_complete h hi _ (.inl ⟨he, _, rfl⟩) (by constructor <;> rfl)
  case writePending i =>
    unfold echoWrite
    split
    next hlt =>
      have ht := coherent_nextWriteSlot e h hi he hlt
      exact ⟨_, ht.hostResume_eq, ht⟩
    · exact coherent_complete h hi _ (.inr (.inl ⟨⟨i, he⟩, rfl⟩))
        (echoKeeps_of_dataSlot h (by simp [he]) e s.engData _)
  case readPending i =>
    unfold echoRead
    dsimp only
    split
    next hlt =>
      have ht := coherent_nextReadSlot e (decodeBit s.cfg e) h hi he hlt
      exact ⟨_, ht.hostResume_eq, ht⟩
    · exact coherent_complete h hi _ (.inr (.inr ⟨⟨i, he⟩, _, rfl⟩))
        (echoKeeps_of_dataSlot h (by simp [he]) e _ _)

/-- An enabled echo has a next state, and a coherent one (R91). -/
theorem coherent_evEcho (e : Byte) (h : s.Coherent) (hi : s.initDone = true)
    (hs : s.slotOut ≠ none) : ∃ t, afterEvent (execEvEcho e s) = .next t ∧ t.Coherent := by
  obtain ⟨⟨o, b⟩, hs⟩ := Option.ne_none_iff_exists'.1 hs
  cases o with
  | engine => exact execEvEcho_engine hi hs e ▸ coherent_echoEngine e h hi hs
  | sync => exact execEvEcho_sync hi hs e ▸ coherent_syncEcho e h hi hs

/-! ### The timeout -/

/-- A timeout has a next state, and a coherent one: HOST returns, and the transfer goes on (R97). -/
theorem coherent_awaitTimesOut (h : s.Coherent) (ha : s.awaiting = true) :
    ∃ t, afterEvent (awaitTimesOut s) = .next t ∧ t.Coherent := by
  have hcall : s.call ≠ .none := by
    have hh := h.host
    intro hc
    rcases awaiting_iff.1 ha with ⟨hw, -⟩ | ⟨hw | hw | hw, -⟩ <;>
      simp [State.hostFits, hw, hc] at hh
  unfold awaitTimesOut
  split
  · have ht := coherent_ret (s := State.emit { s with hostWait := .none } (.log (.error .busTimeout)))
      (h.released.emit _) .busTimeout (if s.hostWait = .reset then .presence false else .none)
    exact ⟨_, ht.hostResume_eq, ht⟩
  next c _ _ =>
    have ht := coherent_searchFails (s := { s with hostWait := .none }) h.released c .busTimeout
    exact ⟨_, ht.hostResume_eq, ht⟩
  · contradiction

/-- Every event keeps the state coherent, with what HOST does after it. -/
theorem coherent_event {i : Instr} (h : s.Coherent) (he : i.isEvent = true)
    (hn : afterEvent (exec i s) = .next t) : t.Coherent := by
  cases i with simp only [exec] at hn
  | evEcho e =>
    rcases execEvEcho_enabled_or_refused s e with ⟨hi, hs⟩ | hr
    · obtain ⟨t', ht', hc⟩ := coherent_evEcho e h hi hs
      cases hn.symm.trans ht'
      exact hc
    · rw [hr] at hn
      cases hn
  | evSpinTimeout =>
    rw [execEvSpinTimeout_eq] at hn
    split at hn
    next ha =>
      obtain ⟨t', ht', hc⟩ := coherent_awaitTimesOut h ha.2
      cases hn.symm.trans ht'
      exact hc
    · cases hn
  | _ => cases he

/-- Settles O58: the input may be dropped from the inbox; then an operation or an event is run. -/
theorem stepKeepsCoherence : Obligations.StepKeepsCoherence := by
  intro s t h hn
  unfold step at hn
  split at hn
  · cases hn
    exact h
  next x rest hin =>
    have h' : State.Coherent { s with inbox := rest } := h.of_irrelevant rfl
    split at hn
    next hf => exact coherent_operation h' (not_isEvent_of_fetch_operation hf) hn
    · exact coherent_hostOp h' (fun _ hn => by cases hn; exact h'.emit _) hn
    next hf => exact coherent_event h' (isEvent_of_fetch_event hf) hn
    · cases hn
end Sys2Proof.Machine
end

section
/-! What a step can do to `S.initDone`, to the parameters, to the last-known-good temperature, to
the pull-up and to TX (10_state.md R17, R21, R42, R44), in any state, coherent or not. Relations of
a state and a later one say it, each built on `Proceeds`: `HostKeeps` of the work of HOST, of the
search and of the engine; `Calm` of that and of the Device Protocol while it goes on; `DpMoves` of
that and of its last completion. `step_cases` says once which of them a step meets, and the
statements follow. -/

namespace Sys2Proof.Machine

variable {s t m : State}

/-! ### The slots handed to the UART -/

/-- From `s` to `t` the ports carry no slot, and the slot in flight stays; or they carry one, none
being in flight before, and it is in flight after (R21, R87). -/
inductive Sends (s t : State) : Prop where
  | quiet (l : List OutEvent) (hout : t.out = s.out ++ l) (hl : l.filter OutEvent.isTx = [])
      (hslot : t.slotOut = s.slotOut)
  | slot (l : List OutEvent) (o : SlotOwner) (b : Byte) (rate : Baud) (hout : t.out = s.out ++ l)
      (hl : l.filter OutEvent.isTx = [.tx b rate]) (hfree : s.slotOut = none)
      (hslot : t.slotOut = some (o, b))

/-- Two parts of a step cannot both send: the slot of the first is in flight at the second. -/
theorem Sends.trans (h : Sends s m) (h' : Sends m t) : Sends s t := by
  rcases h with ⟨l, hout, hl, hslot⟩ | ⟨l, o, b, rate, hout, hl, hfree, hslot⟩ <;>
    rcases h' with ⟨l', hout', hl', hslot'⟩ | ⟨l', o', b', rate', hout', hl', hfree', hslot'⟩
  · exact .quiet (l ++ l') (by simp [hout', hout]) (by simp [hl, hl']) (hslot'.trans hslot)
  · exact .slot (l ++ l') o' b' rate' (by simp [hout', hout]) (by simp [hl, hl'])
      (hslot.symm.trans hfree') hslot'
  · exact .slot (l ++ l') o b rate (by simp [hout', hout]) (by simp [hl, hl']) hfree
      (hslot'.trans hslot)
  · simp [hslot] at hfree'

/-- Nothing on the ports, and the slot in flight as before. -/
theorem Sends.of_eq (ho : t.out = s.out) (hs : t.slotOut = s.slotOut) : Sends s t :=
  .quiet [] (by simp [ho]) rfl hs

/-- What the ports carry from `s` to `t` holds at most one slot, which is in flight in `t`. -/
theorem Sends.atMostOne (h : Sends s t) :
    ((t.out.drop s.out.length).filter OutEvent.isTx).length ≤ 1 ∧
      ∀ (b : Byte) (rate : Baud), OutEvent.tx b rate ∈ t.out.drop s.out.length →
        ∃ o, t.slotOut = some (o, b) := by
  have mem_filter {l : List OutEvent} {b : Byte} {rate : Baud} (hm : OutEvent.tx b rate ∈ l) :
      OutEvent.tx b rate ∈ l.filter OutEvent.isTx := List.mem_filter.2 ⟨hm, rfl⟩
  rcases h with ⟨l, hout, hl, hslot⟩ | ⟨l, o, b, rate, hout, hl, hfree, hslot⟩ <;>
    rw [hout, List.drop_left, hl]
  · exact ⟨by simp, fun b rate hm => by simpa [hl] using mem_filter hm⟩
  · refine ⟨by simp, fun b' rate' hm => ?_⟩
    obtain ⟨rfl, -⟩ : b' = b ∧ rate' = rate := by simpa [hl] using mem_filter hm
    exact ⟨o, hslot⟩

/-! ### The relations of a state and a later one -/

/-- What every part of a step but `init` does. -/
structure Proceeds (s t : State) : Prop where
  initDone : t.initDone = s.initDone
  cfg : t.cfg = s.cfg
  sends : Sends s t

/-- The temperature stays, and the pull-up does not turn strong. -/
structure Calm (s t : State) : Prop extends Proceeds s t where
  lkg : t.lkg = s.lkg
  strong : t.pullup = .strong → s.pullup = .strong

/-- Nothing of the Device Protocol changes. -/
structure HostKeeps (s t : State) : Prop extends Calm s t where
  dp : t.dp = s.dp
  dpOp : t.dpOp = s.dpOp
  sp : t.sp = s.sp
  dpCrc : t.dpCrc = s.dpCrc

/-- The temperature changes only as a read ends with a zero CRC (R131), and the pull-up turns strong
only as the command write of a conversion ends (R127). -/
structure DpMoves (s t : State) : Prop extends Proceeds s t where
  lkg : t.lkg = s.lkg ∨ s.dp = .awaitingReadByte 8 ∧ t.dp = .done ∧ t.dpCrc = 0#8 ∧
    t.lkg = decodeTemperature s.sp[0] s.sp[1]
  strong : t.pullup = .strong →
    s.pullup = .strong ∨ s.dp = .awaitingCommand ∧ s.dpOp = .convert ∧ t.dp = .done

theorem Proceeds.trans (h : Proceeds s m) (h' : Proceeds m t) : Proceeds s t :=
  ⟨h'.initDone.trans h.initDone, h'.cfg.trans h.cfg, h.sends.trans h'.sends⟩

theorem Calm.trans (h : Calm s m) (h' : Calm m t) : Calm s t :=
  ⟨h.toProceeds.trans h'.toProceeds, h'.lkg.trans h.lkg, h.strong ∘ h'.strong⟩

theorem HostKeeps.trans (h : HostKeeps s m) (h' : HostKeeps m t) : HostKeeps s t :=
  ⟨h.toCalm.trans h'.toCalm, h'.dp.trans h.dp, h'.dpOp.trans h.dpOp, h'.sp.trans h.sp,
    h'.dpCrc.trans h.dpCrc⟩

theorem Calm.dpMoves (h : Calm s t) : DpMoves s t :=
  ⟨h.toProceeds, .inl h.lkg, fun hs => .inl (h.strong hs)⟩

/-- What HOST does before a move of the Device Protocol does not change what that move is. -/
theorem HostKeeps.trans_dpMoves (h : HostKeeps s m) (h' : DpMoves m t) : DpMoves s t where
  toProceeds := h.toProceeds.trans h'.toProceeds
  lkg := by simpa only [h.lkg, h.dp, h.sp] using h'.lkg
  strong hs := by simpa only [h.dp, h.dpOp] using (h'.strong hs).imp_left h.strong

/-- Nor does what HOST does after it. -/
theorem DpMoves.trans_hostKeeps (h : DpMoves s m) (h' : HostKeeps m t) : DpMoves s t where
  toProceeds := h.toProceeds.trans h'.toProceeds
  lkg := by simpa only [h'.lkg, h'.dp, h'.dpCrc] using h.lkg
  strong hs := by simpa only [h'.dp] using h.strong (h'.strong hs)

/-- The fields that `Calm` does not look at may change. -/
theorem Calm.of_fields
    (e : { t with
      initDone := s.initDone, cfg := s.cfg, out := s.out, slotOut := s.slotOut, lkg := s.lkg,
      pullup := s.pullup } = t) : Calm s t := by
  rw [← e]
  exact { initDone := rfl, cfg := rfl, sends := .of_eq rfl rfl, lkg := rfl, strong := id }

/-- The fields that `HostKeeps` does not look at may change. -/
theorem HostKeeps.of_fields
    (e : { t with
      initDone := s.initDone, cfg := s.cfg, out := s.out, slotOut := s.slotOut, lkg := s.lkg,
      pullup := s.pullup, dp := s.dp, dpOp := s.dpOp, sp := s.sp, dpCrc := s.dpCrc } = t) :
    HostKeeps s t := by
  rw [← e]
  exact { Calm.of_fields rfl with dp := rfl, dpOp := rfl, sp := rfl, dpCrc := rfl }

/-- Outputs, and a slot where none is in flight, keep the Device Protocol. -/
theorem HostKeeps.of_sends (h : Sends s t)
    (e : { t with
      initDone := s.initDone, cfg := s.cfg, lkg := s.lkg, pullup := s.pullup, dp := s.dp,
      dpOp := s.dpOp, sp := s.sp, dpCrc := s.dpCrc } = t) : HostKeeps s t := by
  rw [← e] at h ⊢
  exact { initDone := rfl, cfg := rfl, sends := h, lkg := rfl, strong := id, dp := rfl, dpOp := rfl,
          sp := rfl, dpCrc := rfl }

theorem HostKeeps.refl (s : State) : HostKeeps s s := .of_fields rfl

/-! ### Outputs, starts and wrappers -/

theorem hostKeeps_emit (s : State) {e : OutEvent} (he : e.isTx = false) : HostKeeps s (s.emit e) :=
  .of_sends (.quiet [e] rfl (by simp [he]) rfl) rfl

theorem hostKeeps_ret (s : State) (st : Status) (v : RetVal) : HostKeeps s (s.ret st v) :=
  .of_sends (.quiet [_] rfl rfl rfl) rfl

theorem hostKeeps_setBaud (s : State) (b : Baud) : HostKeeps s (s.setBaud b) := by
  refine .of_sends ?_ rfl
  by_cases hb : s.baud = b
  · exact .of_eq (by simp [hb]) rfl
  · exact .quiet [.baud b] (by simp [hb]) rfl rfl

theorem hostKeeps_tx (hs : s.slotOut = none) (o : SlotOwner) (b : Byte) (rate : Baud) :
    HostKeeps s (s.tx o b rate) :=
  .of_sends (.slot [.tx b rate] o b rate rfl rfl hs rfl) rfl

/-- A start sends its slot only if none is in flight (R87). -/
theorem hostKeeps_startWith {accept : State → State}
    (ha : s.slotOut = none → HostKeeps s (accept s)) : HostKeeps s (startWith accept s).1 := by
  by_cases hb : s.engBusy
  · rw [startWith_busy hb]
    exact hostKeeps_emit s rfl
  · rw [startWith_free hb]
    exact ha (not_engBusy.1 hb).2

theorem hostKeeps_startReset (c : Cont) (s : State) : HostKeeps s (startReset c s).1 :=
  hostKeeps_startWith fun hs =>
    (hostKeeps_setBaud s .reset).trans
      ((hostKeeps_tx (s := s.setBaud .reset) hs .engine s.cfg.resetPattern .reset).trans
        (.of_fields rfl))

theorem hostKeeps_startWriteByte (v : Byte) (c : Cont) (s : State) :
    HostKeeps s (startWriteByte v c s).1 :=
  hostKeeps_startWith fun hs =>
    (hostKeeps_tx hs .engine (writeSlot s.cfg v 0) .normal).trans (.of_fields rfl)

theorem hostKeeps_startReadByte (c : Cont) (s : State) : HostKeeps s (startReadByte c s).1 :=
  hostKeeps_startWith fun hs =>
    (hostKeeps_tx hs .engine s.cfg.slotOne .normal).trans (.of_fields rfl)

theorem hostKeeps_startSlot (b : Bool) (s : State) : HostKeeps s (startSlot b s).1 :=
  hostKeeps_startWith fun hs =>
    (hostKeeps_tx hs .sync (slotByte s.cfg b) .normal).trans (.of_fields rfl)

theorem hostKeeps_blockOn {r : State × Status} (h : HostKeeps s r.1) (w : HostWait) :
    HostKeeps s (blockOn w r).1 := by
  unfold blockOn
  split
  · exact h.trans (.of_fields rfl)
  · exact h

theorem hostKeeps_blockReset (s : State) : HostKeeps s (blockReset s).1 :=
  hostKeeps_blockOn (hostKeeps_startReset _ s) _

theorem hostKeeps_blockWrite (v : Byte) (s : State) : HostKeeps s (blockWrite v s).1 :=
  hostKeeps_blockOn (hostKeeps_startWriteByte v _ s) _

theorem hostKeeps_blockRead (s : State) : HostKeeps s (blockRead s).1 :=
  hostKeeps_blockOn (hostKeeps_startReadByte _ s) _

theorem hostKeeps_returnStatus {r : State × Status} (h : HostKeeps s r.1)
    (hn : returnStatus r = .next t) : HostKeeps s t := by
  cases hn
  exact h.trans (hostKeeps_ret _ _ _)

theorem hostKeeps_enterAwait {r : State × Status} (h : HostKeeps s r.1)
    (hn : enterAwait r = .next t) : HostKeeps s t := by
  unfold enterAwait at hn
  split at hn
  · cases hn
    exact h.trans (.of_fields rfl)
  · exact hostKeeps_returnStatus h hn

theorem hostKeeps_matchStart (a : Addr) (c : MatchClient) (s : State) :
    HostKeeps s (matchStart a c s).1 := by
  unfold matchStart
  split
  · exact hostKeeps_emit s rfl
  · split
    · exact hostKeeps_emit s rfl
    · exact (HostKeeps.of_fields rfl).trans ((hostKeeps_startReset .romMatch
        { s with mAddr := a, mClient := c, mResult := .pending }).trans (.of_fields rfl))

/-! ### The search -/

theorem hostKeeps_searchEnds (c : SearchCaller) (st : Status) (s : State) :
    HostKeeps s (searchEnds c st s) := by
  cases c <;> exact hostKeeps_ret s _ _

theorem hostKeeps_searchFails (c : SearchCaller) (k : ErrorKind) (s : State) :
    HostKeeps s (searchFails c k s) :=
  (HostKeeps.of_fields rfl).trans
    ((hostKeeps_emit s.clearSearch (e := .log (.error k)) rfl).trans (hostKeeps_searchEnds c _ _))

theorem hostKeeps_searchNextStart (c : SearchCaller) (s : State) :
    HostKeeps s (searchNextStart c s) := by
  unfold searchNextStart
  split
  · exact (HostKeeps.of_fields rfl).trans (hostKeeps_searchEnds c _ s.clearSearch)
  · dsimp only
    split
    · exact (hostKeeps_blockReset s).trans (.of_fields rfl)
    · exact (hostKeeps_blockReset s).trans (hostKeeps_searchEnds c _ _)

theorem hostKeeps_searchFirstStart (f : Byte) (c : SearchCaller) (s : State) :
    HostKeeps s (searchFirstStart f c s) := by
  refine HostKeeps.trans (.of_fields ?_) (hostKeeps_searchNextStart c _)
  split <;> rfl

theorem hostKeeps_searchFound (c : SearchCaller) (a : Addr) (s : State) :
    HostKeeps s (searchFound c a s) := by
  unfold searchFound
  split
  · exact hostKeeps_ret s _ _
  · split
    · exact (HostKeeps.of_fields rfl).trans (hostKeeps_ret s.clearSearch _ _)
    · exact hostKeeps_ret s _ _
  · dsimp only
    split
    · exact hostKeeps_ret s _ _
    · exact hostKeeps_searchNextStart _ s

theorem hostKeeps_passEnd (c : SearchCaller) (s : State) : HostKeeps s (passEnd c s) := by
  unfold passEnd
  split
  · exact hostKeeps_searchFails c _ s
  · exact (HostKeeps.of_fields rfl).trans (hostKeeps_searchFound c _ _)

theorem hostKeeps_passSlot {c : SearchCaller} {pt : PassPoint} {b : Bool}
    (hn : passSlot c pt b s = .next t) : HostKeeps s t := by
  unfold passSlot at hn
  dsimp only at hn
  split at hn
  · cases hn
    exact (hostKeeps_startSlot b s).trans (.of_fields rfl)
  · cases hn

theorem hostKeeps_passPair {c : SearchCaller} {k : Fin 64} {x comp : Bool}
    (hn : passPair c k x comp s = .next t) : HostKeeps s t := by
  unfold passPair at hn
  split at hn
  · cases hn
    exact hostKeeps_searchFails c _ s
  · split at hn
    · exact hostKeeps_passSlot hn
    · refine HostKeeps.trans (.of_fields ?_) (hostKeeps_passSlot hn)
      split <;> rfl

theorem hostKeeps_passDirDone {c : SearchCaller} {k : Fin 64} {d : Bool}
    (hn : passDirDone c k d s = .next t) : HostKeeps s t := by
  refine HostKeeps.trans (m := recordDir k d s) (.of_fields rfl) ?_
  unfold passDirDone at hn
  dsimp only at hn
  split at hn
  · exact hostKeeps_passSlot hn
  · cases hn
    exact hostKeeps_passEnd c _

theorem hostKeeps_passResetDone {c : SearchCaller} {p : Bool}
    (hn : passResetDone c p s = .next t) : HostKeeps s t := by
  unfold passResetDone at hn
  split at hn
  · dsimp only at hn
    split at hn
    · cases hn
      exact (hostKeeps_blockWrite _ s).trans (.of_fields rfl)
    · cases hn
  · cases hn
    exact hostKeeps_searchFails c _ s

theorem hostKeeps_passCommandDone {c : SearchCaller} (hn : passCommandDone c s = .next t) :
    HostKeeps s t :=
  (HostKeeps.of_fields rfl).trans (hostKeeps_passSlot hn)

/-! ### HOST at its await -/

theorem hostKeeps_slotDone {b : Bool} (hn : slotDone b s = .next t) : HostKeeps s t := by
  unfold slotDone at hn
  split at hn
  · cases hn
    exact hostKeeps_ret s _ _
  · exact hostKeeps_passSlot hn
  · exact hostKeeps_passPair hn
  · exact hostKeeps_passDirDone hn
  · cases hn

theorem hostKeeps_resetDone {p : Bool} (hn : resetDone p s = .next t) : HostKeeps s t := by
  unfold resetDone at hn
  split at hn
  · cases hn
    exact hostKeeps_ret s _ _
  · exact hostKeeps_passResetDone hn
  · cases hn

theorem hostKeeps_writeDone (hn : writeDone s = .next t) : HostKeeps s t := by
  unfold writeDone at hn
  split at hn
  · cases hn
    exact hostKeeps_ret s _ _
  · exact hostKeeps_passCommandDone hn
  · cases hn

theorem hostKeeps_readDone {v : Byte} (hn : readDone v s = .next t) : HostKeeps s t := by
  unfold readDone at hn
  split at hn
  · cases hn
    exact hostKeeps_ret s _ _
  · cases hn

/-- HOST's going on at its await keeps the Device Protocol (R67). -/
theorem hostKeeps_hostResume (hn : hostResume s = .next t) : HostKeeps s t := by
  have stays (hn : Host.Outcome.next s = (.next t : Outcome)) : HostKeeps s t := by
    cases hn
    exact .refl s
  unfold hostResume at hn
  split at hn
  · exact stays hn
  · split at hn
    · exact stays hn
    · exact (HostKeeps.of_fields rfl).trans (hostKeeps_slotDone hn)
  all_goals split at hn
  · exact (HostKeeps.of_fields rfl).trans (hostKeeps_resetDone hn)
  · exact stays hn
  · exact (HostKeeps.of_fields rfl).trans (hostKeeps_writeDone hn)
  · exact stays hn
  · exact (HostKeeps.of_fields rfl).trans (hostKeeps_readDone hn)
  · exact stays hn

/-- A timeout keeps the Device Protocol (R97). -/
theorem hostKeeps_awaitTimesOut (hn : awaitTimesOut s = .next t) : HostKeeps s t := by
  unfold awaitTimesOut at hn
  refine HostKeeps.trans (m := { s with hostWait := .none }) (.of_fields rfl) ?_
  dsimp only at hn
  split at hn
  · cases hn
    exact (hostKeeps_emit _ rfl).trans (hostKeeps_ret _ _ _)
  · cases hn
    exact hostKeeps_searchFails _ _ _
  · cases hn

/-! ### The Device Protocol and the match -/

/-- The command byte is written (R126). -/
theorem calm_dpMatchDone (s : State) : Calm s (dpMatchDone s) :=
  (hostKeeps_startWriteByte _ .dp s).toCalm.trans (.of_fields rfl)

/-- The end of the command write turns the pull-up strong for a conversion (R127), and starts the
first read else (R128). -/
theorem dpMoves_dpCommandDone (hd : s.dp = .awaitingCommand) : DpMoves s (dpCommandDone s) := by
  unfold dpCommandDone
  split
  next ho =>
    exact {
      initDone := rfl
      cfg := rfl
      sends := by
        by_cases hp : s.pullup = .strong
        · exact .of_eq (by simp [hp]) rfl
        · exact .quiet [.line .strong] (by simp [hp]) rfl rfl
      lkg := .inl rfl
      strong := fun _ => .inr ⟨hd, ho, rfl⟩ }
  · exact ((Calm.of_fields rfl).trans ((hostKeeps_startReadByte .dp
      { s with dpCrc := 0#8 }).toCalm.trans (.of_fields rfl))).dpMoves

/-- The gate takes the temperature exactly when the CRC is zero (R131). -/
theorem gate_lkg (x : Tenths) (s : State) :
    (gate x s).lkg = if s.dpCrc = 0#8 then x else s.lkg := by
  unfold gate
  split <;> rfl

/-- The gate logs at most (R131). -/
theorem gate_out (x : Tenths) (s : State) :
    ∃ l, (gate x s).out = s.out ++ l ∧ l.filter OutEvent.isTx = [] := by
  unfold gate
  split
  · split
    · exact ⟨[.log .tempJump], rfl, rfl⟩
    · exact ⟨[], by simp, rfl⟩
  · exact ⟨[.log (.error .crcMismatch)], rfl, rfl⟩

/-- The ninth byte of a read is gated, an earlier one asks for the next (R129, R131). -/
theorem dpMoves_dpByteDone {k : Fin 9} (hd : s.dp = .awaitingReadByte k) (v : Byte) :
    DpMoves s (dpByteDone k v s) := by
  by_cases hk : k = 8
  · subst hk
    obtain ⟨l, hout, hl⟩ := gate_out (decodeTemperature s.sp[0] s.sp[1])
      { s with sp := s.sp.set 8 v, dpCrc := crc8Step s.dpCrc v }
    rw [dpByteDone_last, gate_eq]
    exact {
      initDone := rfl
      cfg := rfl
      sends := .quiet l hout hl rfl
      lkg := by
        by_cases hc : crc8Step s.dpCrc v = 0#8
        · exact .inr ⟨hd, rfl, hc, by simp [gate_lkg, hc]⟩
        · exact .inl (by simp [gate_lkg, hc])
      strong := .inl }
  · have hlt : k.val + 1 < s.cfg.scratchpadLen.val := by rw [scratchpadLen_val]; omega
    simp only [dpByteDone, hlt, if_true]
    exact ((Calm.of_fields rfl).trans ((hostKeeps_startReadByte .dp
      (storeScratchpad k v s)).toCalm.trans (.of_fields rfl))).dpMoves

theorem dpMoves_dpStep {r : DpSignal} (hn : dpStep r s = .next t) : DpMoves s t := by
  unfold dpStep at hn
  split at hn
  · cases hn
    exact (calm_dpMatchDone s).dpMoves
  next hd =>
    cases hn
    exact dpMoves_dpCommandDone hd
  next hd =>
    cases hn
    exact dpMoves_dpByteDone hd _
  · cases hn

theorem dpMoves_matchDone (hn : matchDone s = .next t) : DpMoves s t := by
  refine HostKeeps.trans_dpMoves (m := { s with m := .idle, mResult := .ok }) (.of_fields rfl) ?_
  unfold matchDone at hn
  dsimp only at hn
  split at hn
  · cases hn
    exact (HostKeeps.refl _).dpMoves
  · exact dpMoves_dpStep hn

/-- A failed match logs, and aborts the Device Protocol if that is its client (R117, R132). -/
theorem calm_matchFailed (s : State) : Calm s (matchFailed s) := by
  have hlog := (HostKeeps.of_fields (s := s) (t := { s with m := .idle, mResult := .failed })
    rfl).trans (hostKeeps_emit _ (e := .log (.error .noDevice)) rfl)
  unfold matchFailed
  dsimp only
  split
  · exact hlog.toCalm
  · exact hlog.toCalm.trans (.of_fields rfl)

theorem hostKeeps_matchCommand (s : State) : HostKeeps s (matchCommand s) := by
  unfold matchCommand
  split <;> exact (hostKeeps_startWriteByte _ _ s).trans (.of_fields rfl)

theorem hostKeeps_matchSendByte (k : Fin 8) (s : State) : HostKeeps s (matchSendByte k s) :=
  (hostKeeps_startWriteByte _ _ s).trans (.of_fields rfl)

theorem dpMoves_matchStep {r : TransferResult} (hn : matchStep r s = .next t) : DpMoves s t := by
  unfold matchStep at hn
  split at hn
  · cases hn
    split
    · exact (hostKeeps_matchCommand s).dpMoves
    · exact (calm_matchFailed s).dpMoves
  · exact dpMoves_matchDone hn
  · cases hn
    exact (hostKeeps_matchSendByte _ s).dpMoves
  · split at hn
    · cases hn
      exact (hostKeeps_matchSendByte _ s).dpMoves
    · exact dpMoves_matchDone hn
  · cases hn

/-! ### The receive handler -/

theorem dpMoves_deliver {c : Cont} {r : TransferResult} (hn : deliver c r s = .next t) :
    DpMoves s t := by
  cases c with
  | hostAsync =>
    cases hn
    exact ((HostKeeps.of_fields rfl).trans (hostKeeps_emit
      { s with xferDone := true, xferKind := transferKind r, xferValue := transferByte r }
      rfl)).dpMoves
  | blocking =>
    cases hn
    exact (HostKeeps.of_fields rfl).dpMoves
  | romMatch => exact dpMoves_matchStep hn
  | dp => exact dpMoves_dpStep hn
  | none =>
    cases hn
    exact (HostKeeps.refl s).dpMoves

theorem dpMoves_completeTransfer {r : TransferResult} (hn : completeTransfer r s = .next t) :
    DpMoves s t :=
  (HostKeeps.of_fields rfl).trans_dpMoves (dpMoves_deliver hn)

/-- The handler finds no slot in flight, so it may send one (R91 to R95). -/
theorem dpMoves_echoEngine {e : Byte} (hs : s.slotOut = none) (hn : echoEngine e s = .next t) :
    DpMoves s t := by
  unfold echoEngine at hn
  split at hn
  · exact ((HostKeeps.of_fields rfl).trans (hostKeeps_setBaud
      { s with presence := presenceOf s.cfg e } .normal)).trans_dpMoves
      (dpMoves_completeTransfer hn)
  · unfold echoWrite at hn
    split at hn
    · cases hn
      exact ((hostKeeps_tx hs _ _ _).trans (.of_fields rfl)).dpMoves
    · exact dpMoves_completeTransfer hn
  · unfold echoRead at hn
    dsimp only at hn
    split at hn
    · cases hn
      exact ((hostKeeps_tx hs _ _ _).trans (.of_fields rfl)).dpMoves
    · exact (HostKeeps.of_fields rfl).trans_dpMoves (dpMoves_completeTransfer hn)
  · cases hn

/-- After an event, a next state is the one HOST goes on to from that of the event. -/
theorem afterEvent_next {o : Outcome} (hn : afterEvent o = .next t) :
    ∃ m, o = .next m ∧ hostResume m = .next t := by
  cases o with
  | next m => exact ⟨m, rfl, hn⟩
  | fault f => cases hn
  | refused r => cases hn

/-- An echo takes the slot in flight from the ports, then the handler and HOST go on (R91). -/
theorem dpMoves_evEcho {e : Byte} (hn : afterEvent (execEvEcho e s) = .next t) :
    DpMoves { s with rx := e, slotOut := none } t := by
  rcases execEvEcho_enabled_or_refused s e with ⟨hi, hs⟩ | hr
  · obtain ⟨⟨o, b⟩, hs⟩ := Option.ne_none_iff_exists'.1 hs
    cases o with
    | engine =>
      rw [execEvEcho_engine hi hs] at hn
      obtain ⟨m, hm, hn⟩ := afterEvent_next hn
      exact (dpMoves_echoEngine rfl hm).trans_hostKeeps (hostKeeps_hostResume hn)
    | sync =>
      rw [execEvEcho_sync hi hs] at hn
      exact ((HostKeeps.of_fields rfl).trans (hostKeeps_hostResume hn)).dpMoves
  · rw [hr] at hn
    cases hn

/-- A timeout, with HOST's return (R97). -/
theorem hostKeeps_evSpinTimeout (hn : afterEvent (execEvSpinTimeout s) = .next t) :
    HostKeeps s t := by
  rw [execEvSpinTimeout_eq] at hn
  split at hn
  · obtain ⟨m, hm, hn⟩ := afterEvent_next hn
    exact (hostKeeps_awaitTimesOut hm).trans (hostKeeps_hostResume hn)
  · cases hn

/-! ### The host operations -/

/-- A start of the Device Protocol turns the pull-up weak (R124, R125). -/
theorem calm_acceptDp (op : DpOp) (a : Addr) (s : State) : Calm s (acceptDp op a s) := by
  have hweak : Calm s { s.setPullup .weak with dpOp := op, dp := .awaitingMatch } := {
    initDone := rfl
    cfg := rfl
    sends := by
      by_cases hp : s.pullup = .weak
      · exact .of_eq (by simp [hp]) rfl
      · exact .quiet [.line .weak] (by simp [hp]) rfl rfl
    lkg := rfl
    strong := fun h => by cases h }
  exact hweak.trans (hostKeeps_matchStart a .dp _).toCalm

theorem calm_dpStart {accept : State → State} (ha : Calm s (accept s))
    (hn : dpStart accept s = .next t) : Calm s t := by
  cases hn
  split
  · exact ((hostKeeps_emit s rfl).trans (hostKeeps_ret _ _ _)).toCalm
  · exact ha.trans (hostKeeps_ret _ _ _).toCalm

theorem calm_hostOp {run : State → Outcome} (hrun : run s = .next t → Calm s t)
    (hn : hostOp s run = .next t) : Calm s t := by
  rcases hostOp_next hn with ⟨-, rfl⟩ | ⟨-, hn⟩
  · exact (hostKeeps_emit s rfl).toCalm
  · exact hrun hn

/-- Every host operation but `init` keeps the temperature and sends at most one slot. -/
theorem calm_operation {i : Instr} (he : i.isEvent = false) (hi : i ≠ .init)
    (hn : exec i s = .next t) : Calm s t := by
  cases i with simp only [exec] at hn
  | evEcho | evSpinTimeout => cases he
  | init => exact absurd rfl hi
  | sendSlot imm =>
    refine calm_hostOp (fun hn => ?_) hn
    split at hn
    · exact (hostKeeps_enterAwait (hostKeeps_startSlot _ s) hn).toCalm
    · cases hn
      exact (hostKeeps_emit s rfl).toCalm
  | startReset =>
    exact calm_hostOp (fun hn => (hostKeeps_returnStatus (hostKeeps_startReset _ s) hn).toCalm) hn
  | startWriteByte v =>
    exact calm_hostOp
      (fun hn => (hostKeeps_returnStatus (hostKeeps_startWriteByte v _ s) hn).toCalm) hn
  | startReadByte =>
    exact calm_hostOp
      (fun hn => (hostKeeps_returnStatus (hostKeeps_startReadByte _ s) hn).toCalm) hn
  | getTransferResult =>
    refine calm_hostOp (fun hn => ?_) hn
    cases hn
    split <;> exact (hostKeeps_ret s _ _).toCalm
  | resetBlocking =>
    exact calm_hostOp (fun hn => (hostKeeps_enterAwait (hostKeeps_blockReset s) hn).toCalm) hn
  | writeByteBlocking v =>
    exact calm_hostOp (fun hn => (hostKeeps_enterAwait (hostKeeps_blockWrite v s) hn).toCalm) hn
  | readByteBlocking =>
    exact calm_hostOp (fun hn => (hostKeeps_enterAwait (hostKeeps_blockRead s) hn).toCalm) hn
  | searchFirst f =>
    refine calm_hostOp (fun hn => ?_) hn
    cases hn
    exact (hostKeeps_searchFirstStart f _ s).toCalm
  | searchNext =>
    refine calm_hostOp (fun hn => ?_) hn
    cases hn
    exact (hostKeeps_searchNextStart _ s).toCalm
  | familySkip =>
    refine calm_hostOp (fun hn => ?_) hn
    cases hn
    exact ((HostKeeps.of_fields rfl).trans (hostKeeps_ret _ _ _)).toCalm
  | searchDevices n =>
    refine calm_hostOp (fun hn => ?_) hn
    cases hn
    split
    · exact (hostKeeps_ret s _ _).toCalm
    · exact (hostKeeps_searchFirstStart _ _ s).toCalm
  | matchAddress a =>
    exact calm_hostOp
      (fun hn => (hostKeeps_returnStatus (hostKeeps_matchStart a .host s) hn).toCalm) hn
  | getMatchResult =>
    refine calm_hostOp (fun hn => ?_) hn
    cases hn
    exact (hostKeeps_ret s _ _).toCalm
  | startConversion a => exact calm_hostOp (calm_dpStart (calm_acceptDp .convert a s)) hn
  | startTemperatureRead a =>
    exact calm_hostOp (calm_dpStart
      (Calm.trans (.of_fields rfl) (calm_acceptDp .read a (freshScratchpad s)))) hn
  | getTemperatureResult a =>
    refine calm_hostOp (fun hn => ?_) hn
    cases hn
    exact (hostKeeps_ret s _ _).toCalm

/-- A next state of `init` (R141). -/
theorem execInit_next (hn : execInit s = .next t) : t = (initState s).ret .ok .none := by
  unfold execInit at hn
  split at hn
  · cases hn
  · cases hn
    rfl

/-! ### The input of a step -/

/-- A fetched host operation is a command that decodes to it (R75). -/
theorem eq_command_of_fetch_operation {x : Input} {i : Instr} (h : fetch x = .operation i) :
    ∃ c, x = .command c ∧ decodeCommand c = .ok i := by
  cases x with
  | command c =>
    simp only [fetch] at h
    split at h
    next hc =>
      cases h
      exact ⟨c, rfl, hc⟩
    · cases h
  | event w =>
    simp only [fetch, decodeEvent] at h
    split at h
    · split at h <;> cases h
    · cases h

/-- A row without an immediate operand accepts IMM8 = 0 alone (R78). -/
theorem decodePlain_eq_ok {imm : Byte} {i j : Instr} :
    decodePlain imm i = .ok j ↔ imm = 0#8 ∧ i = j := by
  unfold decodePlain
  split <;> simp_all

/-- `sendSlot` accepts its legal immediates (R78). -/
theorem decodeSlot_eq_ok {imm : Byte} {j : Instr} :
    decodeSlot imm = .ok j ↔ slotOperandLegal imm = true ∧ .sendSlot imm = j := by
  unfold decodeSlot
  split <;> simp_all

/-- What decodes to an instruction has its OPC and its IMM8: row by row of the table (R76). -/
theorem fields_of_decodeFields {opc imm : Byte} {a : Addr} {i : Instr}
    (h : decodeFields opc imm a = .ok i) : opc = opcode i ∧ imm = immediate i := by
  rw [← BitVec.toNat_inj]
  unfold decodeFields at h
  split at h <;>
    simp only [decodePlain_eq_ok, decodeSlot_eq_ok, Except.ok.injEq, reduceCtorEq] at h <;>
    grind [opcode, immediate]

/-- A fetched echo is the event word of its byte (R76, R91). -/
theorem eq_echoInput_of_fetch_event {x : Input} {e : Byte} (h : fetch x = .event (.evEcho e)) :
    x = echoInput e := by
  cases x with
  | command c =>
    simp only [fetch] at h
    split at h <;> cases h
  | event w =>
    simp only [fetch, decodeEvent] at h
    split at h
    next hd =>
      split at h
      · cases h
        obtain ⟨hopc, himm⟩ := fields_of_decodeFields hd
        rw [echoInput, ← wordOf_fields w, hopc, himm]
        rfl
      · cases h
    · cases h

/-! ### What a step can do -/

/-- The ways a step can go. -/
inductive StepCase (s t : State) : Prop where
  /-- No input, a timeout, an illegal word, or an operation other than `init`. -/
  | calm (h : Calm s t)
  /-- A command that decodes to `init` (R141). -/
  | init (c : Command) (rest : List Input) (hin : s.inbox = .command c :: rest)
      (hdec : decodeCommand c = .ok .init)
      (ht : t = (initState { s with inbox := rest }).ret .ok .none)
  /-- An echo, which leaves no slot in flight for the handler (R91). -/
  | echo (e : Byte) (rest : List Input) (hin : s.inbox = echoInput e :: rest)
      (h : DpMoves { s with inbox := rest, rx := e, slotOut := none } t)

theorem stepCase_operation {x : Input} {rest : List Input} {i : Instr}
    (hin : s.inbox = x :: rest) (hf : fetch x = .operation i)
    (hn : exec i { s with inbox := rest } = .next t) : StepCase s t := by
  by_cases hi : i = .init
  · subst hi
    obtain ⟨c, rfl, hdec⟩ := eq_command_of_fetch_operation hf
    exact .init c rest hin hdec (execInit_next hn)
  · exact .calm ((Calm.of_fields rfl).trans
      (calm_operation (not_isEvent_of_fetch_operation hf) hi hn))

theorem stepCase_event {x : Input} {rest : List Input} {i : Instr}
    (hin : s.inbox = x :: rest) (hf : fetch x = .event i)
    (hn : afterEvent (exec i { s with inbox := rest }) = .next t) : StepCase s t := by
  have he := isEvent_of_fetch_event hf
  cases i with simp only [exec] at hn
  | evEcho e =>
    exact .echo e rest (hin.trans (by rw [eq_echoInput_of_fetch_event hf])) (dpMoves_evEcho hn)
  | evSpinTimeout =>
    exact .calm ((HostKeeps.of_fields rfl).trans (hostKeeps_evSpinTimeout hn)).toCalm
  | _ => cases he

/-- Every step that answers a next state goes one of these ways. -/
theorem step_cases (hn : step s = .next t) : StepCase s t := by
  unfold step at hn
  split at hn
  · cases hn
    exact .calm (HostKeeps.refl s).toCalm
  next x rest hin =>
    split at hn
    next hf => exact stepCase_operation hin hf hn
    · refine .calm ((Calm.of_fields rfl).trans (calm_hostOp (fun hn => ?_) hn))
      cases hn
      exact (hostKeeps_emit _ rfl).toCalm
    next hf => exact stepCase_event hin hf hn
    · cases hn

/-! ### The statements -/

/-- Settles O9: `init` sets the flag, and every other step keeps it. -/
theorem initDoneIsNeverCleared : Obligations.InitDoneIsNeverCleared := by
  refine ⟨rfl, fun s t hn => ?_, fun s t hn hi => ?_⟩
  · rw [execInit_next hn]
    rfl
  · rcases step_cases hn with h | ⟨c, rest, -, -, rfl⟩ | ⟨e, rest, -, h⟩
    · exact h.initDone.trans hi
    · rfl
    · exact h.initDone.trans hi

/-- Settles O53: the cases of a step, and for an echo what the Device Protocol does. -/
theorem lkgChangesOnlyByInitOrAGoodRead : Obligations.LkgChangesOnlyByInitOrAGoodRead := by
  intro s t hn
  rcases step_cases hn with h | ⟨c, rest, hin, hdec, rfl⟩ | ⟨e, rest, hin, h⟩
  · exact .inl h.lkg
  · exact .inr (.inl ⟨c, rest, hin, hdec, rfl, rfl⟩)
  · rcases h.lkg with hl | hl
    · exact .inl hl
    · exact .inr (.inr ⟨e, rest, hin, hl⟩)

/-- Settles O54: a calm step and `init` do not turn the pull-up strong. -/
theorem pullupTurnsStrongOnlyAtAConversion : Obligations.PullupTurnsStrongOnlyAtAConversion := by
  intro s t hn hw ht
  have weak_not_strong : s.pullup ≠ .strong := by simp [hw]
  rcases step_cases hn with h | ⟨c, rest, -, -, rfl⟩ | ⟨e, rest, -, h⟩
  · exact absurd (h.strong ht) weak_not_strong
  · cases ht
  · exact (h.strong ht).resolve_left weak_not_strong

/-- Settles O55: every part of a step sends only if nothing is in flight, so at most one does. -/
theorem atMostOneSlotPerStep : Obligations.AtMostOneSlotPerStep := by
  intro s t hn
  rcases step_cases hn with h | ⟨c, rest, -, -, rfl⟩ | ⟨e, rest, -, h⟩
  · exact h.sends.atMostOne
  · exact Sends.atMostOne (s := { s with slotOut := none })
      (.quiet [.baud .normal, .line .weak, .result .ok .none] (by simp) rfl rfl)
  · exact h.sends.atMostOne

end Sys2Proof.Machine
end

section
/-! Proof of the search's invariant (20_memory.md R52, 44_rom_search.md R109 to R115), in any state,
coherent or not. The engine, the match and the Device Protocol leave alone all that a sound search is
about, which `State.searchView` collects. What HOST does at a return or in a search pass is sound
where the addresses returned and found so far are valid, and the pass reads bits only with its running
CRC at that of the bytes completed. -/

namespace Sys2Proof.Machine

variable {s t : State}

/-! ### The running CRC -/

/-- Byte `j` of an address after the first `j` (R52). -/
theorem take_succ_addrBytes (a : Addr) {j : Nat} (h : j < 8) :
    (addrBytes a).take (j + 1) = (addrBytes a).take j ++ [addrByte a j] := by
  rw [List.take_add_one, addrBytes, List.getElem?_map, List.getElem?_range h]
  rfl

/-- The CRC goes on from that of the bytes before (R102). -/
theorem crc8_concat (bs : List Byte) (b : Byte) : crc8 (bs ++ [b]) = crc8Step (crc8 bs) b := by
  simp only [crc8, List.foldl_append, List.foldl_cons, List.foldl_nil]

/-- A bit of a later byte is none of an earlier one's (R52, R53). -/
theorem addrByte_setBit (a : Addr) {k j : Nat} (d : Bool) (hk : k < 64) (hj : j < k / 8) :
    addrByte (setBit a k d) j = addrByte a j := by
  refine BitVec.eq_of_getLsbD_eq fun i hi => ?_
  have hne : 8 * j + i ≠ k := by omega
  simp only [addrByte, BitVec.getLsbD_extractLsb', getLsbD_setBit _ _ _ hk, if_neg hne]

/-- So the bytes before that of bit `k` stay as bit `k` is written. -/
theorem take_addrBytes_setBit (a : Addr) {k : Nat} (d : Bool) (hk : k < 64) :
    (addrBytes (setBit a k d)).take (k / 8) = (addrBytes a).take (k / 8) := by
  simp only [addrBytes, ← List.map_take, List.take_range]
  refine List.map_congr_left fun j hj => addrByte_setBit a d hk ?_
  have hj := List.mem_range.1 hj
  omega

/-- A direction bit folds into the running CRC the byte it completes, if any (R109). -/
theorem searchCrc_recordDir (k : Fin 64) (d : Bool)
    (h : s.searchCrc = crc8 ((addrBytes s.rom).take (k.val / 8))) :
    (recordDir k d s).searchCrc =
      crc8 ((addrBytes (recordDir k d s).rom).take ((k.val + 1) / 8)) := by
  rw [recordDir_searchCrc, recordDir_rom]
  split
  next hfold =>
    have hdiv : (k.val + 1) / 8 = k.val / 8 + 1 := by omega
    rw [hdiv, take_succ_addrBytes _ (by omega), crc8_concat, take_addrBytes_setBit _ _ k.isLt, h]
  next hmid =>
    have hdiv : (k.val + 1) / 8 = k.val / 8 := by omega
    rw [hdiv, take_addrBytes_setBit _ _ k.isLt, h]

/-! ### What a sound search is about -/

/-- The addresses the RESULT port has carried. -/
def State.returned (s : State) : List Addr := s.out.flatMap OutEvent.addresses

/-- The part of the state that `State.SearchSound` looks at. -/
def State.searchView (s : State) : List Addr × HostCall × Addr × Byte :=
  (s.returned, s.call, s.rom, s.searchCrc)

/-- Every address returned satisfies the CRC invariant (R52). -/
abbrev State.ReturnsValid (s : State) : Prop := ∀ a ∈ s.returned, addrValid a

/-- The addresses a search has found before the pass it runs (R115). -/
def SearchCaller.found : SearchCaller → List Addr
  | .devices _ l => l
  | _ => []

/-- Every address found before satisfies the CRC invariant (R52). -/
abbrev SearchCaller.FoundValid (c : SearchCaller) : Prop := ∀ a ∈ c.found, addrValid a

/-- The running CRC is that of the bytes completed when `n` positions are resolved (R109). -/
abbrev State.CrcRuns (s : State) (n : Nat) : Prop :=
  s.searchCrc = crc8 ((addrBytes s.rom).take (n / 8))

theorem SearchCaller.FoundValid.of_nil {c : SearchCaller} (h : c.found = []) : c.FoundValid := by
  simp [SearchCaller.FoundValid, h]

theorem addresses_search (c : SearchCaller) (pt : PassPoint) :
    (HostCall.search c pt).addresses = c.found := by
  cases c <;> rfl

theorem searchSound_iff :
    s.SearchSound ↔ s.ReturnsValid ∧ (∀ a ∈ s.call.addresses, addrValid a) ∧
      ∀ n, s.call.resolved = some n → s.CrcRuns n := by
  have hret : s.ReturnsValid ↔ ∀ e ∈ s.out, ∀ a ∈ e.addresses, addrValid a := by
    simp only [State.ReturnsValid, State.returned, List.mem_flatMap]
    exact ⟨fun h e he a ha => h a ⟨e, he, ha⟩, fun h a ⟨e, he, ha⟩ => h e he a ha⟩
  rw [hret]
  exact ⟨fun h => ⟨h.returned, h.listed, h.running⟩, fun ⟨hr, hl, hc⟩ => ⟨hr, hl, hc⟩⟩

theorem State.SearchSound.returnsValid (h : s.SearchSound) : s.ReturnsValid :=
  (searchSound_iff.1 h).1

/-- A running search has found only valid addresses. -/
theorem State.SearchSound.foundValid (h : s.SearchSound) {c : SearchCaller} {pt : PassPoint}
    (hc : s.call = .search c pt) : c.FoundValid := by
  have hl := h.listed
  rwa [hc, addresses_search] at hl

theorem State.ReturnsValid.of_view (h : s.ReturnsValid) (e : t.searchView = s.searchView) :
    t.ReturnsValid := by
  have hret : t.returned = s.returned := congrArg Prod.fst e
  rwa [State.ReturnsValid, hret]

theorem State.SearchSound.of_view (h : s.SearchSound) (e : t.searchView = s.searchView) :
    t.SearchSound := by
  simp only [State.searchView, Prod.mk.injEq] at e
  obtain ⟨hret, hcall, hrom, hcrc⟩ := e
  rw [searchSound_iff, State.ReturnsValid, hret, hcall]
  simpa only [State.CrcRuns, hrom, hcrc] using searchSound_iff.1 h

/-! ### What leaves it alone -/

/-- An output that carries no address. -/
theorem searchView_emit (s : State) {e : OutEvent} (he : e.addresses = []) :
    (s.emit e).searchView = s.searchView := by
  simp [State.searchView, State.returned, he]

theorem searchView_tx (s : State) (o : SlotOwner) (b : Byte) (rate : Baud) :
    (s.tx o b rate).searchView = s.searchView := searchView_emit s (e := .tx b rate) rfl

theorem searchView_setBaud (s : State) (b : Baud) : (s.setBaud b).searchView = s.searchView := by
  by_cases hb : s.baud = b
  · simp [State.searchView, State.returned, hb]
  · simp [State.searchView, State.returned, hb, OutEvent.addresses]

theorem searchView_setPullup (s : State) (p : Pullup) :
    (s.setPullup p).searchView = s.searchView := by
  by_cases hp : s.pullup = p
  · simp [State.searchView, State.returned, hp]
  · simp [State.searchView, State.returned, hp, OutEvent.addresses]

/-- A start that is refused only logs (R87). -/
theorem searchView_startWith {accept : State → State}
    (ha : (accept s).searchView = s.searchView) :
    (startWith accept s).1.searchView = s.searchView := by
  by_cases hb : s.engBusy
  · rw [startWith_busy hb]
    exact searchView_emit s rfl
  · rwa [startWith_free hb]

theorem searchView_startReset (c : Cont) (s : State) :
    (startReset c s).1.searchView = s.searchView :=
  searchView_startWith ((searchView_tx (s.setBaud .reset) .engine _ .reset).trans
    (searchView_setBaud s .reset))

theorem searchView_startWriteByte (v : Byte) (c : Cont) (s : State) :
    (startWriteByte v c s).1.searchView = s.searchView :=
  searchView_startWith (searchView_tx s .engine (writeSlot s.cfg v 0) .normal)

theorem searchView_startReadByte (c : Cont) (s : State) :
    (startReadByte c s).1.searchView = s.searchView :=
  searchView_startWith (searchView_tx s .engine s.cfg.slotOne .normal)

theorem searchView_startSlot (b : Bool) (s : State) :
    (startSlot b s).1.searchView = s.searchView :=
  searchView_startWith (searchView_tx s .sync (slotByte s.cfg b) .normal)

theorem searchView_blockOn (w : HostWait) (r : State × Status) :
    (blockOn w r).1.searchView = r.1.searchView := by
  unfold blockOn
  split <;> rfl

theorem searchView_blockReset (s : State) : (blockReset s).1.searchView = s.searchView :=
  (searchView_blockOn _ _).trans (searchView_startReset _ s)

theorem searchView_blockWrite (v : Byte) (s : State) :
    (blockWrite v s).1.searchView = s.searchView :=
  (searchView_blockOn _ _).trans (searchView_startWriteByte v _ s)

theorem searchView_blockRead (s : State) : (blockRead s).1.searchView = s.searchView :=
  (searchView_blockOn _ _).trans (searchView_startReadByte _ s)

theorem searchView_matchStart (a : Addr) (c : MatchClient) (s : State) :
    (matchStart a c s).1.searchView = s.searchView := by
  unfold matchStart
  split
  · exact searchView_emit s rfl
  · split
    · exact searchView_emit s rfl
    · exact searchView_startReset .romMatch { s with mAddr := a, mClient := c, mResult := .pending }

theorem searchView_acceptDp (op : DpOp) (a : Addr) (s : State) :
    (acceptDp op a s).searchView = s.searchView :=
  (searchView_matchStart a .dp _).trans (searchView_setPullup s .weak)

/-! ### The Device Protocol, the match and the receive handler -/

theorem searchView_dpCommandDone (s : State) : (dpCommandDone s).searchView = s.searchView := by
  unfold dpCommandDone
  split
  · exact searchView_setPullup s .strong
  · exact searchView_startReadByte .dp { s with dpCrc := 0#8 }

theorem searchView_gate (x : Tenths) (s : State) : (gate x s).searchView = s.searchView := by
  unfold gate
  split
  · split
    · exact searchView_emit s rfl
    · rfl
  · exact searchView_emit s rfl

theorem searchView_dpByteDone (k : Fin 9) (v : Byte) (s : State) :
    (dpByteDone k v s).searchView = s.searchView := by
  unfold dpByteDone
  dsimp only
  split
  · exact searchView_startReadByte .dp (storeScratchpad k v s)
  · exact searchView_gate _ (storeScratchpad k v s)

theorem searchView_dpStep {r : DpSignal} (hn : dpStep r s = .next t) :
    t.searchView = s.searchView := by
  unfold dpStep at hn
  split at hn <;> cases hn
  · exact searchView_startWriteByte _ .dp s
  · exact searchView_dpCommandDone s
  · exact searchView_dpByteDone _ _ s

theorem searchView_matchDone (hn : matchDone s = .next t) : t.searchView = s.searchView := by
  unfold matchDone at hn
  dsimp only at hn
  split at hn
  · cases hn
    rfl
  · exact (searchView_dpStep hn).trans rfl

theorem searchView_matchFailed (s : State) : (matchFailed s).searchView = s.searchView := by
  unfold matchFailed
  dsimp only
  split <;> exact searchView_emit s (e := .log (.error .noDevice)) rfl

theorem searchView_matchCommand (s : State) : (matchCommand s).searchView = s.searchView := by
  unfold matchCommand
  split <;> exact searchView_startWriteByte _ .romMatch s

theorem searchView_matchStep {r : TransferResult} (hn : matchStep r s = .next t) :
    t.searchView = s.searchView := by
  unfold matchStep at hn
  split at hn
  · cases hn
    split
    · exact searchView_matchCommand s
    · exact searchView_matchFailed s
  · exact searchView_matchDone hn
  · cases hn
    exact searchView_startWriteByte _ .romMatch s
  · split at hn
    · cases hn
      exact searchView_startWriteByte _ .romMatch s
    · exact searchView_matchDone hn
  · cases hn

/-- A result is delivered to a register or to a sequencer (R95). -/
theorem searchView_deliver {c : Cont} {r : TransferResult} (hn : deliver c r s = .next t) :
    t.searchView = s.searchView := by
  cases c with
  | hostAsync =>
    cases hn
    exact searchView_emit s (e := .complete _ _) rfl
  | blocking =>
    cases hn
    rfl
  | romMatch => exact searchView_matchStep hn
  | dp => exact searchView_dpStep hn
  | none =>
    cases hn
    rfl

theorem searchView_completeTransfer {r : TransferResult} (hn : completeTransfer r s = .next t) :
    t.searchView = s.searchView :=
  (searchView_deliver hn).trans rfl

/-- The receive handler (R91 to R95). -/
theorem searchView_echoEngine {e : Byte} (hn : echoEngine e s = .next t) :
    t.searchView = s.searchView := by
  unfold echoEngine at hn
  split at hn
  · exact (searchView_completeTransfer hn).trans
      (searchView_setBaud { s with presence := presenceOf s.cfg e } .normal)
  · unfold echoWrite at hn
    split at hn
    · cases hn
      exact searchView_tx s .engine _ .normal
    · exact searchView_completeTransfer hn
  · unfold echoRead at hn
    dsimp only at hn
    split at hn
    · cases hn
      exact searchView_tx s .engine _ .normal
    · exact (searchView_completeTransfer hn).trans rfl
  · cases hn

theorem searchView_evEcho {e : Byte} (hn : execEvEcho e s = .next t) :
    t.searchView = s.searchView := by
  unfold execEvEcho at hn
  split at hn
  · cases hn
    rfl
  · exact (searchView_echoEngine hn).trans rfl
  · cases hn

/-! ### Returns and passes -/

/-- The addresses returned after a return. -/
theorem returned_ret (s : State) (st : Status) (v : RetVal) :
    (s.ret st v).returned = s.returned ++ (OutEvent.result st v).addresses := by
  simp [State.returned]

/-- HOST may return valid addresses; no search runs then (R11). -/
theorem State.ReturnsValid.ret (h : s.ReturnsValid) {st : Status} {v : RetVal}
    (hv : ∀ a ∈ (OutEvent.result st v).addresses, addrValid a) : (s.ret st v).SearchSound := by
  refine searchSound_iff.2 ⟨?_, nofun, nofun⟩
  rw [State.ReturnsValid, returned_ret]
  exact List.forall_mem_append.2 ⟨h, hv⟩

/-- HOST may return no address. -/
theorem State.ReturnsValid.ret_nil (h : s.ReturnsValid) {st : Status} {v : RetVal}
    (hv : (OutEvent.result st v).addresses = []) : (s.ret st v).SearchSound :=
  h.ret (by simp [hv])

/-- HOST may stand at any point of a pass at which the running CRC is right. -/
theorem State.ReturnsValid.search (h : s.ReturnsValid) {c : SearchCaller} (hc : c.FoundValid)
    {pt : PassPoint} (hrun : ∀ n, (HostCall.search c pt).resolved = some n → s.CrcRuns n) :
    State.SearchSound { s with call := .search c pt } :=
  searchSound_iff.2 ⟨h, by rwa [addresses_search], hrun⟩

section
variable {c : SearchCaller} (h : s.ReturnsValid) (hc : c.FoundValid)
include h hc

theorem searchSound_searchEnds (st : Status) : (searchEnds c st s).SearchSound := by
  cases c with
  | next => exact h.ret_nil rfl
  | first f => exact h.ret_nil rfl
  | devices n l => exact h.ret hc

theorem searchSound_searchFails (k : ErrorKind) : (searchFails c k s).SearchSound :=
  have hlog := State.ReturnsValid.of_view (s := s.clearSearch) h
    (searchView_emit s.clearSearch (e := .log (.error k)) rfl)
  searchSound_searchEnds hlog hc _

/-- The start of a pass: its reset resolves no position yet (R109, R111). -/
theorem searchSound_searchNextStart : (searchNextStart c s).SearchSound := by
  unfold searchNextStart
  have hreset := h.of_view (searchView_blockReset s)
  split
  · exact searchSound_searchEnds (s := s.clearSearch) h hc _
  · dsimp only
    split
    · exact hreset.search hc nofun
    · exact searchSound_searchEnds hreset hc _

theorem searchSound_searchFirstStart (f : Byte) : (searchFirstStart f c s).SearchSound := by
  unfold searchFirstStart
  dsimp only
  split <;> exact searchSound_searchNextStart (by exact h) hc

/-- A valid address found is returned, or listed (R111, R112, R115). -/
theorem searchSound_searchFound {a : Addr} (ha : addrValid a) : (searchFound c a s).SearchSound := by
  have hone : ∀ b ∈ [a], addrValid b := List.forall_mem_singleton.2 ha
  cases c with unfold searchFound
  | next => exact h.ret hone
  | first f =>
    dsimp only
    split
    · exact State.ReturnsValid.ret_nil (s := s.clearSearch) h rfl
    · exact h.ret hone
  | devices n l =>
    have hl : ∀ b ∈ l ++ [a], addrValid b := List.forall_mem_append.2 ⟨hc, hone⟩
    dsimp only
    split
    · exact h.ret hl
    · exact searchSound_searchNextStart h hl

/-- The running CRC of all eight bytes decides whether the address is valid (R103, R110). -/
theorem searchSound_passEnd (hcrc : s.CrcRuns 64) : (passEnd c s).SearchSound := by
  unfold passEnd
  split
  · exact searchSound_searchFails h hc _
  next hzero =>
    have ha : addrValid s.rom := hcrc.symm.trans (not_not.1 hzero)
    exact searchSound_searchFound (by exact h) hc ha

theorem searchSound_passSlot {pt : PassPoint} {b : Bool}
    (hrun : ∀ n, (HostCall.search c pt).resolved = some n → s.CrcRuns n)
    (hn : passSlot c pt b s = .next t) : t.SearchSound := by
  by_cases hb : s.engBusy
  · simp [passSlot, startSlot_busy b hb] at hn
  · rw [passSlot_free c pt b hb] at hn
    cases hn
    refine State.SearchSound.of_view (h.search hc hrun) ?_
    exact searchView_tx { s with call := .search c pt } .sync _ .normal

/-- A bit pair, with the first `k` positions resolved (R107 to R109). -/
theorem searchSound_passPair {k : Fin 64} {x comp : Bool} (hcrc : s.CrcRuns k)
    (hn : passPair c k x comp s = .next t) : t.SearchSound := by
  have hrun {d : Bool} : ∀ n, (HostCall.search c (.writeDir k d)).resolved = some n →
      s.CrcRuns n := fun n hk => Option.some.inj hk ▸ hcrc
  unfold passPair at hn
  split at hn
  · cases hn
    exact searchSound_searchFails h hc _
  · split at hn
    · exact searchSound_passSlot h hc hrun hn
    · dsimp only at hn
      split at hn
      · exact searchSound_passSlot h hc hrun hn
      · exact searchSound_passSlot (s := recordZero k s) h hc hrun hn

/-- A direction bit written: `k + 1` positions are resolved (R109). -/
theorem searchSound_passDirDone {k : Fin 64} {d : Bool} (hcrc : s.CrcRuns k)
    (hn : passDirDone c k d s = .next t) : t.SearchSound := by
  have hnext : (recordDir k d s).CrcRuns (k.val + 1) := searchCrc_recordDir k d hcrc
  unfold passDirDone at hn
  simp only [romBits_val] at hn
  split at hn
  next hlt =>
    have hval : (k + 1).val = k.val + 1 := by omega
    refine searchSound_passSlot (s := recordDir k d s) h hc (fun n hk => ?_) hn
    obtain rfl : (k + 1).val = n := Option.some.inj hk
    rwa [hval]
  next hlast =>
    cases hn
    have hval : k.val + 1 = 64 := by omega
    exact searchSound_passEnd (s := recordDir k d s) h hc (hval ▸ hnext)

theorem searchSound_passResetDone {p : Bool} (hn : passResetDone c p s = .next t) :
    t.SearchSound := by
  unfold passResetDone at hn
  split at hn
  · dsimp only at hn
    split at hn
    · cases hn
      exact (h.of_view (searchView_blockWrite _ s)).search hc nofun
    · cases hn
  · cases hn
    exact searchSound_searchFails h hc _

/-- The first position: nothing is resolved and the CRC is zero (R109). -/
theorem searchSound_passCommandDone (hn : passCommandDone c s = .next t) : t.SearchSound :=
  searchSound_passSlot (s := { s with lastZero := 0, searchCrc := 0#8 }) h hc
    (fun _ hk => by cases hk; rfl) hn

end

/-! ### HOST at its await -/

theorem searchSound_slotDone {b : Bool} (h : s.SearchSound) (hn : slotDone b s = .next t) :
    t.SearchSound := by
  have hr := h.returnsValid
  unfold slotDone at hn
  split at hn
  · cases hn
    exact hr.ret_nil rfl
  next c k hcall =>
    refine searchSound_passSlot hr (h.foundValid hcall) (fun n hk => h.running n ?_) hn
    rwa [hcall]
  next c k x hcall =>
    exact searchSound_passPair hr (h.foundValid hcall) (h.running k (by rw [hcall]; rfl)) hn
  next c k d hcall =>
    exact searchSound_passDirDone hr (h.foundValid hcall) (h.running k (by rw [hcall]; rfl)) hn
  · cases hn

theorem searchSound_resetDone {p : Bool} (h : s.SearchSound) (hn : resetDone p s = .next t) :
    t.SearchSound := by
  unfold resetDone at hn
  split at hn
  · cases hn
    exact h.returnsValid.ret_nil rfl
  next c hcall => exact searchSound_passResetDone h.returnsValid (h.foundValid hcall) hn
  · cases hn

theorem searchSound_writeDone (h : s.SearchSound) (hn : writeDone s = .next t) :
    t.SearchSound := by
  unfold writeDone at hn
  split at hn
  · cases hn
    exact h.returnsValid.ret_nil rfl
  next c hcall => exact searchSound_passCommandDone h.returnsValid (h.foundValid hcall) hn
  · cases hn

theorem searchSound_readDone {v : Byte} (h : s.SearchSound) (hn : readDone v s = .next t) :
    t.SearchSound := by
  unfold readDone at hn
  split at hn <;> cases hn
  exact h.returnsValid.ret_nil rfl

theorem searchSound_hostResume (h : s.SearchSound) (hn : hostResume s = .next t) :
    t.SearchSound := by
  have stays (hn : Host.Outcome.next s = (.next t : Outcome)) : t.SearchSound := by
    cases hn
    exact h
  have released (x : Option Byte) : State.SearchSound { s with syncEcho := x, hostWait := .none } :=
    h.of_view rfl
  unfold hostResume at hn
  split at hn
  · exact stays hn
  · split at hn
    · exact stays hn
    · exact searchSound_slotDone (released none) hn
  all_goals split at hn
  · exact searchSound_resetDone (released s.syncEcho) hn
  · exact stays hn
  · exact searchSound_writeDone (released s.syncEcho) hn
  · exact stays hn
  · exact searchSound_readDone (released s.syncEcho) hn
  · exact stays hn

theorem searchSound_awaitTimesOut (h : s.SearchSound) (hn : awaitTimesOut s = .next t) :
    t.SearchSound := by
  unfold awaitTimesOut at hn
  dsimp only at hn
  split at hn <;> cases hn
  · have hlog := h.returnsValid.of_view (searchView_emit s (e := .log (.error .busTimeout)) rfl)
    refine State.ReturnsValid.ret_nil (by exact hlog) ?_
    split <;> rfl
  next c pt hcall => exact searchSound_searchFails (by exact h.returnsValid) (h.foundValid hcall) _

/-! ### The host operations -/

theorem searchSound_hostOp {run : State → Outcome} (h : s.SearchSound)
    (hrun : run s = .next t → t.SearchSound) (hn : hostOp s run = .next t) : t.SearchSound := by
  rcases hostOp_next hn with ⟨-, rfl⟩ | ⟨-, hn⟩
  · exact h.of_view (searchView_emit s rfl)
  · exact hrun hn

theorem searchSound_returnStatus {r : State × Status} (h : s.SearchSound)
    (e : r.1.searchView = s.searchView) (hn : returnStatus r = .next t) : t.SearchSound := by
  cases hn
  exact (h.returnsValid.of_view e).ret_nil rfl

theorem searchSound_enterAwait {r : State × Status} (h : s.SearchSound)
    (e : r.1.searchView = s.searchView) (hn : enterAwait r = .next t) : t.SearchSound := by
  unfold enterAwait at hn
  split at hn
  · cases hn
    have hr : r.1.ReturnsValid := h.returnsValid.of_view e
    exact searchSound_iff.2 ⟨hr, nofun, nofun⟩
  · exact searchSound_returnStatus h e hn

theorem searchSound_dpStart {accept : State → State} (h : s.SearchSound)
    (e : (accept s).searchView = s.searchView) (hn : dpStart accept s = .next t) :
    t.SearchSound := by
  cases hn
  split
  · exact (h.returnsValid.of_view (searchView_emit s rfl)).ret_nil rfl
  · exact (h.returnsValid.of_view e).ret_nil rfl

theorem searchSound_execInit (h : s.SearchSound) (hn : execInit s = .next t) : t.SearchSound := by
  rw [execInit_next hn]
  refine State.ReturnsValid.ret_nil (fun a ha => h.returnsValid a ?_) rfl
  simpa [State.returned, OutEvent.addresses] using ha

/-- Every host operation keeps the search sound. -/
theorem searchSound_operation {i : Instr} (h : s.SearchSound) (he : i.isEvent = false)
    (hn : exec i s = .next t) : t.SearchSound := by
  have hr := h.returnsValid
  cases i with simp only [exec] at hn
  | evEcho | evSpinTimeout => cases he
  | init => exact searchSound_execInit h hn
  | sendSlot imm =>
    refine searchSound_hostOp h (fun hn => ?_) hn
    split at hn
    · exact searchSound_enterAwait h (searchView_startSlot _ s) hn
    · cases hn
      exact h.of_view (searchView_emit s rfl)
  | startReset =>
    exact searchSound_hostOp h (searchSound_returnStatus h (searchView_startReset _ s)) hn
  | startWriteByte v =>
    exact searchSound_hostOp h (searchSound_returnStatus h (searchView_startWriteByte v _ s)) hn
  | startReadByte =>
    exact searchSound_hostOp h (searchSound_returnStatus h (searchView_startReadByte _ s)) hn
  | getTransferResult =>
    refine searchSound_hostOp h (fun hn => ?_) hn
    cases hn
    split <;> exact hr.ret_nil rfl
  | resetBlocking =>
    exact searchSound_hostOp h (searchSound_enterAwait h (searchView_blockReset s)) hn
  | writeByteBlocking v =>
    exact searchSound_hostOp h (searchSound_enterAwait h (searchView_blockWrite v s)) hn
  | readByteBlocking =>
    exact searchSound_hostOp h (searchSound_enterAwait h (searchView_blockRead s)) hn
  | searchFirst f =>
    refine searchSound_hostOp h (fun hn => ?_) hn
    cases hn
    exact searchSound_searchFirstStart hr (.of_nil rfl) f
  | searchNext =>
    refine searchSound_hostOp h (fun hn => ?_) hn
    cases hn
    exact searchSound_searchNextStart hr (.of_nil rfl)
  | familySkip =>
    refine searchSound_hostOp h (fun hn => ?_) hn
    cases hn
    exact State.ReturnsValid.ret_nil (by exact hr) rfl
  | searchDevices n =>
    refine searchSound_hostOp h (fun hn => ?_) hn
    cases hn
    split
    · exact hr.ret_nil rfl
    · exact searchSound_searchFirstStart hr (.of_nil rfl) _
  | matchAddress a =>
    exact searchSound_hostOp h (searchSound_returnStatus h (searchView_matchStart a .host s)) hn
  | getMatchResult =>
    refine searchSound_hostOp h (fun hn => ?_) hn
    cases hn
    exact hr.ret_nil rfl
  | startConversion a =>
    exact searchSound_hostOp h (searchSound_dpStart h (searchView_acceptDp .convert a s)) hn
  | startTemperatureRead a =>
    exact searchSound_hostOp h
      (searchSound_dpStart h (searchView_acceptDp .read a (freshScratchpad s))) hn
  | getTemperatureResult a =>
    refine searchSound_hostOp h (fun hn => ?_) hn
    cases hn
    exact hr.ret_nil rfl

/-- An event, with HOST's going on at its await, keeps the search sound (R67). -/
theorem searchSound_event {i : Instr} (h : s.SearchSound) (he : i.isEvent = true)
    (hn : afterEvent (exec i s) = .next t) : t.SearchSound := by
  obtain ⟨m, hm, hn⟩ := afterEvent_next hn
  refine searchSound_hostResume ?_ hn
  cases i with simp only [exec] at hm
  | evEcho e => exact h.of_view (searchView_evEcho hm)
  | evSpinTimeout =>
    rw [execEvSpinTimeout_eq] at hm
    split at hm
    · exact searchSound_awaitTimesOut h hm
    · cases hm
  | _ => cases he

/-- Settles O40: the input may be dropped from the inbox; then an operation or an event is run. -/
theorem stepKeepsTheSearchSound : Obligations.StepKeepsTheSearchSound := by
  intro s t h hn
  unfold step at hn
  split at hn
  · cases hn
    exact h
  next x rest hin =>
    have h' : State.SearchSound { s with inbox := rest } := h.of_view rfl
    split at hn
    next hf => exact searchSound_operation h' (not_isEvent_of_fetch_operation hf) hn
    · refine searchSound_hostOp h' (fun hn => ?_) hn
      cases hn
      exact h'.of_view (searchView_emit _ rfl)
    next hf => exact searchSound_event h' (isEvent_of_fetch_event hf) hn
    · cases hn

end Sys2Proof.Machine
end

section
/-! Proof of what the two named laws of the bus give for an echo (20_memory.md R64), and of how a
byte on the bus expands to eight slots (20_memory.md R54, 30_encoding.md R72, R74). -/

namespace Sys2Proof.Machine

variable {s : State}

/-! ### The laws of the bus -/

/-- The data slots of R72 decode to their bits under both settings of `ECHO_DECODE` (R83). -/
theorem decodeBit_slotByte {g : Config} (hone : g.slotOne = 0xFF#8) (hzero : g.slotZero = 0x00#8)
    (v : Bool) : decodeBit g (slotByte g v) = v := by
  cases v <;> cases hd : g.echoDecode <;> simp [slotByte, decodeBit, hone, hzero, hd]

/-- Under `EchoOpenDrain` a slot of zeros reads back as sent. -/
theorem EchoOpenDrain.eq_zero {e : Byte} (h : EchoOpenDrain 0x00#8 e) : e = 0x00#8 := by
  rwa [EchoOpenDrain, BitVec.not_zero, BitVec.and_allOnes] at h

/-- Under `EchoOpenDrain` an echo of ones answers a slot of ones. -/
theorem EchoOpenDrain.eq_ones {b : Byte} (h : EchoOpenDrain b 0xFF#8) : b = 0xFF#8 := by
  revert b
  unfold EchoOpenDrain
  decide

/-- Under `ExactOnes` only an echo of ones reads 1 (R83). -/
theorem eq_ones_of_decodeBit {g : Config} {e : Byte} (hd : g.echoDecode = .exactOnes)
    (h : decodeBit g e = true) : e = 0xFF#8 := by
  simpa [decodeBit, hd] using h

/-- Settles O18: the echo is determined by its law, then decoded. -/
theorem busLawsFixTheEcho : Obligations.BusLawsFixTheEcho := by
  refine fun g b e => ⟨fun hone hzero => ⟨fun v hidle => ?_, fun hdrain => ?_⟩,
    fun hidle => ?_, fun hdrain hd he => ?_⟩
  · rw [hidle not_false, decodeBit_slotByte hone hzero]
  · rw [hzero] at hdrain
    rw [hdrain.eq_zero, ← hzero]
    exact decodeBit_slotByte hone hzero false
  · simp [presenceOf, hidle not_false]
  · rw [eq_ones_of_decodeBit hd he] at hdrain
    exact hdrain.eq_ones

/-! ### The slots of a byte -/

/-- Slot `i` of a byte is in flight, with HOST not interrupted: `pend` is the engine's state at each
slot and `slots` are the slot bytes, those of a write (R93) or those of a read (R94). -/
structure State.MidByte (s : State) (pend : Fin 8 → Eng) (slots : Nat → Byte) (i : Fin 8) :
    Prop where
  initDone : s.initDone = true
  undisturbed : s.undisturbed
  slot : ∃ b, s.slotOut = some (.engine, b)
  eng : s.eng = pend i
  kind : (pend = .writePending ∧ slots = writeSlot s.cfg s.engData) ∨
    (pend = .readPending ∧ slots = fun _ => s.cfg.slotOne)

/-- An echo before the last slot of a byte sends the next slot (R91, R93, R94). -/
theorem State.MidByte.next_slot {pend : Fin 8 → Eng} {slots : Nat → Byte} {i : Fin 8} {e : Byte}
    {rest : List Input} (h : s.MidByte pend slots i) (hi : i.val < 7)
    (hin : s.inbox = echoInput e :: rest) :
    ∃ t, step s = .next t ∧ t.MidByte pend slots (i + 1) ∧ t.inbox = rest ∧
      t.out = s.out ++ [.tx (slots (i.val + 1)) .normal] := by
  obtain ⟨hinit, hwait, ⟨b, hslot⟩, heng, hkind⟩ := h
  have hresume {t : State} (hm : t.undisturbed) : afterEvent (.next t) = .next t :=
    hm.elim hostResume_none hostResume_awaiting
  rw [step_echo hin, execEvEcho_engine (by exact hinit) (by exact hslot)]
  rcases hkind with ⟨rfl, rfl⟩ | ⟨rfl, rfl⟩
  · simp only [echoEngine, heng, echoWrite, if_pos hi]
    exact ⟨_, hresume hwait, ⟨hinit, hwait, ⟨_, rfl⟩, rfl, .inl ⟨rfl, rfl⟩⟩, rfl, rfl⟩
  · simp only [echoEngine, heng, echoRead, if_pos hi]
    exact ⟨_, hresume hwait, ⟨hinit, hwait, ⟨_, rfl⟩, rfl, .inr ⟨rfl, rfl⟩⟩, rfl, rfl⟩

/-- A run of several steps begins with the first. -/
theorem run_succ {m : State} (h : step s = .next m) (n : Nat) :
    Host.Core.run Sys2Proof.core (n + 1) s = Host.Core.run Sys2Proof.core n m := by
  have hstep : Sys2Proof.core.step s = .next m := h
  simp only [Host.Core.run, hstep]

/-- Echoes up to the last slot of a byte send the slots from the next one on, in order. -/
theorem State.MidByte.run_echoes {pend : Fin 8 → Eng} {slots : Nat → Byte} {rest : List Input}
    (es : List Byte) {i : Fin 8} (h : s.MidByte pend slots i) (hlen : i.val + es.length = 7)
    (hin : s.inbox = es.map echoInput ++ rest) :
    ∃ t, Host.Core.run Sys2Proof.core es.length s = .next t ∧ t.inbox = rest ∧ t.eng = pend 7 ∧
      t.out = s.out ++ (List.range' (i.val + 1) es.length).map fun j => .tx (slots j) .normal := by
  induction es generalizing s i with
  | nil =>
    have h7 : i = 7 := Fin.ext hlen
    exact ⟨s, rfl, hin, h7 ▸ h.eng, by simp⟩
  | cons e es ih =>
    rw [List.length_cons] at hlen
    obtain ⟨m, hstep, hm, hinm, houtm⟩ := h.next_slot (by omega) hin
    have hval : (i + 1).val = i.val + 1 := val_nextSlot (by omega)
    obtain ⟨t, hrun, hint, heng, hout⟩ := ih hm (by omega) hinm
    refine ⟨t, ?_, hint, heng, ?_⟩
    · rw [List.length_cons, run_succ hstep, hrun]
    · rw [hout, houtm, hval, List.length_cons, List.range'_succ, List.map_cons, List.append_assoc,
        List.singleton_append]

/-- A byte write just accepted has slot 0 in flight (R89). -/
theorem midByte_acceptWrite (v : Byte) (c : Cont) (hi : s.initDone = true) (hw : s.undisturbed)
    (l : List Input) :
    State.MidByte { acceptWrite v c s with inbox := l } .writePending (writeSlot s.cfg v) 0 :=
  ⟨hi, hw, ⟨_, rfl⟩, rfl, .inl ⟨rfl, rfl⟩⟩

/-- A byte read just accepted has slot 0 in flight (R90). -/
theorem midByte_acceptRead (c : Cont) (hi : s.initDone = true) (hw : s.undisturbed)
    (l : List Input) :
    State.MidByte { acceptRead c s with inbox := l } .readPending (fun _ => s.cfg.slotOne) 0 :=
  ⟨hi, hw, ⟨_, rfl⟩, rfl, .inr ⟨rfl, rfl⟩⟩

/-- Settles O25: slot 0 goes out with the start, and seven echoes send the other seven. -/
theorem bytesExpandToEightSlots : Obligations.BytesExpandToEightSlots := by
  intro s c v es rest hi hw hb hlen
  have hsum : (0 : Fin 8).val + es.length = 7 := by simpa using hlen
  rw [startWriteByte_free v c hb, startReadByte_free c hb]
  constructor
  · obtain ⟨t, hrun, hin, heng, hout⟩ := (midByte_acceptWrite v c hi hw _).run_echoes es hsum rfl
    rw [hlen] at hrun hout
    refine ⟨t, hrun, hin, heng, hout.trans ?_⟩
    simp [writeSlot, slotByte, byteBit, List.range']
  · obtain ⟨t, hrun, hin, heng, hout⟩ := (midByte_acceptRead c hi hw _).run_echoes es hsum rfl
    rw [hlen] at hrun hout
    refine ⟨t, hrun, hin, heng, hout.trans ?_⟩
    simp [List.range']

end Sys2Proof.Machine
end

section
/-! Proofs of the statements about the host command word (30_encoding.md R75 to R79): the decoder and
the encoder agree, and an illegal word returns `Illegal` without effect. -/

namespace Sys2Proof

/-! ### The instruction of a word -/

/-- A row without an immediate is accepted exactly when IMM8 is 0 (R78). -/
theorem decodePlain_eq_ok_iff {imm : Byte} {i j : Instr} :
    decodePlain imm j = .ok i ↔ imm = 0#8 ∧ j = i := by
  unfold decodePlain
  split <;> simp [*]

/-- `sendSlot` is accepted exactly with a legal operand (R78). -/
theorem decodeSlot_eq_ok_iff {imm : Byte} {i : Instr} :
    decodeSlot imm = .ok i ↔ slotOperandLegal imm = true ∧ .sendSlot imm = i := by
  unfold decodeSlot
  split <;> simp [*]

/-- An instruction whose operands are those of the given fields: IMM8 and, where its row takes one,
ADDR (R77). -/
structure Instr.HasFields (i : Instr) (opc imm : Byte) (addr : Addr) : Prop where
  wellFormed : i.wellFormed = true
  opcode : opcode i = opc
  immediate : immediate i = imm
  address : ∀ a, address? i = some a → a = addr

/-- What the table of R76 answers has the fields it was read from. -/
theorem hasFields_of_decodeFields {opc imm : Byte} {addr : Addr} {i : Instr}
    (h : decodeFields opc imm addr = .ok i) : i.HasFields opc imm addr := by
  unfold decodeFields at h
  split at h
  -- by the arms of the table: `sendSlot`, no row, the rows with any IMM8, the rows without one
  case h_2 hopc =>
    obtain ⟨hlegal, rfl⟩ := decodeSlot_eq_ok_iff.1 h
    exact ⟨hlegal, BitVec.eq_of_toNat_eq hopc.symm, rfl, nofun⟩
  case h_21 => cases h
  case h_4 hopc | h_8 hopc | h_10 hopc | h_13 hopc | h_19 hopc =>
    cases h
    exact ⟨rfl, BitVec.eq_of_toNat_eq hopc.symm, rfl, nofun⟩
  all_goals
    obtain ⟨rfl, rfl⟩ := decodePlain_eq_ok_iff.1 h
    exact ⟨rfl, BitVec.eq_of_toNat_eq (Eq.symm ‹_›), rfl, by simp [address?]⟩

/-- The table of R76 reads a well-formed instruction back from its fields. -/
theorem Instr.HasFields.decodeFields_eq {opc imm : Byte} {addr : Addr} {i : Instr}
    (h : i.HasFields opc imm addr) : decodeFields opc imm addr = .ok i := by
  obtain ⟨hw, rfl, rfl, ha⟩ := h
  cases i with
  | sendSlot imm => exact if_pos hw
  | matchAddress a => cases ha a rfl; rfl
  | startConversion a => cases ha a rfl; rfl
  | startTemperatureRead a => cases ha a rfl; rfl
  | getTemperatureResult a => cases ha a rfl; rfl
  | _ => rfl

/-- The decoder's table, once and for all: it answers the instruction that has these fields. -/
theorem decodeFields_eq_ok_iff {opc imm : Byte} {addr : Addr} {i : Instr} :
    decodeFields opc imm addr = .ok i ↔ i.HasFields opc imm addr :=
  ⟨hasFields_of_decodeFields, Instr.HasFields.decodeFields_eq⟩

/-- A word has given fields exactly when it is built from them (R75). -/
theorem wordOf_eq_iff {imm opc : Byte} {w : Word} :
    wordOf imm opc = w ↔ opc = opcOf w ∧ imm = imm8Of w := by
  constructor
  · rintro rfl
    simp
  · rintro ⟨rfl, rfl⟩
    exact wordOf_fields w

/-- The decoder answers the well-formed instruction that encodes to the word, with the ADDR beside
it. -/
theorem decode_eq_ok_iff {c : Command} {i : Instr} :
    decode c = .ok i ↔
      i.wellFormed = true ∧ (encode i).word = c.word ∧ ∀ a, address? i = some a → a = c.addr := by
  rw [decode, decodeFields_eq_ok_iff, encode, wordOf_eq_iff]
  exact ⟨fun ⟨hw, ho, hi, ha⟩ => ⟨hw, ⟨ho, hi⟩, ha⟩, fun ⟨hw, ⟨ho, hi⟩, ha⟩ => ⟨hw, ho, hi, ha⟩⟩

/-- A well-formed instruction is read back from its encoding. -/
theorem decode_encode {i : Instr} (h : i.wellFormed = true) : decode (encode i) = .ok i :=
  decode_eq_ok_iff.2 ⟨h, rfl, fun a ha => by simp [encode, ha]⟩

/-- Settles O1: the encoding meets the decoder's condition by construction. -/
theorem decodeOfEncodeIsIdentity : Obligations.DecodeOfEncodeIsIdentity :=
  fun _ => decode_encode

/-- Settles O2: the decoder's condition, read the other way. -/
theorem decodeAcceptsOnlyTheTablesWords : Obligations.DecodeAcceptsOnlyTheTablesWords :=
  fun _ _ => decode_eq_ok_iff.1

/-- Settles O3: each word is the encoding of the instruction named beside it. -/
theorem specWordsDecodeAsListed : Obligations.SpecWordsDecodeAsListed :=
  ⟨decode_encode (i := .init) rfl,
    decode_encode (i := .sendSlot 1#8) rfl,
    decode_encode (i := .startWriteByte 0x55#8) rfl,
    decode_encode (i := .searchFirst 0x28#8) rfl,
    decode_encode (i := .searchDevices 8#8) rfl,
    decode_encode (i := .matchAddress 0x9E06050403020128#64) rfl,
    decode_encode (i := .startTemperatureRead 0#64) rfl,
    decode_encode (i := .evEcho 0xE0#8) rfl⟩

end Sys2Proof

namespace Sys2Proof.Machine

/-! ### Illegal words -/

/-- The fields that make a command word of HOST illegal (R78). -/
def IllegalFields (opc imm : Byte) : Prop :=
  opc ∉ hostOpcodes ∨ (opc ∈ plainOpcodes ∧ imm ≠ 0#8) ∨
    (opc = 0x02#8 ∧ imm.extractLsb' 1 7 ≠ 0#7)

/-- The OPCs of HOST whose operand is any IMM8 (R76, R77). -/
def byteOpcodes : List Byte := [0x11, 0x15, 0x20, 0x23]

/-- The operand kinds of the operations of HOST (R76). -/
theorem mem_hostOpcodes :
    ∀ {opc : Byte}, opc ∈ hostOpcodes → opc ∈ plainOpcodes ∨ opc = 0x02#8 ∨ opc ∈ byteOpcodes := by
  decide

/-- The rows without an immediate. -/
theorem decodeFields_of_mem_plain {opc : Byte} (h : opc ∈ plainOpcodes) (imm : Byte) (a : Addr) :
    ∃ i, decodeFields opc imm a = decodePlain imm i := by
  fin_cases h <;> exact ⟨_, rfl⟩

/-- The rows whose operand is any IMM8. -/
theorem decodeFields_of_mem_byte {opc : Byte} (h : opc ∈ byteOpcodes) (imm : Byte) (a : Addr) :
    ∃ i, decodeFields opc imm a = .ok i := by
  fin_cases h <;> exact ⟨_, rfl⟩

/-- What the table of R76 refuses is illegal for HOST. -/
theorem illegalFields_of_decodeFields {opc imm : Byte} {a : Addr} {r : DecodeError}
    (h : decodeFields opc imm a = .error r) : IllegalFields opc imm := by
  by_cases hm : opc ∈ hostOpcodes
  · rcases mem_hostOpcodes hm with hplain | rfl | hbyte
    · refine .inr (.inl ⟨hplain, ?_⟩)
      rintro rfl
      obtain ⟨i, hi⟩ := decodeFields_of_mem_plain hplain 0#8 a
      cases hi.symm.trans h
    · refine .inr (.inr ⟨rfl, fun hlegal => ?_⟩)
      have hok : decodeFields 0x02#8 imm a = .ok (.sendSlot imm) := if_pos (beq_iff_eq.2 hlegal)
      cases hok.symm.trans h
    · obtain ⟨i, hi⟩ := decodeFields_of_mem_byte hbyte imm a
      cases hi.symm.trans h
  · exact .inl hm

/-- The operations of HOST are the rows that are no events (R76). -/
theorem opcode_mem_hostOpcodes_iff {i : Instr} : opcode i ∈ hostOpcodes ↔ i.isEvent = false := by
  cases i <;> simp [opcode, hostOpcodes, Instr.isEvent]

/-- A row without an immediate encodes it as 0 (R78). -/
theorem immediate_of_mem_plain {i : Instr} (h : opcode i ∈ plainOpcodes) : immediate i = 0#8 := by
  cases i with
  | sendSlot | startWriteByte | writeByteBlocking | searchFirst | searchDevices | evEcho =>
    simp [opcode, plainOpcodes] at h
  | _ => rfl

/-- Fields of a well-formed operation of HOST are not illegal. -/
theorem not_illegalFields {i : Instr} {opc imm : Byte} {a : Addr} (h : i.HasFields opc imm a)
    (he : i.isEvent = false) : ¬IllegalFields opc imm := by
  obtain ⟨hw, rfl, rfl, -⟩ := h
  rintro (hm | ⟨hplain, hne⟩ | ⟨hslot, hne⟩)
  · exact hm (opcode_mem_hostOpcodes_iff.2 he)
  · exact hne (immediate_of_mem_plain hplain)
  · cases i with
    | sendSlot imm => exact hne (beq_iff_eq.1 hw)
    | _ => simp [opcode] at hslot

/-- The CMD port refuses exactly the words whose fields are illegal (R78). -/
theorem decodeCommand_error_iff {c : Command} :
    (∃ r, decodeCommand c = .error r) ↔ IllegalFields (opcOf c.word) (imm8Of c.word) := by
  unfold decodeCommand
  cases hd : decode c with
  | error r => simpa using illegalFields_of_decodeFields hd
  | ok i =>
    have hf := hasFields_of_decodeFields hd
    cases he : i.isEvent with
    | false => simpa [he] using not_illegalFields hf he
    | true =>
      refine iff_of_true ⟨_, if_pos he⟩ (.inl fun hm => ?_)
      rw [← hf.opcode, opcode_mem_hostOpcodes_iff, he] at hm
      cases hm

variable {s : State}

/-- A step that takes an illegal command word (R78). -/
theorem step_illegal {c : Command} {r : DecodeError} {rest : List Input}
    (h : s.inbox = .command c :: rest) (hd : decodeCommand c = .error r) :
    step s = illegalCommand { s with inbox := rest } := by
  simp only [step, h, fetch, hd]

/-- An illegal command word returns `Illegal` before `init`, and after it if HOST may issue one. -/
theorem illegalCommand_eq (h : s.initDone = false ∨ s.hostWait = .none) :
    illegalCommand s = .next s.illegal := by
  cases hi : s.initDone with
  | false => simp [illegalCommand, hostOp, hi]
  | true => exact hostOp_ready ⟨hi, h.resolve_left (by simp [hi])⟩ _

/-- Settles O4: which words by the fields of what the decoder accepts, the effect by the guard of the
host operations. -/
theorem illegalWordsReturnIllegalWithoutEffect :
    Obligations.IllegalWordsReturnIllegalWithoutEffect := by
  refine fun c => ⟨decodeCommand_error_iff, fun s rest r hin hd hs => ?_⟩
  exact (step_illegal hin hd).trans (illegalCommand_eq hs)

end Sys2Proof.Machine
end

section
/-! Proofs of the statements about the slot transport (41_slot_transport.md): what an echo byte
decodes to (R83, R85), and `sendSlot` from its start to its return (R86). -/

namespace Sys2Proof.Machine

variable {s : State} {g : Config} {e : Byte}

/-! ### Echo bytes -/

/-- Under `ExactOnes` an echo reads 1 exactly when it is `0xFF` (R83). -/
theorem decodeBit_exactOnes (hd : g.echoDecode = .exactOnes) : decodeBit g e = (e == 0xFF#8) := by
  simp only [decodeBit, hd]

/-- Under `Bit0` an echo reads its bit 0 (R83). -/
theorem decodeBit_bit0 (hd : g.echoDecode = .bit0) : decodeBit g e = e.getLsbD 0 := by
  simp only [decodeBit, hd]

/-- A byte other than `0xFF` has a clear bit. -/
theorem exists_clear_bit (h : e ≠ 0xFF#8) : ∃ j < 8, e.getLsbD j = false := by
  have hones : ∀ j < 8, (0xFF#8).getLsbD j = true := by decide
  by_contra hall
  refine h (BitVec.eq_of_getLsbD_eq fun j hj => ?_)
  rw [hones j hj, Bool.eq_true_of_not_eq_false fun hclear => hall ⟨j, hj, hclear⟩]

/-- A reset echo is a presence exactly when it is neither the reset pattern nor the idle marker
(R85). -/
theorem presenceOf_iff : presenceOf g e = true ↔ e ≠ g.resetPattern ∧ e ≠ g.idleMarker := by
  simp only [presenceOf, Bool.and_eq_true, bne_iff_ne]

/-- The two settings differ exactly on an echo other than `0xFF` whose bit 0 is set (R83). -/
theorem ones_ne_bit0_iff :
    (e == 0xFF#8) ≠ e.getLsbD 0 ↔ e ≠ 0xFF#8 ∧ e.getLsbD 0 = true := by
  by_cases he : e = 0xFF#8
  · simp [he]
  · simp [he, beq_false_of_ne he]

/-- Settles O17: each setting reads the echo by its own lemma; where they differ the echo has a clear
bit, and it is not bit 0. -/
theorem echoBytesDecodeToBitsAndPresence : Obligations.EchoBytesDecodeToBitsAndPresence := by
  intro g e exact low
  have hexact : decodeBit exact e = (e == 0xFF#8) := decodeBit_exactOnes rfl
  have hlow : decodeBit low e = e.getLsbD 0 := decodeBit_bit0 rfl
  rw [hexact, hlow]
  refine ⟨beq_iff_eq, rfl, ?_, fun h0 => ⟨?_, h0⟩, ones_ne_bit0_iff, fun hne => ?_, presenceOf_iff⟩
  · rintro rfl
    decide
  · refine beq_false_of_ne ?_
    rintro rfl
    cases h0
  · obtain ⟨hones, h0⟩ := ones_ne_bit0_iff.1 hne
    obtain ⟨j, hj, hclear⟩ := exists_clear_bit hones
    refine ⟨j, Nat.pos_of_ne_zero ?_, hj, hclear⟩
    rintro rfl
    cases h0.symm.trans hclear

/-! ### `sendSlot` -/

/-- The start of a blocking operation that is accepted leaves HOST at its await. -/
theorem enterAwait_ok (s : State) : enterAwait (s, .ok) = .next { s with call := .direct } := rfl

/-- The bit that a legal operand of `sendSlot` names (R78, R86). -/
theorem getLsbD_zero_of_slotOperand :
    ∀ imm : Byte, imm.toNat < 2 → imm.getLsbD 0 = decide (imm = 1#8) := by
  decide

/-- `sendSlot` issued by a HOST that is ready (R86, R142). -/
theorem exec_sendSlot_ready (h : s.ready) (imm : Byte) :
    exec (.sendSlot imm) s =
      if slotOperandLegal imm then enterAwait (startSlot (imm.getLsbD 0) s) else .next s.illegal := by
  simp only [exec, execSendSlot, hostOp_ready h]

/-- Settles O15: a legal operand starts the slot of its bit, any other is illegal. -/
theorem sendSlotSendsOneDataSlot : Obligations.SendSlotSendsOneDataSlot := by
  rintro s imm ⟨hr, -⟩ hb
  rw [exec_sendSlot_ready hr]
  by_cases hlegal : imm.toNat < 2
  · have hbyte : slotByte s.cfg (imm.getLsbD 0) =
        if imm = 1#8 then s.cfg.slotOne else s.cfg.slotZero := by
      simp only [slotByte, getLsbD_zero_of_slotOperand imm hlegal, decide_eq_true_eq]
    rw [if_pos ((slotOperandLegal_iff imm).2 hlegal), if_pos hlegal, startSlot_free _ hb,
      enterAwait_ok, hbyte]
  · rw [if_neg (mt (slotOperandLegal_iff imm).1 hlegal), if_neg hlegal]
    rfl

/-- HOST at the await of a slot whose echo has come goes on with the decoded bit (R86, R109). -/
theorem hostResume_slot (hw : s.hostWait = .slot) (he : s.syncEcho = some e) :
    hostResume s = slotDone (decodeBit s.cfg e) { s with syncEcho := none, hostWait := .none } := by
  simp only [hostResume, hw, he]

/-- `sendSlot` issued by HOST returns the bit (R86). -/
theorem slotDone_direct (hc : s.call = .direct) (b : Bool) :
    slotDone b s = .next (s.ret .ok (.bit b)) := by
  simp only [slotDone, hc]

/-- Settles O22: the echo is latched, the await ends with its bit, and `sendSlot` returns it. -/
theorem sendSlotReturnsTheDecodedEcho : Obligations.SendSlotReturnsTheDecodedEcho := by
  intro s e b rest hi hs hw hc hin
  rw [step_echo hin, execEvEcho_sync (by exact hi) (by exact hs), afterEvent,
    hostResume_slot (by exact hw) rfl, slotDone_direct (by exact hc)]
  rfl

end Sys2Proof.Machine
end


section
/-! Proof that a coherent state never faults: every fault is a completion or a start that the spec calls
unreachable (42_transfer_engine.md R91, 44_rom_search.md R109, 45_rom_match.md, 46_temperature.md
R126). No host operation answers a fault from any state, and from a coherent state an enabled event has
a next state. -/

namespace Sys2Proof.Machine

variable {s : State} {f : Fault}

theorem hostOp_ne_fault {run : State → Outcome} (h : run s ≠ .fault f) : hostOp s run ≠ .fault f := by
  unfold hostOp
  split
  · split
    · exact h
    · exact nofun
  · exact nofun

theorem enterAwait_ne_fault (r : State × Status) : enterAwait r ≠ .fault f := by
  unfold enterAwait
  split <;> exact nofun

theorem execInit_ne_fault : execInit s ≠ .fault f := by
  unfold execInit
  split <;> exact nofun

/-- No host operation answers a fault: each ends in a return or at its first await (R7, R11). -/
theorem operation_ne_fault {i : Instr} (he : i.isEvent = false) : exec i s ≠ .fault f := by
  cases i with
  | evEcho | evSpinTimeout => cases he
  | init => exact execInit_ne_fault
  | sendSlot imm =>
    apply hostOp_ne_fault
    split
    · exact enterAwait_ne_fault _
    · exact nofun
  | resetBlocking | writeByteBlocking | readByteBlocking =>
    apply hostOp_ne_fault
    exact enterAwait_ne_fault _
  | _ =>
    apply hostOp_ne_fault
    exact nofun

/-- An event at a coherent state is refused, or has a next state with HOST at its await (R91, R97). -/
theorem event_ne_fault {i : Instr} (h : s.Coherent) (he : i.isEvent = true) :
    afterEvent (exec i s) ≠ .fault f := by
  cases i with simp only [exec]
  | evEcho e =>
    rcases execEvEcho_enabled_or_refused s e with ⟨hi, hs⟩ | hr
    · obtain ⟨t, ht, -⟩ := coherent_evEcho e h hi hs
      exact ht ▸ nofun
    · exact hr ▸ nofun
  | evSpinTimeout =>
    rw [execEvSpinTimeout_eq]
    split
    next ha =>
      obtain ⟨t, ht, -⟩ := coherent_awaitTimesOut h ha.2
      exact ht ▸ nofun
    · exact nofun
  | _ => cases he

/-- Settles O59: the input may be dropped from the inbox; then no operation faults, and no event at a
coherent state. -/
theorem coherentStatesNeverFault : Obligations.CoherentStatesNeverFault := by
  intro s f h
  unfold step
  split
  · exact nofun
  next x rest hin =>
    have h' : State.Coherent { s with inbox := rest } := h.of_irrelevant rfl
    split
    next hf => exact operation_ne_fault (not_isEvent_of_fetch_operation hf)
    · exact hostOp_ne_fault nofun
    next hf => exact event_ne_fault h' (isEvent_of_fetch_event hf)
    · exact nofun

end Sys2Proof.Machine
end

section
/-! Proofs of the statements about the Transfer Engine (42_transfer_engine.md) but for its runs: the
starts and the result reads of HOST, the echo of each slot, the returns of the wrappers, and the
timeout. First the exact state that each accepted start and each completion leaves. -/

namespace Sys2Proof.Machine

variable {s : State} {e : Byte}

/-! ### Exact states -/

/-- A return of a HOST that runs no blocking operation changes nothing but RESULT (R11). -/
theorem ret_of_no_call (hc : s.call = .none) (st : Status) (v : RetVal) :
    s.ret st v = s.emit (.result st v) := by
  simp only [State.ret, State.emit, ← hc]

/-- A write of the rate is emitted when it changes (R22, R45). -/
theorem setBaud_eq (s : State) (b : Baud) :
    s.setBaud b =
      { s with baud := b, out := s.out ++ if s.baud = b then [] else [.baud b] } := by
  by_cases hb : s.baud = b <;> simp [State.setBaud, hb]

/-- An accepted `startReset` switches the rate, clears `rx` and sends the reset slot (R88). -/
theorem acceptReset_eq (c : Cont) (s : State) :
    acceptReset c s = { s with
      baud := .reset, rx := s.cfg.idleMarker, engCont := c,
      xferDone := if c = .hostAsync then false else s.xferDone,
      slotOut := some (.engine, s.cfg.resetPattern), eng := .resetPending,
      out := s.out ++ (if s.baud = .reset then [] else [.baud .reset]) ++
        [.tx s.cfg.resetPattern .reset] } := by
  rw [acceptReset, setBaud_eq]
  rfl

/-- An accepted `startWriteByte v` sends the slot of bit 0 (R89). -/
theorem acceptWrite_eq (v : Byte) (c : Cont) (s : State) :
    acceptWrite v c s = { s with
      engData := v, engCont := c, xferDone := if c = .hostAsync then false else s.xferDone,
      slotOut := some (.engine, writeSlot s.cfg v 0), eng := .writePending 0,
      out := s.out ++ [.tx (writeSlot s.cfg v 0) .normal] } := rfl

/-- An accepted `startReadByte` clears the accumulator and sends a read slot (R90). -/
theorem acceptRead_eq (c : Cont) (s : State) :
    acceptRead c s = { s with
      engData := 0#8, engCont := c, xferDone := if c = .hostAsync then false else s.xferDone,
      slotOut := some (.engine, s.cfg.slotOne), eng := .readPending 0,
      out := s.out ++ [.tx s.cfg.slotOne .normal] } := rfl

/-- The slot byte of a bit of a byte write (R74, R82). -/
theorem writeSlot_eq (g : Config) (v : Byte) (i : Nat) :
    writeSlot g v i = if v.getLsbD i then g.slotOne else g.slotZero := rfl

/-! ### The starts of HOST -/

/-- The asynchronous start of a HOST that has nothing under way, with nothing in flight (R12). -/
theorem hostOp_start_free {accept : State → State} (h : s.free) (hb : ¬s.engBusy)
    (hc : (accept s).call = s.call) :
    hostOp s (fun s => returnStatus (startWith accept s)) =
      .next ((accept s).emit (.result .ok .none)) := by
  rw [hostOp_ready h.1, startWith_free hb, returnStatus, ret_of_no_call (hc.trans h.2)]

/-- What a `Busy` start of HOST leaves: the log entry and the result (R87). -/
theorem returnStatus_busy (hc : s.call = .none) :
    returnStatus (s.emit (.log (.error .busy)), .busy) = .next { s with
      out := s.out ++ [.log (.error .busy), .result .busy .none] } := by
  rw [returnStatus, ret_of_no_call (by exact hc)]
  simp [State.emit]

/-- A blocking operation that is `Busy` returns like an asynchronous start (R98 to R100). -/
theorem enterAwait_busy (hc : s.call = .none) :
    enterAwait (s.emit (.log (.error .busy)), .busy) = .next { s with
      out := s.out ++ [.log (.error .busy), .result .busy .none] } :=
  returnStatus_busy hc

/-- Settles O10: each start is `startWith`, or tests the same condition before it. -/
theorem busyStartsChangeNothing : Obligations.BusyStartsChangeNothing := by
  refine ⟨fun s c v hb => ⟨startWith_busy hb _, startWith_busy hb _, startWith_busy hb _⟩, ?_⟩
  rintro s i ⟨hr, hc⟩ hb
    (⟨v, rfl | rfl | rfl | rfl | rfl | rfl | ⟨rfl, hv⟩⟩ | ⟨a, rfl⟩)
  · rw [exec, execStartReset, hostOp_ready hr, startReset, startWith_busy hb, returnStatus_busy hc]
  · rw [exec, execStartWriteByte, hostOp_ready hr, startWriteByte, startWith_busy hb,
      returnStatus_busy hc]
  · rw [exec, execStartReadByte, hostOp_ready hr, startReadByte, startWith_busy hb,
      returnStatus_busy hc]
  · rw [exec, execResetBlocking, hostOp_ready hr, blockReset_busy hb, enterAwait_busy hc]
  · rw [exec, execWriteByteBlocking, hostOp_ready hr, blockWrite_busy v hb, enterAwait_busy hc]
  · rw [exec, execReadByteBlocking, hostOp_ready hr, blockRead_busy hb, enterAwait_busy hc]
  · rw [exec_sendSlot_ready hr, if_pos ((slotOperandLegal_iff v).2 hv), startSlot_busy _ hb,
      enterAwait_busy hc]
  · rw [exec, execMatchAddress, hostOp_ready hr, matchStart_busy a .host (.inr hb),
      returnStatus_busy hc]

/-- Settles O11: the accepted reset, then the return. -/
theorem startResetSendsTheResetSlot : Obligations.StartResetSendsTheResetSlot := by
  intro s h hb
  refine (hostOp_start_free (accept := acceptReset .hostAsync) h hb rfl).trans ?_
  rw [acceptReset_eq]
  simp [State.emit]

/-- Settles O12: the accepted write, then the return. -/
theorem startWriteByteSendsBitZero : Obligations.StartWriteByteSendsBitZero := by
  intro s v h hb
  refine (hostOp_start_free (accept := acceptWrite v .hostAsync) h hb rfl).trans ?_
  rw [acceptWrite_eq, writeSlot_eq]
  simp [State.emit]

/-- Settles O13: the accepted read, then the return. -/
theorem startReadByteSendsAReadSlot : Obligations.StartReadByteSendsAReadSlot := by
  intro s h hb
  refine (hostOp_start_free (accept := acceptRead .hostAsync) h hb rfl).trans ?_
  rw [acceptRead_eq]
  simp [State.emit]

/-- Settles O14: each wrapper is its accepted transfer, with HOST left at the await. -/
theorem wrappersStartAndBlockHost : Obligations.WrappersStartAndBlockHost := by
  rintro s v ⟨hr, hc⟩ hb
  refine ⟨?_, ?_, ?_⟩
  · rw [exec, execResetBlocking, hostOp_ready hr, blockReset_free hb, enterAwait_ok, acceptReset_eq]
    rfl
  · rw [exec, execWriteByteBlocking, hostOp_ready hr, blockWrite_free v hb, enterAwait_ok,
      acceptWrite_eq, writeSlot_eq]
    rfl
  · rw [exec, execReadByteBlocking, hostOp_ready hr, blockRead_free hb, enterAwait_ok,
      acceptRead_eq]
    rfl

/-! ### The result registers -/

/-- Settles O16: each read returns its register, and a return of a free HOST is an output alone. -/
theorem resultReadsReportAndChangeNothing : Obligations.ResultReadsReportAndChangeNothing := by
  rintro s a ⟨hr, hc⟩
  refine ⟨?_, ?_, ?_⟩
  · rw [exec, execGetTransferResult, hostOp_ready hr]
    simp only [ret_of_no_call hc]
    split <;> rfl
  · rw [exec, execGetMatchResult, hostOp_ready hr]
    simp only [ret_of_no_call hc]
    split <;> simp [State.emit, *]
  · rw [exec, execGetTemperatureResult, hostOp_ready hr]
    simp only [ret_of_no_call hc]
    by_cases hop : s.dpOp = .read <;> by_cases hb : s.dpBusy <;> simp [hop, hb, State.emit]

/-! ### The echo -/

variable {b : Byte} {i : Fin 8}

/-- An echo is refused with no slot in flight (R91). -/
theorem execEvEcho_refused (hs : s.slotOut = none) (e : Byte) :
    execEvEcho e s = .refused .echoNotEnabled :=
  (execEvEcho_enabled_or_refused s e).resolve_left fun h => h.2 hs

/-- Settles O19: an echo with nothing in flight is refused, that of a `Sync` slot is latched. -/
theorem echoIsLatchedForASyncSlot : Obligations.EchoIsLatchedForASyncSlot :=
  fun _ e hi => ⟨fun hs => execEvEcho_refused hs e, fun _ hs => execEvEcho_sync hi hs e⟩

/-- An echo before the last slot of a byte write sends the slot of the next bit (R93). -/
theorem execEvEcho_midWrite (hi : s.initDone = true) (hs : s.slotOut = some (.engine, b))
    (he : s.eng = .writePending i) (hlt : i.val < 7) (e : Byte) :
    execEvEcho e s = .next { s with
      rx := e, slotOut := some (.engine, writeSlot s.cfg s.engData (i.val + 1)),
      eng := .writePending (i + 1),
      out := s.out ++ [.tx (writeSlot s.cfg s.engData (i.val + 1)) .normal] } := by
  rw [execEvEcho_engine hi hs]
  simp only [echoEngine, he, echoWrite, if_pos hlt]
  rfl

/-- An echo before the last slot of a byte read records its bit and sends a read slot (R94). -/
theorem execEvEcho_midRead (hi : s.initDone = true) (hs : s.slotOut = some (.engine, b))
    (he : s.eng = .readPending i) (hlt : i.val < 7) (e : Byte) :
    execEvEcho e s = .next { s with
      rx := e, engData := setBit s.engData i.val (decodeBit s.cfg e),
      slotOut := some (.engine, s.cfg.slotOne), eng := .readPending (i + 1),
      out := s.out ++ [.tx s.cfg.slotOne .normal] } := by
  rw [execEvEcho_engine hi hs]
  simp only [echoEngine, he, echoRead, if_pos hlt]
  rfl

/-- Settles O20: the next slot by the two lemmas, the recorded bit by that of `setBit`. -/
theorem echoMidByteSendsTheNextSlot : Obligations.EchoMidByteSendsTheNextSlot :=
  fun _ e _ i hi hs hlt =>
    ⟨fun he => execEvEcho_midWrite hi hs he hlt e,
      fun he => ⟨_, getLsbD_setBit _ _ _ i.isLt, execEvEcho_midRead hi hs he hlt e⟩⟩

/-- The echo of a reset slot captures the presence, restores the normal rate and completes the
transfer (R92). -/
theorem execEvEcho_reset (hi : s.initDone = true) (hs : s.slotOut = some (.engine, b))
    (he : s.eng = .resetPending) (e : Byte) :
    execEvEcho e s = completeTransfer (.resetDone (presenceOf s.cfg e)) { s with
      rx := e, slotOut := none, presence := presenceOf s.cfg e, baud := .normal,
      out := s.out ++ if s.baud = .normal then [] else [.baud .normal] } := by
  rw [execEvEcho_engine hi hs]
  simp only [echoEngine, he, echoReset, setBaud_eq]

/-- The echo of the last slot of a byte write completes the transfer (R93). -/
theorem execEvEcho_lastWrite (hi : s.initDone = true) (hs : s.slotOut = some (.engine, b))
    (he : s.eng = .writePending 7) (e : Byte) :
    execEvEcho e s = completeTransfer .writeDone { s with rx := e, slotOut := none } := by
  rw [execEvEcho_engine hi hs]
  simp only [echoEngine, he, echoWrite_last]

/-- The echo of the last slot of a byte read completes the transfer with the byte (R94). -/
theorem execEvEcho_lastRead (hi : s.initDone = true) (hs : s.slotOut = some (.engine, b))
    (he : s.eng = .readPending 7) (e : Byte) :
    execEvEcho e s = completeTransfer (.readDone (setBit s.engData 7 (decodeBit s.cfg e))) { s with
      rx := e, slotOut := none, engData := setBit s.engData 7 (decodeBit s.cfg e) } := by
  rw [execEvEcho_engine hi hs]
  simp only [echoEngine, he, echoRead_last]

/-- A completed transfer of HOST is latched and emitted on COMPLETE (R95). -/
theorem completeTransfer_hostAsync (hc : s.engCont = .hostAsync) (r : TransferResult) :
    completeTransfer r s = .next { s with
      eng := .idle, engCont := .none, xferDone := true, xferKind := transferKind r,
      xferValue := transferByte r,
      out := s.out ++ [.complete (transferKind r) (transferByte r)] } := by
  simp only [completeTransfer, hc, deliver]
  rfl

/-- The presence of a reset echo as R85 writes it. -/
theorem presenceOf_eq_decide (g : Config) (e : Byte) :
    presenceOf g e = decide (e ≠ g.resetPattern ∧ e ≠ g.idleMarker) := by
  rw [Bool.eq_iff_iff, presenceOf_iff, decide_eq_true_iff]

/-- Settles O21: the last echo completes the transfer, which HOST gets. -/
theorem echoCompletesAHostTransfer : Obligations.EchoCompletesAHostTransfer := by
  intro s e b hi hs hc
  refine ⟨fun he => ?_, fun he => ?_, fun he => ⟨_, getLsbD_setBit _ 7 _ (by decide), ?_⟩⟩
  · rw [exec, execEvEcho_reset hi hs he, completeTransfer_hostAsync (by exact hc),
      presenceOf_eq_decide]
    rfl
  · rw [exec, execEvEcho_lastWrite hi hs he, completeTransfer_hostAsync (by exact hc)]
    rfl
  · rw [exec, execEvEcho_lastRead hi hs he, completeTransfer_hostAsync (by exact hc)]
    rfl

/-! ### The wrappers return -/

/-- A completed transfer of a wrapper is latched for its await (R95). -/
theorem completeTransfer_blocking (hc : s.engCont = .blocking) (r : TransferResult) :
    completeTransfer r s = .next { s with
      eng := .idle, engCont := .none, blkDone := true, blkValue := transferByte r } := by
  simp only [completeTransfer, hc, deliver]
  rfl

/-- The await of `resetBlocking` is over: HOST returns the presence (R98). -/
theorem hostResume_reset_direct (hw : s.hostWait = .reset) (hc : s.call = .direct)
    (hd : s.blkDone = true) :
    hostResume s =
      .next (State.ret { s with hostWait := .none } .ok (.presence (s.blkValue.getLsbD 0))) := by
  simp only [hostResume, hw, hd, if_true, resetDone, hc]

/-- The await of `writeByteBlocking` is over: HOST returns `Ok` (R99). -/
theorem hostResume_write_direct (hw : s.hostWait = .write) (hc : s.call = .direct)
    (hd : s.blkDone = true) :
    hostResume s = .next (State.ret { s with hostWait := .none } .ok .none) := by
  simp only [hostResume, hw, hd, if_true, writeDone, hc]

/-- The await of `readByteBlocking` is over: HOST returns the byte (R100). -/
theorem hostResume_read_direct (hw : s.hostWait = .read) (hc : s.call = .direct)
    (hd : s.blkDone = true) :
    hostResume s = .next (State.ret { s with hostWait := .none } .ok (.byte s.blkValue)) := by
  simp only [hostResume, hw, hd, if_true, readDone, hc]

/-- The presence read back from the byte a reset delivers (R95, R98). -/
@[simp] theorem getLsbD_flagByte (p : Bool) : (flagByte p).getLsbD 0 = p := by
  cases p <;> rfl

/-- Settles O23: the last echo completes the transfer, which ends the await. -/
theorem resetAndWriteWrappersReturn : Obligations.ResetAndWriteWrappersReturn := by
  intro s e b rest hi hs hk hc hin
  refine ⟨fun he hw => ?_, fun he hw => ?_⟩
  · rw [step_echo hin, execEvEcho_reset (by exact hi) (by exact hs) (by exact he),
      completeTransfer_blocking (by exact hk), afterEvent,
      hostResume_reset_direct (by exact hw) (by exact hc) rfl, presenceOf_eq_decide]
    simp only [transferByte, getLsbD_flagByte]
    rfl
  · rw [step_echo hin, execEvEcho_lastWrite (by exact hi) (by exact hs) (by exact he),
      completeTransfer_blocking (by exact hk), afterEvent,
      hostResume_write_direct (by exact hw) (by exact hc) rfl]
    rfl

/-! ### The timeout -/

/-- The timeout of an enabled await (R97). -/
theorem execEvSpinTimeout_awaiting (hi : s.initDone = true) (ha : s.awaiting = true) :
    execEvSpinTimeout s = awaitTimesOut s := by
  rw [execEvSpinTimeout_eq, if_pos ⟨hi, ha⟩]

/-- Settles O24: where the await is unsatisfied, and what its timeout does for a direct operation. -/
theorem spinTimeoutEndsOnlyTheWait : Obligations.SpinTimeoutEndsOnlyTheWait := by
  refine fun s hi => ⟨awaiting_iff, fun ha => ?_, fun ha hc => ?_⟩
  · rw [exec, execEvSpinTimeout_eq, if_neg (by simp [ha])]
  · rw [exec, execEvSpinTimeout_awaiting hi ha]
    simp [awaitTimesOut, hc, State.ret, State.emit, ErrorKind.status]

/-- What a search that ends without an address returns beside its status: `searchDevices` returns
its list (R115). -/
def SearchCaller.endValue : SearchCaller → RetVal
  | .devices _ found => .addrs found
  | _ => .none

/-- An error inside a pass clears the search state, is logged once, and is returned (R109, R110). -/
theorem searchFails_eq (c : SearchCaller) (k : ErrorKind) (s : State) :
    searchFails c k s = { s with
      call := .none, lastDiscrepancy := 0, lastFamilyDiscrepancy := 0, lastDeviceFlag := false,
      rom := 0#64, out := s.out ++ [.log (.error k), .result k.status c.endValue] } := by
  have hk : k.status ≠ .noMore := by cases k <;> decide
  cases c <;> simp [searchFails, searchEnds, hk, State.clearSearch, State.ret, State.emit,
    SearchCaller.endValue]

/-- Settles O38: the timeout is an error inside the pass. -/
theorem spinTimeoutClearsARunningSearch : Obligations.SpinTimeoutClearsARunningSearch := by
  intro s c pt hi ha hc
  rw [exec, execEvSpinTimeout_awaiting hi ha]
  simp only [awaitTimesOut, hc, searchFails_eq]
  cases c <;> rfl

end Sys2Proof.Machine
end

section
/-! Proof of a whole `readByteBlocking` (42_transfer_engine.md R90, R94, R95, R100): its command and
eight echoes, each sampled into its bit. -/

namespace Sys2Proof.Machine

variable {s : State} {e : Fin 8 → Byte} {rest : List Input} {i : Fin 8}

/-- HOST waits in `readByteBlocking` with slot `i` of the byte in flight: the echoes from slot `i` on
are still to come, and those before it are in the accumulator. -/
structure State.Sampling (s : State) (e : Fin 8 → Byte) (rest : List Input) (i : Fin 8) :
    Prop where
  initDone : s.initDone = true
  waiting : s.hostWait = .read
  call : s.call = .direct
  cont : s.engCont = .blocking
  pending : s.blkDone = false
  slot : s.slotOut = some (.engine, s.cfg.slotOne)
  eng : s.eng = .readPending i
  inbox : s.inbox = ((List.ofFn e).drop i.val).map echoInput ++ rest
  sampled : ∀ j, j < i → s.engData.getLsbD j.val = decodeBit s.cfg (e j)

/-- The echoes from slot `i` on are that of slot `i` and those after it. -/
theorem drop_ofFn_eq_cons (e : Fin 8 → Byte) (i : Fin 8) :
    (List.ofFn e).drop i.val = e i :: (List.ofFn e).drop (i.val + 1) := by
  rw [List.drop_eq_getElem_cons (by simp), List.getElem_ofFn]

/-- The next input of the wait is the echo of slot `i`. -/
theorem State.Sampling.inbox_eq (h : s.Sampling e rest i) :
    s.inbox = echoInput (e i) :: (((List.ofFn e).drop (i.val + 1)).map echoInput ++ rest) := by
  rw [h.inbox, drop_ofFn_eq_cons, List.map_cons, List.cons_append]

/-- The echo of slot `i` goes to bit `i` of the accumulator, which then holds those up to `i`. -/
theorem State.Sampling.sampled_succ (h : s.Sampling e rest i) {j : Fin 8} (hj : j ≤ i) :
    (setBit s.engData i.val (decodeBit s.cfg (e i))).getLsbD j.val = decodeBit s.cfg (e j) := by
  rw [getLsbD_setBit _ _ _ i.isLt]
  split
  next hji => rw [Fin.ext hji]
  next hji => exact h.sampled j (lt_of_le_of_ne hj fun hf => hji (congrArg Fin.val hf))

/-- The echo of a slot before the last is sampled, and the next slot sent (R94). -/
theorem State.Sampling.next_slot (h : s.Sampling e rest i) (hi : i.val < 7) :
    ∃ t, step s = .next t ∧ t.Sampling e rest (i + 1) ∧ t.cfg = s.cfg ∧
      t.out = s.out ++ [.tx s.cfg.slotOne .normal] := by
  have hval : (i + 1).val = i.val + 1 := val_nextSlot hi
  have ha : s.awaiting = true := awaiting_iff.2 (.inr ⟨.inr (.inr h.waiting), h.pending⟩)
  rw [step_echo h.inbox_eq, execEvEcho_midRead (by exact h.initDone) (by exact h.slot)
    (by exact h.eng) hi, afterEvent, hostResume_awaiting (by exact ha)]
  exact ⟨_, rfl, ⟨h.initDone, h.waiting, h.call, h.cont, h.pending, rfl, rfl, by rw [hval],
    fun j hj => h.sampled_succ (by omega)⟩, rfl, rfl⟩

/-- The echo of the last slot is sampled, and HOST returns the byte (R94, R95, R100). -/
theorem State.Sampling.returns (h : s.Sampling e rest 7) :
    ∃ (t : State) (v : Byte), step s = .next t ∧
      (∀ j : Fin 8, v.getLsbD j.val = decodeBit s.cfg (e j)) ∧
      t.free ∧ ¬t.engBusy ∧ t.inbox = rest ∧ t.out = s.out ++ [.result .ok (.byte v)] := by
  rw [step_echo h.inbox_eq, execEvEcho_lastRead (by exact h.initDone) (by exact h.slot)
    (by exact h.eng), completeTransfer_blocking (by exact h.cont), afterEvent,
    hostResume_read_direct (by exact h.waiting) (by exact h.call) rfl]
  exact ⟨_, _, rfl, fun j => h.sampled_succ (by omega), ⟨⟨h.initDone, rfl⟩, rfl⟩,
    not_engBusy.2 ⟨rfl, rfl⟩, by simp, rfl⟩

/-- The `n` echoes before the last and then the last end the wait with the byte. -/
theorem State.Sampling.run_returns (n : Nat) (h : s.Sampling e rest i) (hn : i.val + n = 7) :
    ∃ (t : State) (v : Byte), Host.Core.run Sys2Proof.core (n + 1) s = .next t ∧
      (∀ j : Fin 8, v.getLsbD j.val = decodeBit s.cfg (e j)) ∧
      t.free ∧ ¬t.engBusy ∧ t.inbox = rest ∧
      t.out = s.out ++ List.replicate n (.tx s.cfg.slotOne .normal) ++ [.result .ok (.byte v)] := by
  induction n generalizing s i with
  | zero =>
    obtain rfl : i = 7 := Fin.ext hn
    obtain ⟨t, v, hstep, hv, hfree, hidle, hin, hout⟩ := h.returns
    exact ⟨t, v, run_succ hstep 0, hv, hfree, hidle, hin, by simpa using hout⟩
  | succ n ih =>
    obtain ⟨m, hstep, hm, hcfg, houtm⟩ := h.next_slot (by omega)
    have hval : (i + 1).val = i.val + 1 := val_nextSlot (by omega)
    obtain ⟨t, v, hrun, hv, hfree, hidle, hin, hout⟩ := ih hm (by omega)
    refine ⟨t, v, (run_succ hstep _).trans hrun, hcfg ▸ hv, hfree, hidle, hin, ?_⟩
    rw [hout, houtm, hcfg, List.replicate_succ]
    simp

/-- An accepted `readByteBlocking` waits at slot 0 (R90, R100). -/
theorem sampling_of_readByteBlocking (hr : s.ready) (hb : ¬s.engBusy)
    (hin : s.inbox = (List.ofFn e).map echoInput ++ rest) :
    ∃ t, exec .readByteBlocking s = .next t ∧ t.Sampling e rest 0 ∧ t.cfg = s.cfg ∧
      t.out = s.out ++ [.tx s.cfg.slotOne .normal] := by
  rw [exec, execReadByteBlocking, hostOp_ready hr, blockRead_free hb, enterAwait_ok]
  exact ⟨_, rfl, ⟨hr.1, rfl, rfl, rfl, rfl, rfl, rfl, hin, fun j hj => absurd hj (by simp)⟩,
    rfl, rfl⟩

/-- The CMD port accepts what the table reads as a host operation (R78). -/
theorem decodeCommand_of_decode {c : Command} {i : Instr} (h : decode c = .ok i)
    (he : i.isEvent = false) : decodeCommand c = .ok i := by
  simp [decodeCommand, h, he]

/-- Settles O26: the command word sends slot 0, and eight echoes return the byte. -/
theorem readByteBlockingReturnsTheEchoedByte :
    Obligations.ReadByteBlockingReturnsTheEchoedByte := by
  rintro s a e rest ⟨hr, -⟩ hb hin
  have hdec : decodeCommand ⟨0x0016#16, a⟩ = .ok .readByteBlocking :=
    decodeCommand_of_decode (decode_eq_ok_iff.2 ⟨rfl, rfl, nofun⟩) rfl
  obtain ⟨m, hm, hsample, hcfg, houtm⟩ :=
    sampling_of_readByteBlocking (s := { s with inbox := (List.ofFn e).map echoInput ++ rest })
      hr hb rfl
  obtain ⟨t, v, hrun, hv, hfree, hidle, hrest, hout⟩ := hsample.run_returns 7 rfl
  have hstep : step s = .next m := (step_operation hin (fetch_command hdec)).trans hm
  refine ⟨t, v, (run_succ hstep 8).trans hrun, hcfg ▸ hv, hfree, hidle, hrest, ?_⟩
  rw [hout, houtm, hcfg, List.replicate_succ]
  simp

end Sys2Proof.Machine
end

section
/-! Proofs about the CRC8 validator (43_crc8.md). A round shifts the register and reads its data bit
beside it. With the data bits still to come added onto the register, a round is one shift of that
sum alone, so `crc8_step(c, b)` is eight shifts of `c ^ b`. A shift takes nothing but zero to
zero. -/

namespace Sys2Proof.Machine

/-- A round whose data bit is 0: the register shifts and feeds its lowest bit back (R101). -/
def crcShift (x : Byte) : Byte := crcRound 0#8 x 0

/-- A round feeds back by the lowest bit of the register and bit `j` of the data (R101). -/
theorem crcRound_eq (b x : Byte) (j : Nat) :
    crcRound b x j =
      if (x ^^^ (b >>> j)).getLsbD 0 then (x >>> 1) ^^^ 0x8C#8 else x >>> 1 := by
  simp only [crcRound, BitVec.and_one_eq_setWidth_ofBool_getLsbD]
  cases (x ^^^ (b >>> j)).getLsbD 0 <;> rfl

theorem crcShift_eq (x : Byte) :
    crcShift x = if x.getLsbD 0 then (x >>> 1) ^^^ 0x8C#8 else x >>> 1 := by
  rw [crcShift, crcRound_eq, BitVec.zero_ushiftRight, BitVec.xor_zero]

/-- With the data bits to come added onto the register, a round is a shift of the sum. -/
theorem crcRound_xor_data (b x : Byte) (j : Nat) :
    crcRound b x j ^^^ (b >>> (j + 1)) = crcShift (x ^^^ (b >>> j)) := by
  rw [crcRound_eq, crcShift_eq, BitVec.shiftRight_add, BitVec.ushiftRight_xor_distrib]
  split
  · ac_rfl
  · rfl

/-- So `n` rounds are `n` shifts of the sum. -/
theorem foldl_crcRound_xor_data (c b : Byte) (n : Nat) :
    (List.range n).foldl (crcRound b) c ^^^ (b >>> n) = crcShift^[n] (c ^^^ b) := by
  induction n with
  | zero => simp
  | succ n ih =>
    rw [List.range_succ, List.foldl_append, List.foldl_cons, List.foldl_nil, crcRound_xor_data, ih,
      Function.iterate_succ_apply']

/-- After eight rounds no data bit is left (R101). -/
theorem crc8Step_eq_iterate (c b : Byte) : crc8Step c b = crcShift^[8] (c ^^^ b) := by
  have hdata : b >>> 8 = 0#8 := BitVec.ushiftRight_eq_zero le_rfl
  rw [← foldl_crcRound_xor_data, hdata, BitVec.xor_zero, crc8Step]

/-! ### The printed table -/

/-- Entry `i` of the table as printed is eight shifts of `i` (R104). -/
theorem crc8Table_eq :
    crc8Table = (List.range 256).map fun i => crcShift^[8] (BitVec.ofNat 8 i) := by
  decide +kernel

theorem crc8Table_getElem? (x : Byte) : crc8Table[x.toNat]? = some (crcShift^[8] x) := by
  rw [crc8Table_eq, List.getElem?_map, List.getElem?_range x.isLt, Option.map_some,
    BitVec.ofNat_toNat, BitVec.setWidth_eq]

/-- Settles O27: entry `c ^ b` and `crc8_step(c, b)` are both eight shifts of `c ^ b`. -/
theorem crcTableIsTheStepFunction : Obligations.CrcTableIsTheStepFunction :=
  ⟨by rw [crc8Table_eq, List.length_map, List.length_range],
    fun c b => by rw [crc8Table_getElem?, crc8Step_eq_iterate]⟩

/-! ### The check byte -/

/-- A lowest bit that is set comes back as bit 7, and a clear one loses nothing. -/
theorem crcShift_eq_zero_iff (x : Byte) : crcShift x = 0#8 ↔ x = 0#8 := by
  refine ⟨fun h => ?_, by rintro rfl; rfl⟩
  rw [crcShift_eq] at h
  split at h
  next hlow =>
    have hback : ((x >>> 1) ^^^ 0x8C#8).getLsbD 7 = true := by simp
    simp [h] at hback
  next hlow =>
    refine BitVec.eq_of_getLsbD_eq fun i _ => ?_
    cases i with
    | zero => simpa using hlow
    | succ i =>
      rw [Nat.add_comm, ← BitVec.getLsbD_ushiftRight, h, BitVec.getLsbD_zero, BitVec.getLsbD_zero]

theorem crcShift_iterate_eq_zero_iff (n : Nat) (x : Byte) : crcShift^[n] x = 0#8 ↔ x = 0#8 := by
  induction n with
  | zero => rfl
  | succ n ih => rw [Function.iterate_succ_apply', crcShift_eq_zero_iff, ih]

/-- A step reaches zero exactly on the byte the register holds (R103). -/
theorem crc8Step_eq_zero_iff (c b : Byte) : crc8Step c b = 0#8 ↔ b = c := by
  rw [crc8Step_eq_iterate, crcShift_iterate_eq_zero_iff, BitVec.xor_eq_zero_iff, eq_comm]

/-- Settles O28: the check byte is the last step, from the CRC8 of the data. -/
theorem crcIsZeroExactlyForTheCheckByte : Obligations.CrcIsZeroExactlyForTheCheckByte := by
  intro ds b
  rw [crc8_concat, crc8Step_eq_zero_iff]

end Sys2Proof.Machine
end

section
/-! Proofs of the exact statements about the ROM search (44_rom_search.md R106 to R115): how HOST
starts, ends or moves a search, and what one echo does at each point of a pass. First the starts,
then what ends an await, then what each point of a pass goes on to. -/

namespace Sys2Proof.Machine

variable {s : State} {c : SearchCaller} {k : Fin 64} {e b : Byte} {rest : List Input}

/-! ### Ends and starts of a search -/

/-- A search that ends but for `NoMore` returns its status with its list, if it has one (R115). -/
theorem searchEnds_eq {st : Status} (hst : st ≠ .noMore) (c : SearchCaller) (s : State) :
    searchEnds c st s = s.ret st c.endValue := by
  cases c with
  | next => rfl
  | first f => rfl
  | devices n l => rw [searchEnds, if_neg hst]; rfl

/-- After the last device a pass is not started: the search state is cleared (R111). -/
theorem searchNextStart_exhausted (h : s.lastDeviceFlag = true) (c : SearchCaller) :
    searchNextStart c s = searchEnds c .noMore s.clearSearch := if_pos h

/-- The start of a pass with a transfer in flight is `Busy` (R87, R109). -/
theorem searchNextStart_busy (h : s.lastDeviceFlag = false) (hb : s.engBusy) (c : SearchCaller) :
    searchNextStart c s = { s with
      call := .none, out := s.out ++ [.log (.error .busy), .result .busy c.endValue] } := by
  have hst : Status.busy ≠ .noMore := by decide
  simp [searchNextStart, h, blockReset_busy hb, searchEnds_eq hst, State.ret]

/-- The start of a pass with nothing in flight is its blocking reset (R98, R109). -/
theorem searchNextStart_free (h : s.lastDeviceFlag = false) (hb : ¬s.engBusy) (c : SearchCaller) :
    searchNextStart c s = { s with
      baud := .reset, rx := s.cfg.idleMarker, engCont := .blocking,
      slotOut := some (.engine, s.cfg.resetPattern), eng := .resetPending,
      blkDone := false, hostWait := .reset, call := .search c .reset,
      out := s.out ++ (if s.baud = .reset then [] else [.baud .reset]) ++
        [.tx s.cfg.resetPattern .reset] } := by
  simp [searchNextStart, h, blockReset_free hb, acceptReset_eq]

/-- `searchFirst` clears the search state, and seeds the family byte of a filter (R112). -/
theorem searchFirstStart_eq (f : Byte) (c : SearchCaller) (s : State) :
    searchFirstStart f c s = searchNextStart c { s with
      lastDiscrepancy := if f = 0#8 then 0 else 64, lastFamilyDiscrepancy := 0,
      lastDeviceFlag := false, rom := if f = 0#8 then 0#64 else 0#56 ++ f } := by
  by_cases hf : f = 0#8
  · simp only [searchFirstStart, if_pos hf]
    rfl
  · have hseed : f.setWidth 64 = 0#56 ++ f := BitVec.setWidth_eq_append (by decide)
    simp only [searchFirstStart, if_neg hf, hseed]
    rfl

/-- `searchNext` after the last device returns `NoMore`, unlogged (R111). -/
theorem exec_searchNext_exhausted (h : s.free) (hf : s.lastDeviceFlag = true) :
    exec .searchNext s = .next { s with
      lastDiscrepancy := 0, lastFamilyDiscrepancy := 0, lastDeviceFlag := false, rom := 0#64,
      out := s.out ++ [.result .noMore .none] } := by
  rw [exec, execSearchNext, hostOp_ready h.1, searchNextStart_exhausted hf, searchEnds,
    ret_of_no_call (by exact h.2)]
  rfl

/-- Settles O29: the flag first, then the busy test of the reset. -/
theorem searchNextEndsOrStartsAPass : Obligations.SearchNextEndsOrStartsAPass := by
  intro s h
  by_cases hf : s.lastDeviceFlag = true
  · rw [if_pos hf, exec_searchNext_exhausted h hf]
  · rw [if_neg hf, exec, execSearchNext, hostOp_ready h.1]
    rw [Bool.not_eq_true] at hf
    by_cases hb : s.engBusy
    · rw [searchNextStart_busy hf hb, if_pos hb, ← h.2]
      rfl
    · rw [searchNextStart_free hf hb, if_neg hb]

/-- Settles O30: the start of a pass from the seeded search state. -/
theorem searchFirstClearsSeedsAndStarts : Obligations.SearchFirstClearsSeedsAndStarts := by
  rintro s f ⟨hr, hc⟩
  rw [exec, execSearchFirst, hostOp_ready hr, searchFirstStart_eq]
  by_cases hb : s.engBusy
  · rw [searchNextStart_busy rfl (by exact hb), if_pos hb, ← hc]
    rfl
  · rw [searchNextStart_free rfl (by exact hb), if_neg hb]

/-- Settles O31: nothing to do for no device, else the start of a pass without a filter. -/
theorem searchDevicesStartsAnUnfilteredSearch :
    Obligations.SearchDevicesStartsAnUnfilteredSearch := by
  rintro s n ⟨hr, hc⟩
  rw [exec, execSearchDevices, hostOp_ready hr]
  by_cases hn : n = 0#8
  · rw [if_pos hn, if_pos hn, ret_of_no_call hc]
    rfl
  · rw [if_neg hn, if_neg hn, searchFirstStart_eq, if_pos rfl, if_pos rfl]
    by_cases hb : s.engBusy
    · rw [searchNextStart_busy rfl (by exact hb), if_pos hb, ← hc]
      rfl
    · rw [searchNextStart_free rfl (by exact hb), if_neg hb]

/-- Settles O32: the next states of `familySkip`, then of a `searchNext` with the flag set. -/
theorem familySkipMovesTheBranchPoint : Obligations.FamilySkipMovesTheBranchPoint := by
  refine ⟨fun a => decodeCommand_of_decode (decode_eq_ok_iff.2 ⟨rfl, rfl, nofun⟩) rfl, ?_⟩
  rintro s ⟨hr, hc⟩
  refine ⟨_, ?_, rfl, fun hz => exec_searchNext_exhausted ⟨hr, hc⟩ (if_pos hz)⟩
  rw [exec, execFamilySkip, hostOp_ready hr, ret_of_no_call (by exact hc)]
  rfl

/-! ### What ends an await -/

/-- HOST at the await of a reset that is done goes on with its presence (R98, R109). -/
theorem hostResume_reset (hw : s.hostWait = .reset) (hd : s.blkDone = true) :
    hostResume s = resetDone (s.blkValue.getLsbD 0) { s with hostWait := .none } := by
  simp only [hostResume, hw, hd, if_true]

/-- HOST at the await of a write that is done goes on (R99, R109). -/
theorem hostResume_write (hw : s.hostWait = .write) (hd : s.blkDone = true) :
    hostResume s = writeDone { s with hostWait := .none } := by
  simp only [hostResume, hw, hd, if_true]

section
variable (hi : s.initDone = true) (hin : s.inbox = echoInput e :: rest)
include hi hin

/-- The echo of the slot HOST waits for is decoded, and HOST goes on with the bit (R86, R109). -/
theorem step_slotEcho (hs : s.slotOut = some (.sync, b)) (hw : s.hostWait = .slot) :
    step s = slotDone (decodeBit s.cfg e) { s with
      rx := e, slotOut := none, syncEcho := none, hostWait := .none, inbox := rest } := by
  rw [step_echo hin, execEvEcho_sync (by exact hi) (by exact hs), afterEvent,
    hostResume_slot (by exact hw) rfl]

/-- The echo of the reset HOST waits for completes it, and HOST goes on with the presence (R92,
R98). -/
theorem step_resetEcho (he : s.eng = .resetPending) (hk : s.engCont = .blocking)
    (hs : s.slotOut = some (.engine, b)) (hw : s.hostWait = .reset) :
    step s = resetDone (presenceOf s.cfg e) { s with
      rx := e, slotOut := none, presence := presenceOf s.cfg e, baud := .normal, eng := .idle,
      engCont := .none, blkDone := true, blkValue := flagByte (presenceOf s.cfg e),
      hostWait := .none, inbox := rest,
      out := s.out ++ if s.baud = .normal then [] else [.baud .normal] } := by
  rw [step_echo hin, execEvEcho_reset (by exact hi) (by exact hs) (by exact he),
    completeTransfer_blocking (by exact hk), afterEvent, hostResume_reset (by exact hw) rfl]
  simp only [transferByte, getLsbD_flagByte]

/-- The last echo of the write HOST waits for completes it, and HOST goes on (R93, R99). -/
theorem step_lastWriteEcho (he : s.eng = .writePending 7) (hk : s.engCont = .blocking)
    (hs : s.slotOut = some (.engine, b)) (hw : s.hostWait = .write) :
    step s = writeDone { s with
      rx := e, slotOut := none, eng := .idle, engCont := .none, blkDone := true, blkValue := 0#8,
      hostWait := .none, inbox := rest } := by
  rw [step_echo hin, execEvEcho_lastWrite (by exact hi) (by exact hs) (by exact he),
    completeTransfer_blocking (by exact hk), afterEvent, hostResume_write (by exact hw) rfl]
  rfl

end

/-! ### The points of a pass, with nothing in flight -/

/-- A presence is followed by the search command (R109). -/
theorem passResetDone_present (hb : ¬s.engBusy) (c : SearchCaller) :
    passResetDone c true s = .next { acceptWrite s.cfg.cmdSearchRom .blocking s with
      blkDone := false, hostWait := .write, call := .search c .command } := by
  simp only [passResetDone, if_true, blockWrite_free _ hb]

/-- A bit pair selects the bit where it differs, else the rule of R108; a 0 chosen there is
recorded. -/
theorem passPair_of_not_both (c : SearchCaller) (k : Fin 64) {x comp : Bool}
    (h11 : ¬(x = true ∧ comp = true)) (s : State) :
    passPair c k x comp s =
      let d := if x = comp then discrepancyDir k s else x
      let record := x = comp ∧ d = false
      passSlot c (.writeDir k d) d { s with
        lastZero := if record then k.val + 1 else s.lastZero
        lastFamilyDiscrepancy :=
          if record ∧ k.val + 1 ≤ 8 then k.val + 1 else s.lastFamilyDiscrepancy } := by
  rw [passPair, if_neg h11]
  by_cases hx : x = comp
  · cases discrepancyDir k s <;> simp [hx, recordZero]
  · simp [hx]

/-- A direction bit before position 64 is recorded, and the next position read (R109). -/
theorem passDirDone_next (c : SearchCaller) {k : Fin 64} (hk : k.val < 63)
    (d : Bool) (s : State) :
    passDirDone c k d s = passSlot c (.readAddr (k + 1)) true (recordDir k d s) := by
  rw [passDirDone, romBits_val, if_pos (by omega)]

/-- The direction bit of position 64 ends the pass (R109, R110). -/
theorem passDirDone_last (c : SearchCaller) (d : Bool) (s : State) :
    passDirDone c 63 d s = .next (passEnd c (recordDir 63 d s)) := by
  rw [passDirDone, romBits_val, if_neg (by decide)]

theorem slotDone_readAddr (hc : s.call = .search c (.readAddr k)) (x : Bool) :
    slotDone x s = passSlot c (.readCompl k x) true s := by
  simp only [slotDone, hc]

theorem slotDone_readCompl {x : Bool} (hc : s.call = .search c (.readCompl k x)) (comp : Bool) :
    slotDone comp s = passPair c k x comp s := by
  simp only [slotDone, hc]

theorem slotDone_writeDir {d : Bool} (hc : s.call = .search c (.writeDir k d)) (x : Bool) :
    slotDone x s = passDirDone c k d s := by
  simp only [slotDone, hc]

theorem resetDone_search (hc : s.call = .search c .reset) (p : Bool) :
    resetDone p s = passResetDone c p s := by
  simp only [resetDone, hc]

theorem writeDone_search (hc : s.call = .search c .command) :
    writeDone s = passCommandDone c s := by
  simp only [writeDone, hc]

/-! ### The statements about a pass -/

/-- Settles O33: each echo ends its await, and the pass starts the next one. -/
theorem passWritesTheCommandAndReadsPairs : Obligations.PassWritesTheCommandAndReadsPairs := by
  intro s c e b rest hi hin
  refine ⟨fun he hk hs hw hc hpat hidle => ?_, fun he hk hs hw hc => ?_, fun k he hs hw hc => ?_⟩
  · have hp : presenceOf s.cfg e = true := presenceOf_iff.2 ⟨hpat, hidle⟩
    rw [step_resetEcho hi hin he hk hs hw, hp, resetDone_search (by exact hc),
      passResetDone_present (not_engBusy.2 ⟨rfl, rfl⟩), acceptWrite_eq, writeSlot_eq]
    rfl
  · rw [step_lastWriteEcho hi hin he hk hs hw, writeDone_search (by exact hc), passCommandDone,
      passSlot_free _ _ _ (not_engBusy.2 ⟨rfl, rfl⟩)]
    rfl
  · rw [step_slotEcho hi hin hs hw, slotDone_readAddr (by exact hc),
      passSlot_free _ _ _ (not_engBusy.2 ⟨by exact he, rfl⟩), hw]
    rfl

/-- A direction bit that completes byte `k / 8` folds it into the running CRC (R109). -/
theorem searchCrc_recordDir_eq (k : Fin 64) (d : Bool) (s : State) :
    (recordDir k d s).searchCrc =
      if k.val % 8 = 7 then
        crc8Step s.searchCrc ((setBit s.rom k.val d).extractLsb' (k.val - 7) 8)
      else s.searchCrc := by
  have hfold : (k.val + 1) % 8 = 0 ↔ k.val % 8 = 7 := by omega
  rw [recordDir_searchCrc, if_congr hfold rfl rfl]
  split
  next hlast =>
    have hbyte : 8 * (k.val / 8) = k.val - 7 := by omega
    rw [addrByte, hbyte]
  next => rfl

/-- The echo of a direction bit before position 64 records it, and sends the read slot of the next
position (R109). -/
theorem step_dirEcho {d : Bool} (hi : s.initDone = true) (he : s.eng = .idle)
    (hs : s.slotOut = some (.sync, b)) (hw : s.hostWait = .slot)
    (hc : s.call = .search c (.writeDir k d)) (hk : k.val < 63)
    (hin : s.inbox = echoInput e :: rest) :
    step s = .next { recordDir k d s with
      rx := e, syncEcho := none, slotOut := some (.sync, s.cfg.slotOne),
      call := .search c (.readAddr (k + 1)), inbox := rest,
      out := s.out ++ [.tx s.cfg.slotOne .normal] } := by
  rw [step_slotEcho hi hin hs hw, slotDone_writeDir (by exact hc), passDirDone_next c hk,
    passSlot_free _ _ _ (not_engBusy.2 ⟨by exact he, rfl⟩), ← hw]
  rfl

/-- Settles O34: the direction is recorded, and the read slot of the next position sent. -/
theorem directionIsRecordedAndBytesFolded : Obligations.DirectionIsRecordedAndBytesFolded := by
  intro s c k d e b rest hi he hs hw hc hk hin
  refine ⟨_, getLsbD_setBit s.rom k.val d k.isLt, ?_⟩
  rw [step_dirEcho hi he hs hw hc hk hin, ← searchCrc_recordDir_eq]
  rfl

/-- Settles O35: the pair selects the direction, and its slot is sent. -/
theorem bitPairSelectsTheDirection : Obligations.BitPairSelectsTheDirection := by
  intro s c k x e b rest hi he hs hw hc hin h11
  rw [step_slotEcho hi hin hs hw, slotDone_readCompl (by exact hc), passPair_of_not_both c k h11]
  dsimp only
  rw [passSlot_free _ _ _ (not_engBusy.2 ⟨by exact he, rfl⟩), hw]
  rfl

/-- Settles O36: both end the search with the error of a bus without responders. -/
theorem noRespondersEndTheSearch : Obligations.NoRespondersEndTheSearch := by
  intro s c e b rest hi hin
  refine ⟨fun k he hs hw hc hbit => ?_, fun he hk hs hw hc hnone => ?_⟩
  · rw [step_slotEcho hi hin hs hw, slotDone_readCompl (by exact hc), hbit, passPair,
      if_pos ⟨rfl, rfl⟩, searchFails_eq]
    cases c <;> rfl
  · have hp : presenceOf s.cfg e = false := by
      rw [presenceOf_eq_decide, decide_eq_false_iff_not, ← not_or, not_not]
      exact hnone
    rw [step_resetEcho hi hin he hk hs hw, hp, resetDone_search (by exact hc), passResetDone,
      if_neg Bool.false_ne_true, searchFails_eq]
    simp only [List.append_assoc]
    cases c <;> rfl

/-- A pass whose CRC is not zero ends as an error (R110). -/
theorem passEnd_mismatch (h : s.searchCrc ≠ 0#8) (c : SearchCaller) :
    passEnd c s = searchFails c .crcMismatch s := if_pos h

/-- A pass whose CRC is zero moves the branch point and hands the address to its caller (R110). -/
theorem passEnd_match (h : s.searchCrc = 0#8) (c : SearchCaller) :
    passEnd c s = searchFound c s.rom { s with
      lastDiscrepancy := s.lastZero,
      lastDeviceFlag := if s.lastZero = 0 then true else s.lastDeviceFlag } := if_neg (not_not.2 h)

/-- With `FAMILY_STRICT`, a filtered search withholds an address of another family (R113). -/
theorem searchFound_first_withheld {f : Byte} {a : Addr}
    (h : s.cfg.familyStrict = true ∧ f ≠ 0#8 ∧ a.extractLsb' 0 8 ≠ f) :
    searchFound (.first f) a s = s.clearSearch.ret .familyAbsent .none := if_pos (and_left_comm.1 h)

/-- It returns any other address (R112). -/
theorem searchFound_first_returned {f : Byte} {a : Addr}
    (h : ¬(s.cfg.familyStrict = true ∧ f ≠ 0#8 ∧ a.extractLsb' 0 8 ≠ f)) :
    searchFound (.first f) a s = s.ret .ok (.addr a) := if_neg (mt and_left_comm.1 h)

/-- `searchDevices n` lists an address: it returns the list at the n-th one, else goes on (R115). -/
theorem searchFound_devices (n : Byte) (l : List Addr) (a : Addr) (s : State) :
    searchFound (.devices n l) a s =
      if l.length + 1 = n.toNat then s.ret .ok (.addrs (l ++ [a]))
      else searchNextStart (.devices n (l ++ [a])) s := by
  simp only [searchFound, List.length_append, List.length_singleton]

/-- Settles O37: the CRC decides first, then the caller; `searchDevices` may start another pass. -/
theorem lastPositionEndsThePass : Obligations.LastPositionEndsThePass := by
  intro s c d e b rest hi he hs hw hc hin
  refine ⟨_, getLsbD_setBit s.rom 63 d (by decide), ?_⟩
  rw [step_slotEcho hi hin hs hw, slotDone_writeDir (by exact hc), passDirDone_last]
  dsimp only
  by_cases hcrc : crc8Step s.searchCrc ((setBit s.rom 63 d).extractLsb' 56 8) = 0#8
  · rw [if_neg (not_not.2 hcrc), passEnd_match (by exact hcrc)]
    cases c with
    | next => rfl
    | first f =>
      dsimp only
      by_cases hgate : s.cfg.familyStrict = true ∧ f ≠ 0#8 ∧
          (setBit s.rom 63 d).extractLsb' 0 8 ≠ f
      · rw [searchFound_first_withheld (by exact hgate), if_pos hgate]
        rfl
      · rw [searchFound_first_returned (by exact hgate), if_neg hgate]
        rfl
    | devices n l =>
      rw [searchFound_devices]
      dsimp only
      by_cases hfull : l.length + 1 = n.toNat
      · rw [if_pos hfull, if_pos hfull]
        rfl
      · rw [if_neg hfull, if_neg hfull]
        by_cases hlast : (if s.lastZero = 0 then true else s.lastDeviceFlag) = true
        · rw [if_pos hlast, searchNextStart_exhausted (by exact hlast)]
          rfl
        · rw [if_neg hlast, searchNextStart_free (by exact Bool.eq_false_iff.2 hlast)
            (not_engBusy.2 ⟨by exact he, rfl⟩)]
          rfl
  · rw [if_pos hcrc, passEnd_mismatch (by exact hcrc), searchFails_eq]
    cases c <;> rfl

end Sys2Proof.Machine
end

section
/-! Proof of a whole pass of `searchNext` in which every position answers with a bit and its
complement (44_rom_search.md R107 to R110): three echoes resolve a position, and the last one ends
the pass. -/

namespace Sys2Proof.Machine

variable {s : State} {a : Addr} {e : Nat → Byte} {rest : List Input} {k : Fin 64} {n : Nat}

/-- A pass of `searchNext` at point `pt` of index `k`, whose pairs are the bits of `a` and their
complements: the echoes from the `n`-th on are still to come, the bits of `a` before index `k` are
resolved, and no 0 was chosen at a discrepancy. -/
structure State.Resolving (s : State) (a : Addr) (e : Nat → Byte) (rest : List Input) (k : Fin 64)
    (pt : PassPoint) (n : Nat) : Prop where
  initDone : s.initDone = true
  eng : s.eng = .idle
  slot : ∃ b, s.slotOut = some (.sync, b)
  waiting : s.hostWait = .slot
  call : s.call = .search .next pt
  noZero : s.lastZero = 0
  crc : s.CrcRuns k
  resolved : ∀ j < k.val, s.rom.getLsbD j = a.getLsbD j
  pairs : ∀ i, i < 64 → decodeBit s.cfg (e (3 * i)) = a.getLsbD i ∧
    decodeBit s.cfg (e (3 * i + 1)) = !a.getLsbD i
  inbox : s.inbox = (List.range' n (192 - n)).map (fun j => echoInput (e j)) ++ rest

/-- The next input of the pass is echo `n`. -/
theorem State.Resolving.inbox_eq {pt : PassPoint} (h : s.Resolving a e rest k pt n) (hn : n < 192) :
    s.inbox = echoInput (e n) ::
      ((List.range' (n + 1) (192 - (n + 1))).map (fun j => echoInput (e j)) ++ rest) := by
  have hlen : 192 - n = 192 - (n + 1) + 1 := by omega
  rw [h.inbox, hlen, List.range'_succ, List.map_cons, List.cons_append]

/-- The address bit is read as that of `a`, and its complement asked for (R109). -/
theorem State.Resolving.step_readAddr (h : s.Resolving a e rest k (.readAddr k) (3 * k)) :
    ∃ t, step s = .next t ∧
      t.Resolving a e rest k (.readCompl k (a.getLsbD k)) (3 * k + 1) := by
  obtain ⟨b, hs⟩ := h.slot
  have hstep := (passWritesTheCommandAndReadsPairs s .next _ b _ h.initDone
    (h.inbox_eq (by omega))).2.2 k h.eng hs h.waiting h.call
  rw [(h.pairs k k.isLt).1] at hstep
  exact ⟨_, hstep, h.initDone, h.eng, ⟨_, rfl⟩, h.waiting, rfl, h.noZero, h.crc, h.resolved,
    h.pairs, rfl⟩

/-- The complement differs from the bit, so the bit is the direction and nothing is recorded
(R107). -/
theorem State.Resolving.step_readCompl
    (h : s.Resolving a e rest k (.readCompl k (a.getLsbD k)) (3 * k + 1)) :
    ∃ t, step s = .next t ∧ t.Resolving a e rest k (.writeDir k (a.getLsbD k)) (3 * k + 2) := by
  obtain ⟨b, hs⟩ := h.slot
  have hcompl := (h.pairs k k.isLt).2
  have hdiff : a.getLsbD k ≠ decodeBit s.cfg (e (3 * k + 1)) := by simp [hcompl]
  have hstep := bitPairSelectsTheDirection s .next k _ _ b _ h.initDone h.eng hs h.waiting h.call
    (h.inbox_eq (by omega)) (by simp [hcompl])
  simp only [hdiff, false_and, if_false] at hstep
  exact ⟨_, hstep, h.initDone, h.eng, ⟨_, rfl⟩, h.waiting, rfl, h.noZero, h.crc, h.resolved,
    h.pairs, rfl⟩

/-- A direction bit of `a` written at index `k` resolves that index (R53). -/
theorem State.Resolving.resolved_succ {pt : PassPoint} (h : s.Resolving a e rest k pt n) {j : Nat}
    (hj : j ≤ k.val) : (setBit s.rom k.val (a.getLsbD k)).getLsbD j = a.getLsbD j := by
  rw [getLsbD_setBit _ _ _ k.isLt]
  split
  next hjk => rw [hjk]
  next hjk => exact h.resolved j (by omega)

/-- The direction bit is recorded, and the next position read (R109). -/
theorem State.Resolving.step_writeDir
    (h : s.Resolving a e rest k (.writeDir k (a.getLsbD k)) (3 * k + 2)) (hk : k.val < 63) :
    ∃ t, step s = .next t ∧
      t.Resolving a e rest (k + 1) (.readAddr (k + 1)) (3 * (k + 1).val) := by
  obtain ⟨b, hs⟩ := h.slot
  have hval : (k + 1).val = k.val + 1 := by omega
  refine ⟨_, step_dirEcho h.initDone h.eng hs h.waiting h.call hk (h.inbox_eq (by omega)),
    h.initDone, h.eng, ⟨_, rfl⟩, h.waiting, rfl, h.noZero, ?_, fun j hj => ?_, h.pairs, ?_⟩
  · rw [hval]
    exact searchCrc_recordDir k _ h.crc
  · exact h.resolved_succ (by omega)
  · rw [hval]
    rfl

/-- HOST is free with nothing in flight; the pass found `a` and no device is left to find (R110). -/
structure State.FoundLast (t : State) (a : Addr) (rest : List Input) : Prop where
  free : t.free
  idle : ¬t.engBusy
  inbox : t.inbox = rest
  rom : t.rom = a
  lastDiscrepancy : t.lastDiscrepancy = 0
  lastDeviceFlag : t.lastDeviceFlag = true
  result : t.out.getLast? = some (.result .ok (.addr a))

/-- The last direction bit completes `a`, whose CRC is zero, and `searchNext` returns it (R110). -/
theorem State.Resolving.returns (h : s.Resolving a e rest 63 (.writeDir 63 (a.getLsbD 63)) 191)
    (ha : crc8 (addrBytes a) = 0#8) : ∃ t, step s = .next t ∧ t.FoundLast a rest := by
  obtain ⟨b, hs⟩ := h.slot
  have hrom : setBit s.rom 63 (a.getLsbD 63) = a :=
    BitVec.eq_of_getLsbD_eq fun j hj => h.resolved_succ (by exact Nat.le_of_lt_succ hj)
  have hcrc : (recordDir 63 (a.getLsbD 63) s).searchCrc = 0#8 := by
    rw [searchCrc_recordDir _ _ h.crc, recordDir_rom]
    exact (congrArg (fun x => crc8 (addrBytes x)) hrom).trans ha
  rw [step_slotEcho h.initDone (h.inbox_eq (by omega)) hs h.waiting,
    slotDone_writeDir (by exact h.call), passDirDone_last, passEnd_match (by exact hcrc)]
  refine ⟨_, rfl, ⟨⟨h.initDone, rfl⟩, rfl⟩, not_engBusy.2 ⟨h.eng, rfl⟩, rfl, hrom, h.noZero,
    if_pos h.noZero, List.getLast?_concat.trans ?_⟩
  exact congrArg (fun x => some (OutEvent.result .ok (.addr x))) hrom

/-- Two echoes read the pair of index `k`. -/
theorem State.Resolving.run_pair (h : s.Resolving a e rest k (.readAddr k) (3 * k)) :
    ∃ t, (∀ m, Host.Core.run Sys2Proof.core (m + 2) s = Host.Core.run Sys2Proof.core m t) ∧
      t.Resolving a e rest k (.writeDir k (a.getLsbD k)) (3 * k + 2) := by
  obtain ⟨m, hread, hm⟩ := h.step_readAddr
  obtain ⟨t, hcompl, ht⟩ := hm.step_readCompl
  exact ⟨t, fun n => (run_succ hread _).trans (run_succ hcompl n), ht⟩

/-- Three echoes for each position from index `k` on end the pass with `a`. -/
theorem State.Resolving.run_returns (m : Nat) (h : s.Resolving a e rest k (.readAddr k) (3 * k))
    (hm : k.val + m = 63) (ha : crc8 (addrBytes a) = 0#8) :
    ∃ t, Host.Core.run Sys2Proof.core (3 * m + 3) s = .next t ∧ t.FoundLast a rest := by
  induction m generalizing s k with
  | zero =>
    obtain rfl : k = 63 := Fin.ext hm
    obtain ⟨t₁, hpair, h₁⟩ := h.run_pair
    obtain ⟨t, hstep, hfound⟩ := h₁.returns ha
    exact ⟨t, (hpair 1).trans (run_succ hstep 0), hfound⟩
  | succ m ih =>
    obtain ⟨t₁, hpair, h₁⟩ := h.run_pair
    obtain ⟨t₂, hstep, h₂⟩ := h₁.step_writeDir (by omega)
    have hval : (k + 1).val = k.val + 1 := by omega
    obtain ⟨t, hrun, hfound⟩ := ih h₂ (by omega)
    exact ⟨t, (hpair _).trans ((run_succ hstep _).trans hrun), hfound⟩

/-- Settles O41: the pass resolves `a` from index 0 on. -/
theorem forcedPassFindsTheAddress : Obligations.ForcedPassFindsTheAddress := by
  intro s a b e rest hi he hs hw hc hz hcrc hpairs ha hin
  have h : s.Resolving a e rest 0 (.readAddr 0) 0 :=
    ⟨hi, he, ⟨b, hs⟩, hw, hc, hz, hcrc, nofun, hpairs, by rw [hin, List.range_eq_range']⟩
  obtain ⟨t, hrun, hfree, hidle, hrest, hrom, hld, hflag, hres⟩ := h.run_returns 63 rfl ha
  exact ⟨t, hrun, hfree, hidle, hrest, hrom, hld, hflag, hres⟩

end Sys2Proof.Machine
end

section
/-! Proof that a filtered search returns only addresses of its family (44_rom_search.md R112, R113),
in any state, coherent or not. `State.returned` collects the addresses that RESULT has carried. No
host operation adds one, nor does the engine's work, and a running `searchFirst` adds at most the
one that passes its gate. -/

namespace Sys2Proof.Machine

variable {s t : State} {c : SearchCaller}

/-! ### What returns no address -/

theorem returned_of_view (e : t.searchView = s.searchView) : t.returned = s.returned :=
  congrArg Prod.fst e

theorem returned_ret_nil {st : Status} {v : RetVal} (hv : (OutEvent.result st v).addresses = [])
    (s : State) : (s.ret st v).returned = s.returned := by
  rw [returned_ret, hv, List.append_nil]

/-- A search that has found nothing ends without an address. -/
theorem returned_searchEnds (hc : c.found = []) (st : Status) (s : State) :
    (searchEnds c st s).returned = s.returned := by
  cases c with
  | next => exact returned_ret_nil rfl s
  | first f => exact returned_ret_nil rfl s
  | devices n l => exact returned_ret_nil (v := .addrs l) hc s

theorem returned_searchFails (hc : c.found = []) (k : ErrorKind) (s : State) :
    (searchFails c k s).returned = s.returned :=
  (returned_searchEnds hc _ (s.clearSearch.emit (.log (.error k)))).trans
    (returned_of_view (s := s.clearSearch) (searchView_emit _ rfl))

theorem returned_searchNextStart (hc : c.found = []) (s : State) :
    (searchNextStart c s).returned = s.returned := by
  unfold searchNextStart
  have hreset : (blockReset s).1.returned = s.returned := returned_of_view (searchView_blockReset s)
  split
  · exact returned_searchEnds hc _ s.clearSearch
  · dsimp only
    split
    · exact hreset
    · exact (returned_searchEnds hc _ _).trans hreset

theorem returned_searchFirstStart (hc : c.found = []) (f : Byte) (s : State) :
    (searchFirstStart f c s).returned = s.returned := by
  rw [searchFirstStart_eq]
  exact returned_searchNextStart hc _

/-! ### The host operations -/

theorem returned_hostOp {run : State → Outcome} (hrun : run s = .next t → t.returned = s.returned)
    (hn : hostOp s run = .next t) : t.returned = s.returned := by
  rcases hostOp_next hn with ⟨-, rfl⟩ | ⟨-, hn⟩
  · exact returned_of_view (searchView_emit s rfl)
  · exact hrun hn

theorem returned_returnStatus {r : State × Status} (e : r.1.searchView = s.searchView)
    (hn : returnStatus r = .next t) : t.returned = s.returned := by
  cases hn
  exact (returned_ret_nil rfl _).trans (returned_of_view e)

theorem returned_enterAwait {r : State × Status} (e : r.1.searchView = s.searchView)
    (hn : enterAwait r = .next t) : t.returned = s.returned := by
  unfold enterAwait at hn
  split at hn
  · cases hn
    exact returned_of_view (t := r.1) e
  · exact returned_returnStatus e hn

theorem returned_dpStart {accept : State → State} (e : (accept s).searchView = s.searchView)
    (hn : dpStart accept s = .next t) : t.returned = s.returned := by
  cases hn
  split
  · exact (returned_ret_nil rfl _).trans (returned_of_view (searchView_emit s rfl))
  · exact (returned_ret_nil rfl _).trans (returned_of_view e)

/-- No host operation returns an address in the step that issues it. -/
theorem returned_operation {i : Instr} (he : i.isEvent = false) (hn : exec i s = .next t) :
    t.returned = s.returned := by
  cases i with simp only [exec] at hn
  | evEcho | evSpinTimeout => cases he
  | init =>
    rw [execInit_next hn]
    simp [State.returned, OutEvent.addresses]
  | sendSlot imm =>
    refine returned_hostOp (fun hn => ?_) hn
    split at hn
    · exact returned_enterAwait (searchView_startSlot _ s) hn
    · cases hn
      exact returned_of_view (searchView_emit s rfl)
  | startReset => exact returned_hostOp (returned_returnStatus (searchView_startReset _ s)) hn
  | startWriteByte v =>
    exact returned_hostOp (returned_returnStatus (searchView_startWriteByte v _ s)) hn
  | startReadByte =>
    exact returned_hostOp (returned_returnStatus (searchView_startReadByte _ s)) hn
  | resetBlocking => exact returned_hostOp (returned_enterAwait (searchView_blockReset s)) hn
  | writeByteBlocking v =>
    exact returned_hostOp (returned_enterAwait (searchView_blockWrite v s)) hn
  | readByteBlocking => exact returned_hostOp (returned_enterAwait (searchView_blockRead s)) hn
  | matchAddress a =>
    exact returned_hostOp (returned_returnStatus (searchView_matchStart a .host s)) hn
  | startConversion a =>
    exact returned_hostOp (returned_dpStart (searchView_acceptDp .convert a s)) hn
  | startTemperatureRead a =>
    exact returned_hostOp
      (returned_dpStart (searchView_acceptDp .read a (freshScratchpad s))) hn
  | getTransferResult =>
    refine returned_hostOp (fun hn => ?_) hn
    cases hn
    split <;> exact returned_ret_nil rfl s
  | getMatchResult | getTemperatureResult =>
    refine returned_hostOp (fun hn => ?_) hn
    cases hn
    exact returned_ret_nil rfl s
  | searchFirst f =>
    refine returned_hostOp (fun hn => ?_) hn
    cases hn
    exact returned_searchFirstStart rfl f s
  | searchNext =>
    refine returned_hostOp (fun hn => ?_) hn
    cases hn
    exact returned_searchNextStart rfl s
  | familySkip =>
    refine returned_hostOp (fun hn => ?_) hn
    cases hn
    exact returned_ret_nil rfl _
  | searchDevices n =>
    refine returned_hostOp (fun hn => ?_) hn
    cases hn
    split
    · exact returned_ret_nil rfl s
    · exact returned_searchFirstStart rfl _ s

/-! ### The pieces of a pass -/

theorem returned_passSlot {pt : PassPoint} {b : Bool} (hn : passSlot c pt b s = .next t) :
    t.returned = s.returned := by
  unfold passSlot at hn
  dsimp only at hn
  split at hn
  · cases hn
    exact returned_of_view (t := (startSlot b s).1) (searchView_startSlot b s)
  · cases hn

theorem returned_passPair {k : Fin 64} {x comp : Bool} (hc : c.found = [])
    (hn : passPair c k x comp s = .next t) : t.returned = s.returned := by
  by_cases h11 : x = true ∧ comp = true
  · rw [passPair, if_pos h11] at hn
    cases hn
    exact returned_searchFails hc _ s
  · rw [passPair_of_not_both c k h11] at hn
    have h := returned_passSlot hn
    exact h

theorem returned_passResetDone {p : Bool} (hc : c.found = [])
    (hn : passResetDone c p s = .next t) : t.returned = s.returned := by
  unfold passResetDone at hn
  split at hn
  · dsimp only at hn
    split at hn
    · cases hn
      exact returned_of_view (t := (blockWrite s.cfg.cmdSearchRom s).1) (searchView_blockWrite _ s)
    · cases hn
  · cases hn
    exact returned_searchFails hc _ s

theorem returned_resetDone {pt : PassPoint} {p : Bool} (hf : c.found = [])
    (hc : s.call = .search c pt) (hn : resetDone p s = .next t) : t.returned = s.returned := by
  unfold resetDone at hn
  rw [hc] at hn
  cases pt with
  | reset => exact returned_passResetDone hf hn
  | _ => cases hn

theorem returned_writeDone {pt : PassPoint} (hc : s.call = .search c pt)
    (hn : writeDone s = .next t) : t.returned = s.returned := by
  unfold writeDone at hn
  rw [hc] at hn
  cases pt with
  | command => exact returned_passSlot (s := { s with lastZero := 0, searchCrc := 0#8 }) hn
  | _ => cases hn

/-- A timeout ends a search that has found nothing without an address (R97, R109). -/
theorem returned_evSpinTimeout {pt : PassPoint} (hf : c.found = []) (hc : s.call = .search c pt)
    (hn : afterEvent (execEvSpinTimeout s) = .next t) : t.returned = s.returned := by
  obtain ⟨m, hm, hn⟩ := afterEvent_next hn
  rw [execEvSpinTimeout_eq] at hm
  split at hm
  · have hfails : m = searchFails c .busTimeout { s with hostWait := .none } := by
      simpa only [awaitTimesOut, hc, Host.Outcome.next.injEq, eq_comm] using hm
    have hfree : m.hostWait = .none := by rw [hfails, searchFails_eq]
    rw [hostResume_none hfree] at hn
    cases hn
    rw [hfails]
    exact returned_searchFails hf _ _
  · cases hm

/-! ### A running filtered search -/

/-- From `s` to `t` only addresses of family `f` are returned. -/
def ReturnsOnlyFamily (f : Byte) (s t : State) : Prop :=
  ∃ l, t.returned = s.returned ++ l ∧ ∀ a ∈ l, familyOf a = f

theorem ReturnsOnlyFamily.of_eq {f : Byte} (h : t.returned = s.returned) :
    ReturnsOnlyFamily f s t :=
  ⟨[], by rw [h, List.append_nil], nofun⟩

section
variable {f : Byte} {pt : PassPoint} (hstrict : s.cfg.familyStrict = true) (hf : f ≠ 0#8)
include hstrict hf

/-- The gate of `searchFirst f` (R113). -/
theorem returnsOnlyFamily_searchFound (a : Addr) :
    ReturnsOnlyFamily f s (searchFound (.first f) a s) := by
  by_cases hgate : s.cfg.familyStrict = true ∧ f ≠ 0#8 ∧ a.extractLsb' 0 8 ≠ f
  · rw [searchFound_first_withheld hgate]
    exact .of_eq (returned_ret_nil rfl s.clearSearch)
  · have hfam : familyOf a = f := by
      by_contra hne
      exact hgate ⟨hstrict, hf, hne⟩
    rw [searchFound_first_returned hgate]
    exact ⟨[a], returned_ret s _ _, List.forall_mem_singleton.2 hfam⟩

theorem returnsOnlyFamily_passEnd : ReturnsOnlyFamily f s (passEnd (.first f) s) := by
  by_cases hcrc : s.searchCrc = 0#8
  · rw [passEnd_match hcrc]
    exact returnsOnlyFamily_searchFound (by exact hstrict) hf _
  · rw [passEnd_mismatch hcrc]
    exact .of_eq (returned_searchFails rfl _ s)

theorem returnsOnlyFamily_passDirDone {k : Fin 64} {d : Bool}
    (hn : passDirDone (.first f) k d s = .next t) : ReturnsOnlyFamily f s t := by
  unfold passDirDone at hn
  dsimp only at hn
  split at hn
  · exact .of_eq (returned_passSlot (s := recordDir k d s) hn)
  · cases hn
    exact returnsOnlyFamily_passEnd (s := recordDir k d s) hstrict hf

variable (hc : s.call = .search (.first f) pt)
include hc

theorem returnsOnlyFamily_slotDone {b : Bool} (hn : slotDone b s = .next t) :
    ReturnsOnlyFamily f s t := by
  unfold slotDone at hn
  rw [hc] at hn
  cases pt with
  | readAddr k => exact .of_eq (returned_passSlot hn)
  | readCompl k x => exact .of_eq (returned_passPair rfl hn)
  | writeDir k d => exact returnsOnlyFamily_passDirDone hstrict hf hn
  | reset | command => cases hn

/-- HOST's going on at its await. -/
theorem returnsOnlyFamily_hostResume (hn : hostResume s = .next t) : ReturnsOnlyFamily f s t := by
  have stays (hn : Host.Outcome.next s = (.next t : Outcome)) : ReturnsOnlyFamily f s t := by
    cases hn
    exact .of_eq rfl
  unfold hostResume at hn
  split at hn
  · exact stays hn
  · split at hn
    · exact stays hn
    · exact returnsOnlyFamily_slotDone (s := { s with syncEcho := none, hostWait := .none })
        hstrict hf hc hn
  all_goals split at hn
  · exact .of_eq (returned_resetDone (s := { s with hostWait := .none }) rfl hc hn)
  · exact stays hn
  · exact .of_eq (returned_writeDone (s := { s with hostWait := .none }) hc hn)
  · exact stays hn
  · simp [readDone, hc] at hn
  · exact stays hn

/-- An echo takes its effect on the engine, which returns nothing, then HOST goes on. -/
theorem returnsOnlyFamily_evEcho {e : Byte} (hn : afterEvent (execEvEcho e s) = .next t) :
    ReturnsOnlyFamily f s t := by
  have htcfg : t.cfg = s.cfg := (dpMoves_evEcho hn).cfg
  obtain ⟨m, hm, hn⟩ := afterEvent_next hn
  have hmcfg : m.cfg = s.cfg := (hostKeeps_hostResume hn).cfg.symm.trans htcfg
  have hview := searchView_evEcho hm
  simp only [State.searchView, Prod.mk.injEq] at hview
  obtain ⟨hret, hcall, -⟩ := hview
  have h := returnsOnlyFamily_hostResume (by rwa [hmcfg]) hf (hcall.trans hc) hn
  rwa [ReturnsOnlyFamily, hret] at h

end

/-- A step of a running filtered search returns only addresses of its family. -/
theorem returnsOnlyFamily_step {f : Byte} {pt : PassPoint} (hstrict : s.cfg.familyStrict = true)
    (hf : f ≠ 0#8) (hc : s.call = .search (.first f) pt) (hn : step s = .next t) :
    ReturnsOnlyFamily f s t := by
  unfold step at hn
  split at hn
  · cases hn
    exact .of_eq rfl
  next x rest hin =>
    split at hn
    next hfetch =>
      exact .of_eq (returned_operation (s := { s with inbox := rest })
        (not_isEvent_of_fetch_operation hfetch) hn)
    · refine .of_eq (returned_hostOp (s := { s with inbox := rest }) (fun hn => ?_) hn)
      cases hn
      exact returned_of_view (searchView_emit _ rfl)
    next i hfetch =>
      have he := isEvent_of_fetch_event hfetch
      cases i with simp only [exec] at hn
      | evEcho e => exact returnsOnlyFamily_evEcho (s := { s with inbox := rest }) hstrict hf hc hn
      | evSpinTimeout =>
        exact .of_eq (returned_evSpinTimeout (s := { s with inbox := rest }) rfl hc hn)
      | _ => cases he
    · cases hn

/-! ### The statement -/

theorem Sends.out_extends (h : Sends s t) : s.out <+: t.out := by
  cases h with
  | quiet l hout | slot l _ _ _ hout => exact ⟨l, hout.symm⟩

/-- A step only adds to what the ports have carried. -/
theorem step_out_extends (hn : step s = .next t) : s.out <+: t.out := by
  rcases step_cases hn with h | ⟨c, rest, -, -, rfl⟩ | ⟨e, rest, -, h⟩
  · exact h.sends.out_extends
  · exact ⟨[.baud .normal, .line .weak, .result .ok .none], by simp⟩
  · exact h.sends.out_extends

/-- Settles O39: an address among the new outputs is one that the step returns. -/
theorem filteredSearchReturnsOnlyItsFamily : Obligations.FilteredSearchReturnsOnlyItsFamily := by
  intro s t f pt a hstrict hf hc hn ha
  obtain ⟨l, hret, hfam⟩ := returnsOnlyFamily_step hstrict hf hc hn
  obtain ⟨new, hout⟩ := step_out_extends hn
  rw [← hout, List.drop_left] at ha
  have hnew : new.flatMap OutEvent.addresses = l := by
    rw [State.returned, ← hout, List.flatMap_append] at hret
    exact List.append_cancel_left hret
  exact hfam a (hnew ▸ List.mem_flatMap.2 ⟨_, ha, List.mem_singleton_self a⟩)

end Sys2Proof.Machine
end

section
/-! Proofs of the exact statements about the ROM Match Sequencer (45_rom_match.md R116 to R121): how
HOST starts a match, and how its end starts the command write of the Device Protocol. -/

namespace Sys2Proof.Machine

variable {s : State}

/-! ### The start of a match -/

/-- Settles O42: the match start of a HOST that runs nothing, then the return. -/
theorem matchAddressStartsWithAReset : Obligations.MatchAddressStartsWithAReset := by
  rintro s a ⟨hr, hc⟩
  rw [exec, execMatchAddress, hostOp_ready hr]
  split
  next hb => rw [matchStart_busy a .host hb, returnStatus_busy hc]
  next hb =>
    obtain ⟨hm, hfree⟩ := not_or.1 hb
    rw [matchStart_free a .host (not_not.1 hm) hfree, returnStatus, ret_of_no_call (by exact hc),
      acceptReset_eq]
    simp [State.emit]

/-! ### What a completed transfer goes on to -/

/-- The command byte of an operation as R126 writes it. -/
theorem dpCommand_eq (g : Config) (op : DpOp) :
    dpCommand g op = if op = .convert then g.cmdConvertT else g.cmdReadScratchpad := by
  cases op <;> rfl

/-- A match of HOST ends with its result (R121). -/
theorem matchDone_host (hc : s.mClient = .host) :
    matchDone s = .next { s with m := .idle, mResult := .ok } := by
  simp only [matchDone, hc]

/-- The end of a match of the Device Protocol is handed to it (R121). -/
theorem matchDone_dp (hc : s.mClient = .dp) :
    matchDone s = dpStep .matchDone { s with m := .idle, mResult := .ok } := by
  simp only [matchDone, hc]

/-- The end of the match writes the operation's command byte (R126). -/
theorem dpStep_matchDone (hd : s.dp = .awaitingMatch) (hb : ¬s.engBusy) :
    dpStep .matchDone s =
      .next { acceptWrite (dpCommand s.cfg s.dpOp) .dp s with dp := .awaitingCommand } := by
  simp only [dpStep, hd, dpMatchDone, startWriteByte_free _ _ hb]
  rfl

/-- A completed transfer of the match sequencer is handed to it (R95). -/
theorem completeTransfer_romMatch (hc : s.engCont = .romMatch) (r : TransferResult) :
    completeTransfer r s = matchStep r { s with eng := .idle, engCont := .none } := by
  simp only [completeTransfer, hc, deliver]

/-- The write of the skip command or of address byte 7 is the last of a match (R118, R120). -/
theorem matchStep_last (hm : s.m = .skipCmd ∨ s.m = .addr 7) :
    matchStep .writeDone s = matchDone s := by
  rcases hm with hm | hm <;> simp [matchStep, hm]

/-- A presence is followed by the first command (R117). -/
theorem matchStep_present (hm : s.m = .reset) :
    matchStep (.resetDone true) s = .next (matchCommand s) := by
  simp only [matchStep, hm, if_true]

/-- The match command is followed by address byte 0 (R119). -/
theorem matchStep_matchCmd (hm : s.m = .matchCmd) :
    matchStep .writeDone s = .next (matchSendByte 0 s) := by
  simp only [matchStep, hm]

/-- An address byte before the last is followed by the next (R120). -/
theorem matchStep_addr {k : Fin 8} (hm : s.m = .addr k) (hk : k.val < 7) :
    matchStep .writeDone s = .next (matchSendByte (k + 1) s) := by
  simp only [matchStep, hm, if_pos hk]

/-- Settles O47: the last write ends the match, which writes the command byte. -/
theorem matchCompletionWritesTheCommand : Obligations.MatchCompletionWritesTheCommand := by
  intro s e b hi hs he hk hm hc hd
  rw [exec, execEvEcho_lastWrite hi hs he, completeTransfer_romMatch (by exact hk),
    matchStep_last (by exact hm), matchDone_dp (by exact hc),
    dpStep_matchDone (by exact hd) (not_engBusy.2 ⟨rfl, rfl⟩), acceptWrite_eq, writeSlot_eq,
    dpCommand_eq]
  rfl

end Sys2Proof.Machine
end

section
/-! Proof of what a whole match writes on the bus (45_rom_match.md R117 to R121, 20_memory.md R55).
A byte write is eight echoes, the last of which completes it; the completion starts the next byte or
ends the match. -/

namespace Sys2Proof.Machine

variable {s t : State} {rest : List Input}

/-! ### A whole byte write -/

/-- The echoes from slot `i` of a byte write on send the slots after it, and the last one completes
the transfer: the run goes on from what its continuation leaves (R91, R93). -/
theorem run_byteWrite {es : List Byte} {i : Fin 8} {b : Byte} (hi : s.initDone = true)
    (hw : s.hostWait = .none) (hs : s.slotOut = some (.engine, b)) (he : s.eng = .writePending i)
    (hlen : i.val + es.length = 8) (hin : s.inbox = es.map echoInput ++ rest) :
    ∃ x, ∀ u, afterEvent (completeTransfer .writeDone { s with
        rx := x, slotOut := none, eng := .writePending 7, inbox := rest,
        out := s.out ++ (List.range' (i.val + 1) (7 - i.val)).map fun j =>
          .tx (writeSlot s.cfg s.engData j) .normal }) = .next u →
      ∀ n, Host.Core.run Sys2Proof.core (n + es.length) s = Host.Core.run Sys2Proof.core n u := by
  induction es generalizing s i b with
  | nil => exact absurd hlen i.isLt.ne
  | cons e es ih =>
    rw [List.length_cons] at hlen
    rw [List.map_cons, List.cons_append] at hin
    by_cases hlt : i.val < 7
    · have hval : (i + 1).val = i.val + 1 := val_nextSlot hlt
      have hstep := step_echo hin
      rw [execEvEcho_midWrite (by exact hi) (by exact hs) (by exact he) hlt, afterEvent,
        hostResume_none (by exact hw)] at hstep
      obtain ⟨x, hx⟩ := ih (i := i + 1) (s := { s with
        rx := e, slotOut := some (.engine, writeSlot s.cfg s.engData (i.val + 1)),
        eng := .writePending (i + 1), inbox := es.map echoInput ++ rest,
        out := s.out ++ [.tx (writeSlot s.cfg s.engData (i.val + 1)) .normal] })
        hi hw rfl rfl (by omega) rfl
      have hslots : 7 - i.val = 7 - (i.val + 1) + 1 := by omega
      refine ⟨x, fun u hu n => (run_succ hstep _).trans (hx u ?_ n)⟩
      rw [← hu, hval, hslots, List.range'_succ, List.map_cons, ← List.append_cons]
    · obtain rfl : i = 7 := by omega
      obtain rfl : es = [] := List.eq_nil_of_length_eq_zero (by omega)
      refine ⟨e, fun u hu n => run_succ (m := u) ?_ n⟩
      rw [step_echo hin, execEvEcho_lastWrite (by exact hi) (by exact hs) (by exact he), ← hu, ← he]
      simp

/-! ### The bytes of a match -/

/-- The match sequencer starts the write of byte `v`, and waits for its completion in state `m`
(R117, R119, R120). -/
def State.matchWrite (s : State) (m : MatchState) (v : Byte) : State :=
  { acceptWrite v .romMatch s with m := m }

/-- What a match writes on the bus: the skip command for the sentinel, else the match command and
the address (R117, R55). -/
def State.matchBytes (s : State) : List Byte :=
  if s.mAddr = s.cfg.broadcastSentinel then [s.cfg.cmdSkipRom]
  else s.cfg.cmdMatchRom :: addrBytes s.mAddr

/-- The first byte of a match with nothing in flight (R117). -/
theorem matchCommand_free (hb : ¬s.engBusy) :
    matchCommand s =
      if s.mAddr = s.cfg.broadcastSentinel then s.matchWrite .skipCmd s.cfg.cmdSkipRom
      else s.matchWrite .matchCmd s.cfg.cmdMatchRom := by
  rw [matchCommand, startWriteByte_free _ _ hb, startWriteByte_free _ _ hb]
  rfl

/-- The first byte of a match leaves HOST as it is. -/
theorem hostWait_matchCommand (hb : ¬s.engBusy) : (matchCommand s).hostWait = s.hostWait := by
  rw [matchCommand_free hb]
  split <;> rfl

/-- An address byte with nothing in flight (R119, R120). -/
theorem matchSendByte_free (k : Fin 8) (hb : ¬s.engBusy) :
    matchSendByte k s = s.matchWrite (.addr k) (addrByte s.mAddr k.val) := by
  rw [matchSendByte, startWriteByte_free _ _ hb]
  rfl

/-! ### The run of a match -/

/-- `t` is a state of the match in flight in `s` between two transfers: the presence has been seen,
the ports have carried `sent` since `s`, and the inputs `l` are still to come. -/
structure State.MatchSent (s t : State) (sent : List OutEvent) (l : List Input) : Prop where
  initDone : t.initDone = true
  hostWait : t.hostWait = .none
  idle : ¬t.engBusy
  presence : t.presence = true
  mAddr : t.mAddr = s.mAddr
  mClient : t.mClient = s.mClient
  dp : t.dp = s.dp
  dpOp : t.dpOp = s.dpOp
  cfg : t.cfg = s.cfg
  out : t.out = s.out ++ sent
  inbox : t.inbox = l

/-- In `t` the match in flight in `s` is over with `Ok`, the ports having carried `sent` for it: a
match of HOST leaves the engine idle, one of the Device Protocol has started its command write
(R121, R126). -/
structure State.MatchEnded (s t : State) (sent : List OutEvent) (l : List Input) : Prop where
  inbox : t.inbox = l
  m : t.m = .idle
  mResult : t.mResult = .ok
  mAddr : t.mAddr = s.mAddr
  presence : t.presence = true
  host : s.mClient = .host → ¬t.engBusy ∧ t.dp = s.dp ∧ t.out = s.out ++ sent
  device : s.mClient = .dp →
    t.eng = .writePending 0 ∧ t.engData = dpCommand s.cfg s.dpOp ∧ t.engCont = .dp ∧
      t.slotOut = some (.engine, writeSlot s.cfg (dpCommand s.cfg s.dpOp) 0) ∧
      t.dp = .awaitingCommand ∧ t.dpOp = s.dpOp ∧
      t.out = s.out ++ sent ++ [.tx (writeSlot s.cfg (dpCommand s.cfg s.dpOp) 0) .normal]

section
variable {sent : List OutEvent} {es : List Byte}

/-- After its last byte the match is over in the same step (R121, R126). -/
theorem State.MatchSent.ends (h : s.MatchSent t sent rest)
    (hd : s.mClient = .dp → s.dp = .awaitingMatch) :
    ∃ u, afterEvent (matchDone t) = .next u ∧ s.MatchEnded u sent rest := by
  cases hc : s.mClient with
  | host =>
    rw [matchDone_host (h.mClient.trans hc), afterEvent, hostResume_none (by exact h.hostWait)]
    exact ⟨_, rfl, h.inbox, rfl, rfl, h.mAddr, h.presence, fun _ => ⟨h.idle, h.dp, h.out⟩,
      fun hf => (nomatch hc.symm.trans hf)⟩
  | dp =>
    rw [matchDone_dp (h.mClient.trans hc),
      dpStep_matchDone (by exact h.dp.trans (hd hc)) (by exact h.idle), afterEvent,
      hostResume_none (by exact h.hostWait)]
    refine ⟨_, rfl, h.inbox, rfl, rfl, h.mAddr, h.presence,
      fun hf => (nomatch hc.symm.trans hf), fun _ => ?_⟩
    rw [← h.cfg, ← h.dpOp, ← h.out]
    exact ⟨rfl, rfl, rfl, rfl, rfl, rfl, rfl⟩

/-- The next eight echoes write a byte of the match, and the run goes on from what the completion of
that write leaves. -/
theorem State.MatchSent.run_write (h : s.MatchSent t sent (es.map echoInput ++ rest))
    (hes : 8 ≤ es.length) (m : MatchState) (v : Byte) :
    ∃ t', s.MatchSent t' (sent ++ byteSlots s.cfg v) ((es.drop 8).map echoInput ++ rest) ∧
      t'.m = m ∧ ∀ u, afterEvent (matchStep .writeDone t') = .next u →
        Host.Core.run Sys2Proof.core es.length (t.matchWrite m v) =
          Host.Core.run Sys2Proof.core (es.drop 8).length u := by
  have hfirst : (es.take 8).length = 8 := List.length_take_of_le hes
  have hlen : es.length = (es.drop 8).length + (es.take 8).length := by
    rw [Nat.add_comm, ← List.length_append, List.take_append_drop]
  have hin : (t.matchWrite m v).inbox =
      (es.take 8).map echoInput ++ ((es.drop 8).map echoInput ++ rest) := by
    rw [← List.append_assoc, ← List.map_append, List.take_append_drop]
    exact h.inbox
  obtain ⟨x, hrun⟩ := run_byteWrite (by exact h.initDone) (by exact h.hostWait) rfl rfl
    (by exact (Nat.zero_add _).trans hfirst) hin
  refine ⟨{ t.matchWrite m v with
    rx := x, slotOut := none, eng := .idle, engCont := .none,
    inbox := (es.drop 8).map echoInput ++ rest,
    out := (t.matchWrite m v).out ++ (List.range' 1 7).map fun j =>
      .tx (writeSlot t.cfg v j) .normal }, ⟨h.initDone, h.hostWait, not_engBusy.2 ⟨rfl, rfl⟩,
    h.presence, h.mAddr, h.mClient, h.dp, h.dpOp, h.cfg, ?_, rfl⟩, rfl, fun u hu => ?_⟩
  · simp [State.matchWrite, h.out, h.cfg, byteSlots, List.range_eq_range', List.range'_succ]
  · rw [hlen]
    exact hrun u hu _

/-- The last byte of a match ends it: the skip command or address byte 7 (R118, R120). -/
theorem State.MatchSent.run_last (h : s.MatchSent t sent (es.map echoInput ++ rest))
    (hes : es.length = 8) (hd : s.mClient = .dp → s.dp = .awaitingMatch) {m : MatchState}
    (hm : m = .skipCmd ∨ m = .addr 7) (v : Byte) :
    ∃ u, Host.Core.run Sys2Proof.core es.length (t.matchWrite m v) = .next u ∧
      s.MatchEnded u (sent ++ byteSlots s.cfg v) rest := by
  have hdrop : es.drop 8 = [] := List.drop_eq_nil_of_le hes.le
  obtain ⟨t', ht', hmt, hrun⟩ := h.run_write hes.ge m v
  rw [hdrop] at ht' hrun
  obtain ⟨u, hu, hend⟩ := ht'.ends hd
  exact ⟨u, hrun u (by rw [matchStep_last (hmt ▸ hm), hu]), hend⟩

/-- Where the completion of a byte starts an address byte, the step ends there: HOST is not blocked
(R119, R120). -/
theorem State.MatchSent.afterEvent_sendByte (h : s.MatchSent t sent rest) {k : Fin 8}
    (hstep : matchStep .writeDone t = .next (matchSendByte k t)) :
    afterEvent (matchStep .writeDone t) = .next (matchSendByte k t) := by
  rw [hstep, matchSendByte_free k h.idle]
  exact hostResume_none h.hostWait

/-- The address bytes from `k` on are written in order, and the last ends the match (R119, R120). -/
theorem State.MatchSent.run_address (n : Nat) {k : Fin 8}
    (h : s.MatchSent t sent (es.map echoInput ++ rest)) (hk : k.val + n = 7)
    (hes : es.length = 8 * (n + 1)) (hd : s.mClient = .dp → s.dp = .awaitingMatch) :
    ∃ u, Host.Core.run Sys2Proof.core es.length (matchSendByte k t) = .next u ∧
      s.MatchEnded u (sent ++ (List.range' k.val (n + 1)).flatMap fun j =>
        byteSlots s.cfg (addrByte s.mAddr j)) rest := by
  rw [matchSendByte_free k h.idle, h.mAddr]
  induction n generalizing t sent es k with
  | zero =>
    obtain rfl : k = 7 := Fin.ext hk
    obtain ⟨u, hrun, hend⟩ := h.run_last hes hd (.inr rfl) (addrByte s.mAddr 7)
    exact ⟨u, hrun, by simpa using hend⟩
  | succ n ih =>
    obtain ⟨t', ht', hm, hrun⟩ := h.run_write (by omega) (.addr k) (addrByte s.mAddr k.val)
    have hstep := ht'.afterEvent_sendByte (matchStep_addr hm (by omega))
    have hval : (k + 1).val = k.val + 1 := val_nextSlot (by omega)
    obtain ⟨u, hu, hend⟩ := ih (k := k + 1) ht' (by omega) (by rw [List.length_drop]; omega)
    rw [← ht'.mAddr, ← matchSendByte_free (k + 1) ht'.idle] at hu
    refine ⟨u, (hrun _ hstep).trans hu, ?_⟩
    rw [List.range'_succ, List.flatMap_cons, ← List.append_assoc, ← hval]
    exact hend

/-- A match after its presence writes its bytes, and the last ends it (R117 to R121). -/
theorem State.MatchSent.run_command (h : s.MatchSent t sent (es.map echoInput ++ rest))
    (hes : es.length = 8 * s.matchBytes.length) (hd : s.mClient = .dp → s.dp = .awaitingMatch) :
    ∃ u, Host.Core.run Sys2Proof.core es.length (matchCommand t) = .next u ∧
      s.MatchEnded u (sent ++ s.matchBytes.flatMap (byteSlots s.cfg)) rest := by
  rw [matchCommand_free h.idle, h.mAddr, h.cfg]
  by_cases ha : s.mAddr = s.cfg.broadcastSentinel
  · rw [State.matchBytes, if_pos ha] at hes ⊢
    rw [if_pos ha, List.flatMap_singleton]
    exact h.run_last hes hd (.inl rfl) s.cfg.cmdSkipRom
  · rw [State.matchBytes, if_neg ha] at hes ⊢
    rw [if_neg ha]
    have hlen : es.length = 8 * 9 := hes
    obtain ⟨t', ht', hm, hrun⟩ := h.run_write (by omega) .matchCmd s.cfg.cmdMatchRom
    have hstep := ht'.afterEvent_sendByte (matchStep_matchCmd hm)
    obtain ⟨u, hu, hend⟩ := ht'.run_address 7 (k := 0) rfl (by rw [List.length_drop]; omega) hd
    refine ⟨u, (hrun _ hstep).trans hu, ?_⟩
    rw [List.flatMap_cons, ← List.append_assoc, addrBytes, List.flatMap_map, List.range_eq_range']
    exact hend

end

/-- The reset echo of a match, with a presence, is followed by its first command (R92, R117). -/
theorem step_matchReset {e b : Byte} (hi : s.initDone = true) (hw : s.hostWait = .none)
    (hs : s.slotOut = some (.engine, b)) (he : s.eng = .resetPending) (hb : s.baud = .reset)
    (hk : s.engCont = .romMatch) (hm : s.m = .reset) (hp : presenceOf s.cfg e = true)
    (hin : s.inbox = echoInput e :: rest) :
    ∃ t, step s = .next (matchCommand t) ∧ s.MatchSent t [.baud .normal] rest := by
  rw [step_echo hin, execEvEcho_reset (by exact hi) (by exact hs) (by exact he),
    completeTransfer_romMatch (by exact hk), hp, matchStep_present (by exact hm), afterEvent,
    hostResume_none (by rw [hostWait_matchCommand (not_engBusy.2 ⟨rfl, rfl⟩), hw])]
  exact ⟨_, rfl, hi, hw, not_engBusy.2 ⟨rfl, rfl⟩, rfl, rfl, rfl, rfl, rfl, rfl, by simp [hb], rfl⟩

/-- Settles O44: the reset echo, then the bytes of the match. -/
theorem matchWritesCommandAndAddress : Obligations.MatchWritesCommandAndAddress := by
  intro s b e0 es rest hi hw hs he hb hk hm hd hpat hidle bytes sent hes hin
  obtain ⟨t, hstep, ht⟩ :=
    step_matchReset hi hw hs he hb hk hm (presenceOf_iff.2 ⟨hpat, hidle⟩) hin
  obtain ⟨u, hrun, hend⟩ := ht.run_command hes hd
  refine ⟨u, ?_, hend.inbox, hend.m, hend.mResult, hend.mAddr, hend.presence, hend.host, ?_⟩
  · rw [Nat.add_comm, run_succ hstep, hrun]
  · rw [← dpCommand_eq]
    exact hend.device

end Sys2Proof.Machine
end

section
/-! Proofs of the statements about the temperature decode (46_temperature.md R130): the value in
tenths that a byte pair stands for, and its range, which the last-known-good temperature keeps. -/

namespace Sys2Proof.Machine

/-! ### The parts of the raw value -/

/-- The integer part is the bits 4 to 10 of the raw value (R130). -/
theorem toNat_integerPart (lsb msb : Byte) :
    (integerPart lsb msb).toNat = msb.toNat % 8 * 16 + lsb.toNat / 16 := by
  have hlow : lsb.toNat >>> 4 < 2 ^ 4 := by
    rw [Nat.shiftRight_eq_div_pow]
    omega
  rw [integerPart, Nat.or_comm, ← Nat.shiftLeft_add_eq_or_of_lt hlow, BitVec.toNat_ofNat,
    Nat.shiftLeft_eq, Nat.shiftRight_eq_div_pow]
  omega

/-- The sign is bit 11 of the raw value (R130). -/
theorem sign_getLsbD_iff (msb : Byte) : msb.getLsbD 3 = true ↔ 8 ≤ msb.toNat % 16 := by
  rw [BitVec.getLsbD, Nat.testBit_eq_decide_div_mod_eq, decide_eq_true_iff]
  omega

/-- The magnitude of a negative integer part is its two's complement in 7 bits (R130). -/
theorem toNat_magnitude (ip : BitVec 7) : (~~~ip + 1#7).toNat = (128 - ip.toNat) % 128 := by
  rw [← BitVec.neg_eq_not_add, BitVec.toNat_neg]

/-- The decode in arithmetic: the signed integer part in tenths, and the tenths of the fraction
(R130). -/
theorem decodeTenths_eq (lsb msb : Byte) :
    decodeTenths lsb msb =
      (if 8 ≤ msb.toNat % 16 then -(((128 - (integerPart lsb msb).toNat) % 128 : Nat) : Int)
        else (integerPart lsb msb).toNat) * 10 + (lsb.toNat % 16 * 10 / 16 : Nat) := by
  have hfraction : (if lsb.toNat % 16 = 0 then 0 else (lsb.toNat % 16 * 10 / 16 : Nat)) =
      lsb.toNat % 16 * 10 / 16 := by
    split
    · omega
    · rfl
  simp only [decodeTenths, hfraction, sign_getLsbD_iff, toNat_magnitude]

/-- Sixteenths in tenths, rounded down: the whole part is exact, so only the fraction is rounded. -/
theorem sixteenths_to_tenths (n : Int) (f : Nat) :
    (16 * n + f) * 10 / 16 = n * 10 + (f * 10 / 16 : Nat) := by
  omega

/-! ### The range -/

/-- The decode gives −127 to 127 degrees, and the tenths of a fraction above that (R130). -/
theorem decodeTenths_bounds (lsb msb : Byte) :
    -1270 ≤ decodeTenths lsb msb ∧ decodeTenths lsb msb ≤ 1279 := by
  have hip := (integerPart lsb msb).isLt
  rw [decodeTenths_eq]
  split <;> omega

/-- The 16 bits of a temperature hold every value of the decode (R42, R130). -/
theorem toInt_decodeTemperature (lsb msb : Byte) :
    (decodeTemperature lsb msb).toInt = decodeTenths lsb msb := by
  have hrange := decodeTenths_bounds lsb msb
  exact BitVec.toInt_ofInt_eq_self (by decide) (by omega) (by omega)

/-- A decoded temperature is in the range of R130. -/
theorem tenthsInRange_decodeTemperature (lsb msb : Byte) :
    tenthsInRange (decodeTemperature lsb msb) := by
  rw [tenthsInRange, toInt_decodeTemperature]
  exact decodeTenths_bounds lsb msb

/-! ### The parameters -/

/-- No step changes the parameters (R8). -/
theorem step_cfg {s t : State} (hn : step s = .next t) : t.cfg = s.cfg := by
  rcases step_cases hn with h | ⟨c, rest, -, -, rfl⟩ | ⟨e, rest, -, h⟩
  · exact h.cfg
  · rfl
  · exact h.cfg

/-! ### The statements -/

/-- Settles O51: without the sign the raw value is 16 times the integer part, plus the fraction;
with it 16 times the negated magnitude, plus the fraction, but where the magnitude wraps to 0. -/
theorem decodeIsTheFloorInTenths : Obligations.DecodeIsTheFloorInTenths := by
  intro lsb msb w raw
  have hip := toNat_integerPart lsb msb
  have hlsb := lsb.isLt
  rw [toInt_decodeTemperature, decodeTenths_eq]
  generalize (integerPart lsb msb).toNat = ip at hip
  by_cases hsign : 8 ≤ msb.toNat % 16
  · have hraw : raw = 16 * ((ip : Int) - 128) + (lsb.toNat % 16 : Nat) :=
      (if_neg (by omega)).trans (by omega)
    rw [if_pos hsign]
    split
    · rw [hraw, sixteenths_to_tenths, Nat.mod_eq_of_lt (by omega)]
      omega
    · obtain rfl : ip = 0 := by omega
      simp
  · have hraw : raw = 16 * (ip : Int) + (lsb.toNat % 16 : Nat) :=
      (if_pos (by omega)).trans (by omega)
    rw [if_neg hsign, if_pos (by omega), hraw, sixteenths_to_tenths]

/-- Settles O52: a changed temperature is `LKG_INIT` or a decoded one. -/
theorem stepKeepsTheTemperatureInRange : Obligations.StepKeepsTheTemperatureInRange := by
  intro s t hlkg hinit hn
  refine ⟨?_, step_cfg hn ▸ hinit⟩
  obtain h | ⟨c, rest, -, -, h, -⟩ | ⟨e, rest, -, -, -, -, h⟩ :=
    lkgChangesOnlyByInitOrAGoodRead s t hn
  · exact h ▸ hlkg
  · exact h ▸ hinit
  · exact h ▸ tenthsInRange_decodeTemperature _ _

end Sys2Proof.Machine
end

section
/-! Proofs of the exact statements about the Device Protocol (46_temperature.md R123 to R132): its
starts, what each completion of its match and its transfers does, and the gate. -/

namespace Sys2Proof.Machine

variable {s : State}

/-! ### The starts -/

/-- A write of the pull-up is emitted when it changes (R44, R45). -/
theorem setPullup_eq (s : State) (p : Pullup) :
    s.setPullup p =
      { s with pullup := p, out := s.out ++ if s.pullup = p then [] else [.line p] } := by
  by_cases hp : s.pullup = p <;> simp [State.setPullup, hp]

/-- A start with a temperature sequence, a match or a transfer in flight is `Busy`: logged, nothing
changed (R123). -/
theorem dpStart_busy (hc : s.call = .none) (hb : s.dpStartBusy) (accept : State → State) :
    dpStart accept s = .next { s with
      out := s.out ++ [.log (.error .busy), .result .busy .none] } := by
  rw [dpStart, if_pos hb]
  exact returnStatus_busy hc

/-- A start with none of these in flight is accepted (R123). -/
theorem dpStart_free (hd : s.dp = .idle ∨ s.dp = .done) (hm : s.m = .idle) (hb : ¬s.engBusy)
    (accept : State → State) : dpStart accept s = .next ((accept s).ret .ok .none) := by
  have hfree : ¬s.dpStartBusy := by
    rintro (⟨hi, hdone⟩ | hm' | hb')
    · exact hd.elim hi hdone
    · exact hm' hm
    · exact hb hb'
  rw [dpStart, if_neg hfree]

/-- An accepted start turns the pull-up weak, starts the match with client `DP`, and returns (R124,
R125, R116). -/
theorem acceptDp_ret (op : DpOp) (a : Addr) (hc : s.call = .none) (hm : s.m = .idle)
    (hb : ¬s.engBusy) :
    (acceptDp op a s).ret .ok .none = { s with
      pullup := .weak, dpOp := op, dp := .awaitingMatch, mAddr := a, mClient := .dp,
      mResult := .pending, m := .reset, baud := .reset, rx := s.cfg.idleMarker,
      engCont := .romMatch, slotOut := some (.engine, s.cfg.resetPattern), eng := .resetPending,
      out := s.out ++ (if s.pullup = .weak then [] else [.line .weak]) ++
        (if s.baud = .reset then [] else [.baud .reset]) ++
        [.tx s.cfg.resetPattern .reset, .result .ok .none] } := by
  rw [acceptDp, matchStart_free a .dp (by exact hm) (by exact hb), acceptReset_eq, setPullup_eq,
    ret_of_no_call (by exact hc)]
  simp [State.emit]

/-- Settles O45: HOST can issue both starts, and each is `Busy`. -/
theorem busyTemperatureStartsChangeNothing : Obligations.BusyTemperatureStartsChangeNothing := by
  rintro s a ⟨hr, hc⟩ hb
  constructor
  · rw [exec, execStartConversion, hostOp_ready hr, dpStart_busy hc hb]
  · rw [exec, execStartTemperatureRead, hostOp_ready hr, dpStart_busy hc hb]

/-- Settles O46: both starts are accepted; that of a read takes a free scratchpad first. -/
theorem temperatureStartsRunTheMatch : Obligations.TemperatureStartsRunTheMatch := by
  rintro s a ⟨hr, hc⟩ hd hm hb u
  refine ⟨?_, Config.freeScratchpad s.draws, s.draws + 1, ?_⟩
  · rw [exec, execStartConversion, hostOp_ready hr, dpStart_free hd hm hb,
      acceptDp_ret _ _ hc hm hb]
  · rw [exec, execStartTemperatureRead, hostOp_ready hr, dpStart_free hd hm hb,
      acceptDp_ret _ _ (by exact hc) (by exact hm) (by exact hb)]
    rfl

/-! ### A match that fails -/

/-- A reset without presence fails the match (R117). -/
theorem matchStep_absent (hm : s.m = .reset) :
    matchStep (.resetDone false) s = .next (matchFailed s) := by
  simp only [matchStep, hm, Bool.false_eq_true, if_false]

/-- A failed match is logged, and aborts a Device Protocol sequence above it (R117, R132). -/
theorem matchFailed_eq (s : State) :
    matchFailed s = { s with
      m := .idle, mResult := .failed, dp := if s.mClient = .dp then .idle else s.dp,
      lastValid := if s.mClient = .dp ∧ s.dpOp = .read then false else s.lastValid,
      out := s.out ++ [.log (.error .noDevice)] } := by
  cases hc : s.mClient <;> simp [matchFailed, hc, dpAbort, State.emit]

/-- Settles O43: the echo is no presence, which ends the reset of the match. -/
theorem matchResetWithoutPresenceFails : Obligations.MatchResetWithoutPresenceFails := by
  intro s e b hi hs he hk hm hecho
  have habsent : presenceOf s.cfg e = false := by
    rw [presenceOf_eq_decide, decide_eq_false_iff_not]
    exact fun h => hecho.elim h.1 h.2
  rw [exec, execEvEcho_reset hi hs he, completeTransfer_romMatch (by exact hk), habsent,
    matchStep_absent (by exact hm), matchFailed_eq]

/-! ### The transfers of the Device Protocol -/

/-- A completed transfer of the Device Protocol is handed to it (R95). -/
theorem completeTransfer_dp (hc : s.engCont = .dp) (r : TransferResult) :
    completeTransfer r s = dpStep (.transfer r) { s with eng := .idle, engCont := .none } := by
  simp only [completeTransfer, hc, deliver]

/-- The end of the command write goes on by the operation (R127, R128). -/
theorem dpStep_writeDone (hd : s.dp = .awaitingCommand) :
    dpStep (.transfer .writeDone) s = .next (dpCommandDone s) := by
  simp only [dpStep, hd]

/-- The end of a byte read takes the byte (R129). -/
theorem dpStep_readDone {k : Fin 9} (hd : s.dp = .awaitingReadByte k) (v : Byte) :
    dpStep (.transfer (.readDone v)) s = .next (dpByteDone k v s) := by
  simp only [dpStep, hd]

/-- After the command of a conversion the pull-up turns strong (R127); after that of a read the
first scratchpad byte is read, from a zero CRC (R128, R102). -/
theorem dpCommandDone_eq (hb : ¬s.engBusy) :
    dpCommandDone s =
      if s.dpOp = .convert then { s.setPullup .strong with dp := .done }
      else { acceptRead .dp { s with dpCrc := 0#8 } with dp := .awaitingReadByte 0 } := by
  have hb' : ¬State.engBusy { s with dpCrc := 0#8 } := hb
  rw [dpCommandDone, startReadByte_free _ hb']
  cases s.dpOp <;> rfl

/-- A scratchpad byte before the ninth is stored and folded, and the next is read (R129). -/
theorem dpByteDone_mid {k : Fin 9} (hk : k.val < 8) (hb : ¬s.engBusy) (v : Byte) :
    dpByteDone k v s =
      { acceptRead .dp (storeScratchpad k v s) with dp := .awaitingReadByte (k + 1) } := by
  have hb' : ¬(storeScratchpad k v s).engBusy := hb
  simp only [dpByteDone, scratchpadLen_val, Nat.succ_lt_succ hk, if_true, startReadByte_free _ hb']

/-- Settles O48: the last echo of the command write, by the operation. -/
theorem commandCompletionGoesOnByOperation : Obligations.CommandCompletionGoesOnByOperation := by
  intro s e b hi hs he hk hd
  rw [exec, execEvEcho_lastWrite hi hs he, completeTransfer_dp (by exact hk),
    dpStep_writeDone (by exact hd), dpCommandDone_eq (not_engBusy.2 ⟨rfl, rfl⟩)]
  by_cases hop : s.dpOp = .convert
  · rw [if_pos (by exact hop), if_pos hop, setPullup_eq]
  · rw [if_neg (by exact hop), if_neg hop, acceptRead_eq, hk]
    rfl

/-- Settles O49: the last echo of the byte read, of the accumulator with bit 7 sampled. -/
theorem scratchpadByteIsStoredAndFolded : Obligations.ScratchpadByteIsStoredAndFolded := by
  intro s e b k hi hs he hk hd hlt
  refine ⟨_, getLsbD_setBit _ 7 _ (by decide), ?_⟩
  rw [exec, execEvEcho_lastRead hi hs he, completeTransfer_dp (by exact hk),
    dpStep_readDone (by exact hd), dpByteDone_mid hlt (not_engBusy.2 ⟨rfl, rfl⟩), acceptRead_eq,
    hk]
  rfl

/-! ### The gate -/

/-- A reading with a zero CRC becomes the last known good one, a jump being logged (R131). -/
theorem gate_accept (hcrc : s.dpCrc = 0#8) (x : Tenths) :
    gate x s = { s with
      lkg := x, lkgValid := true, lastValid := true,
      out := s.out ++ if isJump s x then [.log .tempJump] else [] } := by
  cases hj : isJump s x <;> simp [gate, hcrc, hj, State.emit]

/-- A reading with any other CRC is logged and discarded (R131). -/
theorem gate_reject (hcrc : s.dpCrc ≠ 0#8) (x : Tenths) :
    gate x s = { s with lastValid := false, out := s.out ++ [.log (.error .crcMismatch)] } := by
  rw [gate, if_neg hcrc]
  rfl

/-- Settles O50: the last echo of the ninth byte, then the gate by the CRC. -/
theorem ninthByteIsDecodedAndGated : Obligations.NinthByteIsDecodedAndGated := by
  refine ⟨rfl, fun s e b hi hs he hk hd => ?_⟩
  refine ⟨_, Config.freeScratchpad s.draws, s.draws + 1, getLsbD_setBit _ 7 _ (by decide), ?_⟩
  intro crc t u
  rw [exec, execEvEcho_lastRead hi hs he, completeTransfer_dp (by exact hk),
    dpStep_readDone (by exact hd), dpByteDone_last]
  split
  next hcrc =>
    rw [gate_accept (by exact hcrc)]
    simp only [isJump_iff]
    rfl
  next hcrc =>
    rw [gate_reject (by exact hcrc)]
    rfl

end Sys2Proof.Machine
end

section
/-! Proofs of the statements about `init`, the state before it, and a run (70_reset_and_hazards.md
R141, R142, R147). -/

namespace Sys2Proof.Machine

variable {s t : State}

/-! ### Reset -/

/-- `init` is accepted by a HOST that is not blocked (R141). -/
theorem execInit_accepted (h : s.initDone = false ∨ s.hostWait = .none) :
    execInit s = .next ((initState s).ret .ok .none) := by
  rw [execInit, if_neg]
  rcases h with h | h <;> simp [h]

/-- Settles O6: the accepted `init` answers `initState` with its return, and the field lemmas of
both give each value. -/
theorem initResetsEveryField : Obligations.InitResetsEveryField := by
  intro s h
  refine ⟨_, execInit_accepted h, ?_⟩
  simp

/-- Before `init` the guard of the host operations answers `Illegal` (R142). -/
theorem hostOp_beforeInit (hi : s.initDone = false) (run : State → Outcome) :
    hostOp s run = .next s.illegal := by
  simp only [hostOp, hi, Bool.false_eq_true, if_false]

/-- So before `init` every other operation returns `Illegal` and does nothing else (R142). -/
theorem operation_beforeInit {i : Instr} (hi : s.initDone = false) (he : i.isEvent = false)
    (hne : i ≠ .init) : exec i s = .next s.illegal := by
  obtain ⟨run, hrun⟩ := exists_exec_eq_hostOp he hne
  rw [hrun, hostOp_beforeInit hi]

/-! ### Events that are not enabled -/

/-- An echo is refused before `init` (R142). -/
theorem execEvEcho_beforeInit (hi : s.initDone = false) (e : Byte) :
    execEvEcho e s = .refused .echoNotEnabled :=
  (execEvEcho_enabled_or_refused s e).resolve_left fun h => by simp [hi] at h

/-- A timeout is refused before `init` and without an unsatisfied await (R97, R142). -/
theorem execEvSpinTimeout_refused (h : s.initDone = false ∨ s.awaiting = false) :
    execEvSpinTimeout s = .refused .timeoutNotEnabled := by
  rw [execEvSpinTimeout_eq, if_neg]
  rcases h with h | h <;> simp [h]

/-- Settles O7: the events are not enabled, and the seventeen operations stop at their guard. -/
theorem beforeInitOnlyInitHasAnEffect : Obligations.BeforeInitOnlyInitHasAnEffect := by
  intro s i hi hne
  cases i with
  | init => exact absurd rfl hne
  | evEcho e => exact execEvEcho_beforeInit hi e
  | evSpinTimeout => exact execEvSpinTimeout_refused (.inl hi)
  | _ => exact operation_beforeInit hi rfl hne

/-- Settles O60: no slot is in flight, and HOST is at no await. -/
theorem quiescentStatesEnableNoEvent : Obligations.QuiescentStatesEnableNoEvent := by
  rintro s e ⟨-, hwait, hslot, -⟩
  have hawait : s.awaiting = false := by rw [State.awaiting, hwait]
  exact ⟨execEvEcho_refused hslot e, execEvSpinTimeout_refused (.inr hawait)⟩

/-! ### Outputs and parameters -/

/-- Settles O56: `init` by its next state, and every other step by what it sends. -/
theorem stepsAppendOutputsAndKeepTheConfiguration :
    Obligations.StepsAppendOutputsAndKeepTheConfiguration := by
  intro s t hn
  rcases step_cases hn with h | ⟨c, rest, -, -, rfl⟩ | ⟨e, rest, -, h⟩
  · exact ⟨h.sends.out_extends, h.cfg⟩
  · exact ⟨⟨[.baud .normal, .line .weak, .result .ok .none], by simp⟩, rfl⟩
  · exact ⟨h.sends.out_extends, h.cfg⟩

end Sys2Proof.Machine
end
